-- ==== Sys2Proof/Word.lean ====
section
/-! DEFINITION. The word types of the Delta core. Bit 0 of a word is its least significant bit (00_scope.md R12). -/

namespace Sys2Proof

/-- One byte of memory (10_state.md R33). -/
abbrev Byte := BitVec 8

/-- One 64-bit word: a packet word, an operand latch, a `PRV` entry (00_scope.md R10). -/
abbrev Word := BitVec 64

end Sys2Proof
end

