-- ==== Sys2Proof/Config.lean ====
section
/-! DEFINITION. What one instance of the core fixes (the three open parameters of 00_scope.md R9) and the free values:
what the spec leaves unspecified after the machine goes on (93_implementation_defined.md U1, U4). -/

namespace Sys2Proof

/-- The byte order in which the core assembles a multi-byte sample (20_memory.md R55). -/
inductive ByteOrder where
  | le
  | be
deriving DecidableEq, Repr

/-- The open parameters `AW`, `MAXCH` and `NATIVE_ORDER` (00_scope.md R9). They are fixed per instance: no step changes
them (10_state.md R34). -/
structure Config where
  /-- `AW`, the width in bits of a byte address. -/
  aw : Nat
  /-- `MAXCH`, the number of entries of the `PRV` file. -/
  maxCh : Nat
  /-- `NATIVE_ORDER`. -/
  order : ByteOrder
deriving DecidableEq, Repr

/-- The constraints R9 puts on the parameters. -/
abbrev Config.Ok (cfg : Config) : Prop :=
  1 ≤ cfg.aw ∧ cfg.aw ≤ 64 ∧ 1 ≤ cfg.maxCh ∧ cfg.maxCh ≤ 2 ^ 32 - 1

/-- The values 92_eei_decisions.md D8 suggests for a model that wants constants. DESIGN CHOICE, unsafe: log entry 1. -/
def Config.suggested : Config := { aw := 64, maxCh := 2 ^ 32 - 1, order := .le }

/-- FREE VALUE: the bits from which the sign and the fraction of the NaN written at the given draw are taken
(42_float_kernels.md R182; log entry 6). Nothing constrains it. -/
opaque Config.freeNaN : Nat → Word

/-- FREE VALUE: the data bits of an invalid `PRV` entry (10_state.md R29, 93_implementation_defined.md U4; log entry 5),
for a channel and a draw. No reachable step reads it. -/
opaque Config.freeEntry : Nat → Nat → Word

end Sys2Proof
end

