-- ==== Sys2Proof/Syntax.lean ====
section
/-! DEFINITION. The instructions: one constructor per row of spec/opcode_table.json, with the encoded objects they stand
in (30_encoding.md R80): the command packet and the descriptor word. -/

namespace Sys2Proof

/-- The ten kernels (00_scope.md R3, 10_state.md R26). -/
inductive Kernel where
  | u8 | s8 | u16 | s16 | u32 | s32 | u64 | s64 | f32 | f64
deriving DecidableEq, Repr

/-- All ten kernels, in the order of R88. -/
def Kernel.all : List Kernel := [.u8, .s8, .u16, .s16, .u32, .s32, .u64, .s64, .f32, .f64]

/-- A command packet: four 64-bit words (30_encoding.md R80, R81). -/
structure Packet where
  w0 : Word
  w1 : Word
  w2 : Word
  w3 : Word
deriving DecidableEq, Repr

/-- The fields of the descriptor word `FD` (30_encoding.md R86). -/
structure Descriptor where
  /-- `BW`, FD[7:0], the bit width itself. -/
  bw : BitVec 8
  /-- `INT`, FD[8]: integer. -/
  int : Bool
  /-- `SGN`, FD[9]: signed. -/
  sgn : Bool
  /-- `BE`, FD[10]: big-endian, informational only. -/
  be : Bool
  /-- FD[31:11], reserved: must be zero, else no kernel matches. -/
  rsvd : BitVec 21
  /-- `CH`, FD[63:32]: not examined by the core. -/
  ch : BitVec 32
deriving DecidableEq, Repr

/-- The instructions of the opcode table. The two commands stand in a packet (30_encoding.md R82, R83); the ten kernel
rows stand in a descriptor word (R88) and are what the core runs while a `TRANSFORM` walks its buffer
(43_dispatch.md R198). -/
inductive Instr where
  | resolve (d : Descriptor)
  | transform (ch : BitVec 32) (buf len gain : Word)
  | kU8
  | kS8
  | kU16
  | kS16
  | kU32
  | kS32
  | kU64
  | kS64
  | kF32
  | kF64
deriving DecidableEq, Repr

/-- The kernel row of a kernel. -/
def Kernel.instr : Kernel → Instr
  | .u8 => .kU8
  | .s8 => .kS8
  | .u16 => .kU16
  | .s16 => .kS16
  | .u32 => .kU32
  | .s32 => .kS32
  | .u64 => .kU64
  | .s64 => .kS64
  | .f32 => .kF32
  | .f64 => .kF64

end Sys2Proof
end

