-- ==== Sys2Proof/WellFormed.lean ====
section
/-! DEFINITION. Which encoded object an instruction may stand in. The widths of the operands are in their types, so this
is the one check that is left: a command is issued in a packet, a kernel is selected by a descriptor word and "is not
issued by the host as a command of its own" (41_int_kernels.md, introduction; 30_encoding.md R80). -/

namespace Sys2Proof

/-- Is `i` a command, to be issued in a command packet (30_encoding.md R82, R83)? -/
def Instr.fitsPacket : Instr → Bool
  | .resolve _ => true
  | .transform _ _ _ _ => true
  | .kU8 => false
  | .kS8 => false
  | .kU16 => false
  | .kS16 => false
  | .kU32 => false
  | .kS32 => false
  | .kU64 => false
  | .kS64 => false
  | .kF32 => false
  | .kF64 => false

/-- Is `i` a kernel row, to be selected by a descriptor word (30_encoding.md R88)? -/
def Instr.fitsDescriptor : Instr → Bool
  | .resolve _ => false
  | .transform _ _ _ _ => false
  | .kU8 => true
  | .kS8 => true
  | .kU16 => true
  | .kS16 => true
  | .kU32 => true
  | .kS32 => true
  | .kU64 => true
  | .kS64 => true
  | .kF32 => true
  | .kF64 => true

end Sys2Proof
end

