-- ==== Sys2Proof/Decode.lean ====
section
/-! DEFINITION. Decoding of command packets and descriptor words, total on any bits (30_encoding.md R80 to R89), and the
encoder, written from the same rules. -/

namespace Sys2Proof

/-! ### The descriptor word -/

/-- Field decode of the descriptor word (30_encoding.md R86, R87). -/
def Descriptor.ofWord (fd : Word) : Descriptor :=
  { bw := fd.extractLsb' 0 8
    int := fd.getLsbD 8
    sgn := fd.getLsbD 9
    be := fd.getLsbD 10
    rsvd := fd.extractLsb' 11 21
    ch := fd.extractLsb' 32 32 }

/-- The descriptor word of the fields (30_encoding.md R86): each field at its lowest bit. -/
def Descriptor.toWord (d : Descriptor) : Word :=
  BitVec.ofNat 64 (d.bw.toNat + d.int.toNat * 2 ^ 8 + d.sgn.toNat * 2 ^ 9 + d.be.toNat * 2 ^ 10 +
    d.rsvd.toNat * 2 ^ 11 + d.ch.toNat * 2 ^ 32)

/-- One row of the match/mask table of 30_encoding.md R88, on FD[31:0]. -/
structure KernelRow where
  kernel : Kernel
  pattern : BitVec 32
  mask : BitVec 32
deriving DecidableEq, Repr

/-- The match/mask table of 30_encoding.md R88. -/
def kernelTable : List KernelRow :=
  [ ⟨.u8, 0x00000108, 0xFFFFFBFF⟩,
    ⟨.s8, 0x00000308, 0xFFFFFBFF⟩,
    ⟨.u16, 0x00000110, 0xFFFFFBFF⟩,
    ⟨.s16, 0x00000310, 0xFFFFFBFF⟩,
    ⟨.u32, 0x00000120, 0xFFFFFBFF⟩,
    ⟨.s32, 0x00000320, 0xFFFFFBFF⟩,
    ⟨.u64, 0x00000140, 0xFFFFFBFF⟩,
    ⟨.s64, 0x00000340, 0xFFFFFBFF⟩,
    ⟨.f32, 0x00000020, 0xFFFFF9FF⟩,
    ⟨.f64, 0x00000040, 0xFFFFF9FF⟩ ]

/-- Does FD[31:0] match the row? -/
def KernelRow.hits (r : KernelRow) (low : BitVec 32) : Bool := (low &&& r.mask) == r.pattern

/-- The kernel a descriptor word selects by the match/mask table (30_encoding.md R88, R89). -/
def kernelOfWord (fd : Word) : Option Kernel :=
  (kernelTable.find? fun r => r.hits (fd.setWidth 32)).map (·.kernel)

/-- A descriptor word read as the kernel row it selects. -/
def decodeDescriptor (fd : Word) : Option Instr := (kernelOfWord fd).map Kernel.instr

/-! ### The command packet -/

/-- Decode a command packet: `RESOLVE`, `TRANSFORM`, or illegal (`none`), by 30_encoding.md R81 to R85. -/
def decodePacket (p : Packet) : Option Instr :=
  let op : BitVec 4 := p.w0.extractLsb' 0 4
  let rsvd : BitVec 28 := p.w0.extractLsb' 4 28
  let ch : BitVec 32 := p.w0.extractLsb' 32 32
  if rsvd ≠ 0 then none
  else if op = 1 then
    if ch = 0 ∧ p.w2 = 0 ∧ p.w3 = 0 then some (.resolve (Descriptor.ofWord p.w1)) else none
  else if op = 2 then some (.transform ch p.w1 p.w2 p.w3)
  else none

/-! ### The encoder -/

/-- The command packet of a command (30_encoding.md R82, R83); a kernel row has none. -/
def encodePacket : Instr → Option Packet
  | .resolve d => some ⟨1, d.toWord, 0, 0⟩
  | .transform ch buf len gain => some ⟨BitVec.ofNat 64 (2 + ch.toNat * 2 ^ 32), buf, len, gain⟩
  | .kU8 => none
  | .kS8 => none
  | .kU16 => none
  | .kS16 => none
  | .kU32 => none
  | .kS32 => none
  | .kU64 => none
  | .kS64 => none
  | .kF32 => none
  | .kF64 => none

/-- A descriptor word that selects a kernel row: the row's fields (30_encoding.md R88) with the ignored bits zero; a
command has none. -/
def encodeDescriptor : Instr → Option Word
  | .resolve _ => none
  | .transform _ _ _ _ => none
  | .kU8 => some (Descriptor.toWord ⟨8, true, false, false, 0, 0⟩)
  | .kS8 => some (Descriptor.toWord ⟨8, true, true, false, 0, 0⟩)
  | .kU16 => some (Descriptor.toWord ⟨16, true, false, false, 0, 0⟩)
  | .kS16 => some (Descriptor.toWord ⟨16, true, true, false, 0, 0⟩)
  | .kU32 => some (Descriptor.toWord ⟨32, true, false, false, 0, 0⟩)
  | .kS32 => some (Descriptor.toWord ⟨32, true, true, false, 0, 0⟩)
  | .kU64 => some (Descriptor.toWord ⟨64, true, false, false, 0, 0⟩)
  | .kS64 => some (Descriptor.toWord ⟨64, true, true, false, 0, 0⟩)
  | .kF32 => some (Descriptor.toWord ⟨32, false, false, false, 0, 0⟩)
  | .kF64 => some (Descriptor.toWord ⟨64, false, false, false, 0, 0⟩)

/-! ### Words numbered as the opcode table numbers them -/

/-- The packet whose 256 bits are `w`, bit 0 the least significant bit of `W0`. -/
def packetOfBits (w : Nat) : Packet :=
  ⟨BitVec.ofNat 64 w, BitVec.ofNat 64 (w / 2 ^ 64), BitVec.ofNat 64 (w / 2 ^ 128), BitVec.ofNat 64 (w / 2 ^ 192)⟩

/-- The kernel row that the word of a table row names, if it is one: the rows of format `FD` are numbered on
FD[31:0] (30_encoding.md R88), an object of at most 64 bits, and only a word that is no command is one (log entry 11). -/
def tableKernel (nbits w : Nat) : Option Kernel :=
  if decodePacket (packetOfBits (w % 2 ^ nbits)) = none ∧ nbits ≤ 64 then
    kernelOfWord (BitVec.ofNat 64 (w % 2 ^ nbits))
  else none

/-- The instruction of a row of spec/opcode_table.json whose bits are `w`: rows of format `CMD` are numbered on the
packet, rows of format `FD` on the descriptor word. -/
def decodeTableWord (nbits w : Nat) : Option Instr :=
  match decodePacket (packetOfBits (w % 2 ^ nbits)) with
  | some i => some i
  | none => (tableKernel nbits w).map Kernel.instr

end Sys2Proof
end

