-- ==== Sys2Proof/Machine/State.lean ====
section
/-! DEFINITION. The state of the Delta core, as plain data: everything 10_state.md names, the memory behind the master
port, the two command ports, and what the outside does next. -/

namespace Sys2Proof.Machine

/-- The outcome codes of a response (30_encoding.md R97). Codes 10 to 15 are never emitted. -/
inductive ErrCode where
  | ok
  | unsupportedFormat
  | notResolved
  | illegalCommand
  | zeroChannels
  | channelRange
  | badGain
  | bufUnaligned
  | bufRange
  | memFault
deriving DecidableEq, Repr

/-- A response packet: two 64-bit words (30_encoding.md R80, R96). -/
structure Response where
  q0 : Word
  q1 : Word
deriving DecidableEq, Repr

/-- The two kinds of request on the master port (20_memory.md R50). -/
inductive AccessKind where
  | read
  | write
deriving DecidableEq, Repr

/-- One request the master port has performed: its kind, its byte address and its width in bytes (20_memory.md R50). -/
structure Access where
  kind : AccessKind
  addr : Nat
  bytes : Nat
deriving DecidableEq, Repr

/-- How the platform answers accesses to a region that is not ordinary memory. -/
inductive RegionKind where
  /-- a read is answered with an error (20_memory.md R62) -/
  | noRead
  /-- a write is answered with an error (20_memory.md R62) -/
  | noWrite
  /-- every access is answered with an error (20_memory.md R62) -/
  | absent
  /-- device registers: outside the spec (20_memory.md R63, 93_implementation_defined.md U18) -/
  | device
deriving DecidableEq, Repr

/-- A region of the platform's address map that is not ordinary memory; the block itself fixes nothing of the map
(20_memory.md R71). -/
structure Region where
  base : Nat
  size : Nat
  kind : RegionKind
deriving DecidableEq, Repr

/-- What the outside does to the machine (70_reset_and_hazards.md R254; log entry 7). -/
inductive HostEvent where
  /-- a packet on the command port; accepted when `BUSY = 0` (10_state.md R31) -/
  | command (p : Packet)
  /-- the reset input is asserted (70_reset_and_hazards.md R240), also while `BUSY = 1` (R242) -/
  | reset
  /-- the host, or another agent, writes bytes to memory (R254) -/
  | store (addr : Nat) (bytes : List Byte)
  /-- the host, or another agent, reads bytes of memory (R254) -/
  | load (addr : Nat) (count : Nat)
  /-- the platform's answers change (R254: "make memory answer an access with an error") -/
  | platform (regions : List Region)
  /-- the outside does nothing for `n` steps of the core -/
  | wait (n : Nat)
deriving DecidableEq, Repr

/-- The reasons the machine stops with a fault: none. Every fault of 60_exceptions.md is a response, after which the core
accepts the next command (R210, R225: "No case is stuck"). -/
inductive Fault where
deriving DecidableEq, Repr

/-- The reasons the model declines to go on. -/
inductive Refusal where
  /-- Raised by `exec` for an instruction that has no meaning yet. Safe. -/
  | notModelled (mnemonic : String)
  /-- Raised by the host port when another agent reads or writes the processed region of a `TRANSFORM` in flight
  (20_memory.md R65, 93_implementation_defined.md U3: "a model must treat it as a refusal"). Safe. -/
  | dataRace
  /-- Raised by a kernel step whose element access falls on device registers (20_memory.md R63: "Pointing `BUF` at device
  registers is outside the spec", 93_implementation_defined.md U18: `refuse`). Safe. -/
  | deviceBuffer
deriving DecidableEq, Repr

/-- The machine. -/
structure State where
  /-- the open parameters (00_scope.md R9); no step changes them -/
  cfg : Config
  /-- `DS` (10_state.md R25): `true` is Resolved -/
  ds : Bool
  /-- `KSEL` (10_state.md R26): `none` is `0b1111` -/
  ksel : Option Kernel
  /-- `BUSY` (10_state.md R31) -/
  busy : Bool
  /-- the packet accepted and not yet executed: the command in flight from its acceptance to its first effect
  (10_state.md R31, 70_reset_and_hazards.md R242; log entry 23) -/
  cmd : Option Packet
  /-- `O_BUF` (10_state.md R21) -/
  oBuf : Word
  /-- `O_LEN` (10_state.md R21) -/
  oLen : Word
  /-- `O_CH` (10_state.md R21) -/
  oCh : BitVec 32
  /-- `O_GAIN` (10_state.md R21) -/
  oGain : Word
  /-- `F`, the current frame index (10_state.md R23) -/
  f : Nat
  /-- `C`, the current channel index (10_state.md R23) -/
  c : Nat
  /-- the result of the current position when its element has been read and not yet written (40_transform.md R118, R121;
  log entry 2) -/
  out : Option Word
  /-- `PRV` and `PV` (10_state.md R28): the listed channels are the valid ones, channel rising -/
  prv : List (Nat × Word)
  /-- the memory behind the master port (10_state.md R33), in canonical form -/
  mem : List Host.Cell
  /-- the platform's regions that are not ordinary memory (20_memory.md R62, R63) -/
  regions : List Region
  /-- what the outside does next, oldest first (70_reset_and_hazards.md R254) -/
  host : List HostEvent
  /-- the response packets emitted so far, oldest first (30_encoding.md R96) -/
  responses : List Response
  /-- the model's own: the requests the master port has performed so far, oldest first (20_memory.md R64) -/
  accesses : List Access
  /-- the model's own: how many draws of a free value there have been (42_float_kernels.md R182) -/
  draws : Nat
deriving DecidableEq, Repr

/-- The machine right after reset (10_state.md R40, 70_reset_and_hazards.md R240), on an instance with the parameters
D8 suggests (log entry 1). The latches and `(F, C)` are unspecified after reset and unobservable; zero is named for them
(log entry 4). -/
def State.reset : State :=
  { cfg := Config.suggested
    ds := false
    ksel := none
    busy := false
    cmd := none
    oBuf := 0
    oLen := 0
    oCh := 0
    oGain := 0
    f := 0
    c := 0
    out := none
    prv := []
    mem := []
    regions := []
    host := []
    responses := []
    accesses := []
    draws := 0 }

end Sys2Proof.Machine
end

