-- ==== Sys2Proof/Machine/Exact.lean ====
section
/-! DEFINITION. The numeric primitives of 00_scope.md R14 on dyadic rationals. Every number the kernels handle is
`m * 2^e` for integers `m`, `e` (samples are integers, gains are binary64 numbers, and sums, products and roundings of
such are such), so exact rational arithmetic is arithmetic on pairs (log entry 14). -/

namespace Sys2Proof.Machine

/-- The rational number `m * 2^e`. -/
structure Dyad where
  m : Int
  e : Int
deriving DecidableEq, Repr

/-- An integer as a dyadic rational. -/
def dyadOfInt (z : Int) : Dyad := ⟨z, 0⟩

/-- `x` as a multiple of `2^k`, for `k ≤ x.e`. -/
def dyadAt (x : Dyad) (k : Int) : Int := x.m * 2 ^ (x.e - k).toNat

/-- The exact sum. -/
def dyadAdd (x y : Dyad) : Dyad :=
  let k := min x.e y.e
  ⟨dyadAt x k + dyadAt y k, k⟩

/-- The exact product. -/
def dyadMul (x y : Dyad) : Dyad := ⟨x.m * y.m, x.e + y.e⟩

/-- The order of the rationals. -/
def dyadLt (x y : Dyad) : Bool :=
  let k := min x.e y.e
  decide (dyadAt x k < dyadAt y k)

/-- `rint_even(a / 2^s)` (R14): the nearest integer, and the even one of two that are equally near. -/
def roundHalfEven (a s : Nat) : Nat :=
  let q := a / 2 ^ s
  let r := a % 2 ^ s
  if 2 * r < 2 ^ s then q
  else if 2 ^ s < 2 * r then q + 1
  else if q % 2 = 0 then q
  else q + 1

/-- `rne_p(x)` (R14): round to nearest, ties to even, to `p` significant bits. A number of at most `p` bits is kept. -/
def rne (p : Nat) (x : Dyad) : Dyad :=
  let s := x.m.natAbs.log2 + 1 - p
  ⟨x.m.sign * (roundHalfEven x.m.natAbs s : Nat), x.e + s⟩

/-- `clampQ(x, lo, hi)` (R14). -/
def clampQ (x lo hi : Dyad) : Dyad := if dyadLt x lo then lo else if dyadLt hi x then hi else x

/-- `trunc(x)` (R14): round toward zero. -/
def dyadTrunc (x : Dyad) : Int :=
  if 0 ≤ x.e then x.m * 2 ^ x.e.toNat else x.m.tdiv (2 ^ (-x.e).toNat)

end Sys2Proof.Machine
end

