-- ==== Sys2Proof/Machine/Ieee.lean ====
section
/-! DEFINITION. IEEE 754 binary32 and binary64 as 42_float_kernels.md R171 to R176 give them: decoding, rounding to
nearest even with gradual underflow, addition, multiplication, the ordered comparison, the clamp, and the conversion of
the gain (40_transform.md R113). Patterns are held in 64-bit words, zero-extended. -/

namespace Sys2Proof.Machine

/-- A format: the widths of the exponent and fraction fields. -/
structure Fmt where
  ew : Nat
  fw : Nat
deriving DecidableEq, Repr

/-- binary32 (R171). -/
def binary32 : Fmt := ⟨8, 23⟩

/-- binary64 (R171). -/
def binary64 : Fmt := ⟨11, 52⟩

/-- The precision `p` (R171). -/
def fmtPrec (t : Fmt) : Nat := t.fw + 1

/-- The bias (R171). -/
def fmtBias (t : Fmt) : Int := 2 ^ (t.ew - 1) - 1

/-- `emin` (R171). -/
def fmtEmin (t : Fmt) : Int := 1 - fmtBias t

/-- `emax` (R171). -/
def fmtEmax (t : Fmt) : Int := fmtBias t

/-- The all-ones exponent `Emax` (R172). -/
def fmtExpMax (t : Fmt) : Nat := 2 ^ t.ew - 1

/-- The datum a pattern stands for (R172): a NaN, an infinity, or `(-1)^sg * m * 2^e`. -/
inductive FVal where
  | nan
  | inf (sg : Bool)
  | fin (sg : Bool) (m : Nat) (e : Int)
deriving DecidableEq, Repr

/-- The sign of a pattern. -/
def patSign (t : Fmt) (b : Word) : Bool := b.getLsbD (t.ew + t.fw)

/-- The biased exponent `E` of a pattern. -/
def patExp (t : Fmt) (b : Word) : Nat := b.toNat / 2 ^ t.fw % 2 ^ t.ew

/-- The fraction `f` of a pattern. -/
def patFrac (t : Fmt) (b : Word) : Nat := b.toNat % 2 ^ t.fw

/-- Decode a pattern (R172). Subnormals keep their exact value. -/
def fdecode (t : Fmt) (b : Word) : FVal :=
  let ex := patExp t b
  let fr := patFrac t b
  let sg := patSign t b
  if ex = fmtExpMax t then (if fr = 0 then .inf sg else .nan)
  else if ex = 0 then .fin sg fr (fmtEmin t - t.fw)
  else .fin sg (2 ^ t.fw + fr) (ex - fmtBias t - t.fw)

/-- The pattern of a sign, a biased exponent and a fraction (R171). -/
def patternOf (t : Fmt) (sg : Bool) (ex fr : Nat) : Word :=
  BitVec.ofNat 64 (sg.toNat * 2 ^ (t.ew + t.fw) + ex * 2 ^ t.fw + fr)

/-- The NaN pattern drawn from free bits: any sign and any nonzero fraction can come out (R182; log entry 6). -/
def nanPattern (t : Fmt) (free : Word) : Word :=
  let fr := free.toNat % 2 ^ t.fw
  patternOf t (free.getLsbD 63) (fmtExpMax t) (if fr = 0 then 1 else fr)

/-- The pattern of a datum of the format; a NaN's is drawn from the free bits. -/
def fencode (t : Fmt) (free : Word) : FVal → Word
  | .nan => nanPattern t free
  | .inf sg => patternOf t sg (fmtExpMax t) 0
  | .fin sg m e =>
    if m < 2 ^ t.fw then patternOf t sg 0 m
    else patternOf t sg (e + t.fw + fmtBias t).toNat (m - 2 ^ t.fw)

/-- The exact value of a finite datum. -/
def finDyad (sg : Bool) (m : Nat) (e : Int) : Dyad := ⟨if sg then -(m : Int) else m, e⟩

/-- `round_T(x, zs)` (R173). -/
def fround (t : Fmt) (x : Dyad) (zs : Bool) : FVal :=
  if x.m = 0 then .fin zs 0 (fmtEmin t - t.fw)
  else
    let a := x.m.natAbs
    let sg := decide (x.m < 0)
    let e := max ((a.log2 : Int) + x.e) (fmtEmin t)
    let qe := e - fmtPrec t + 1
    let m := if qe ≤ x.e then a * 2 ^ (x.e - qe).toNat else roundHalfEven a (qe - x.e).toNat
    let m' := if m = 2 ^ fmtPrec t then 2 ^ (fmtPrec t - 1) else m
    let e' := if m = 2 ^ fmtPrec t then e + 1 else e
    if fmtEmax t < e' then .inf sg
    else .fin sg m' (e' - fmtPrec t + 1)

/-- `neg`: flip the sign (R174). -/
def fneg : FVal → FVal
  | .nan => .nan
  | .inf sg => .inf (!sg)
  | .fin sg m e => .fin (!sg) m e

/-- `fadd_T(a, b)` (R174). A zero sum is `-0` only when both operands are `-0`. -/
def fadd (t : Fmt) : FVal → FVal → FVal
  | .nan, _ => .nan
  | _, .nan => .nan
  | .inf sa, .inf sb => if sa = sb then .inf sa else .nan
  | .inf sa, .fin _ _ _ => .inf sa
  | .fin _ _ _, .inf sb => .inf sb
  | .fin sa ma ea, .fin sb mb eb => fround t (dyadAdd (finDyad sa ma ea) (finDyad sb mb eb)) (sa && sb)

/-- `fsub_T(a, b) = fadd_T(a, neg(b))` (R174). -/
def fsub (t : Fmt) (a b : FVal) : FVal := fadd t a (fneg b)

/-- `fmul_T(a, b)` (R175). -/
def fmul (t : Fmt) : FVal → FVal → FVal
  | .nan, _ => .nan
  | _, .nan => .nan
  | .inf sa, .inf sb => .inf (sa ^^ sb)
  | .inf sa, .fin sb mb _ => if mb = 0 then .nan else .inf (sa ^^ sb)
  | .fin sa ma _, .inf sb => if ma = 0 then .nan else .inf (sa ^^ sb)
  | .fin sa ma ea, .fin sb mb eb => fround t (dyadMul (finDyad sa ma ea) (finDyad sb mb eb)) (sa ^^ sb)

/-- `flt_T(a, b)`, the ordered less-than (R176): false on NaN, and `-0 = +0`. -/
def flt : FVal → FVal → Bool
  | .nan, _ => false
  | _, .nan => false
  | .inf sa, .inf sb => sa && !sb
  | .inf sa, .fin _ _ _ => sa
  | .fin _ _ _, .inf sb => !sb
  | .fin sa ma ea, .fin sb mb eb => dyadLt (finDyad sa ma ea) (finDyad sb mb eb)

/-- `maxFinite` with a sign (R171): `(2 - 2^-fw) * 2^emax`. -/
def fmaxFinite (t : Fmt) (sg : Bool) : FVal := .fin sg (2 ^ fmtPrec t - 1) (fmtEmax t - t.fw)

/-- `fclamp_T(r)` (R176): two ordered comparisons, so a NaN passes. -/
def fclamp (t : Fmt) (r : FVal) : FVal :=
  if flt r (fmaxFinite t true) then fmaxFinite t true
  else if flt (fmaxFinite t false) r then fmaxFinite t false
  else r

/-- Is the datum finite? -/
def FVal.isFin : FVal → Bool
  | .nan => false
  | .inf _ => false
  | .fin _ _ _ => true

/-- `cvt32(g)` (40_transform.md R113): a finite binary64 number rounded to binary32, its sign kept. -/
def cvt32 : FVal → FVal
  | .nan => .nan
  | .inf sg => .inf sg
  | .fin sg m e => fround binary32 (finDyad sg m e) sg

end Sys2Proof.Machine
end

