-- ==== Sys2Proof/Machine/Flags.lean ====
section
/-! DEFINITION. The outcome indication. The block has no status flags and no condition codes (10_state.md R24): the only
outcome a command leaves is the `ERR` field of its response. This file holds the codes and the layout of the response
words (30_encoding.md R90, R96, R97). -/

namespace Sys2Proof.Machine

/-- The `ERR` codes (30_encoding.md R97). -/
def errBits : ErrCode → BitVec 4
  | .ok => 0
  | .unsupportedFormat => 1
  | .notResolved => 2
  | .illegalCommand => 3
  | .zeroChannels => 4
  | .channelRange => 5
  | .badGain => 6
  | .bufUnaligned => 7
  | .bufRange => 8
  | .memFault => 9

/-- The 4-bit kernel codes (10_state.md R26, 30_encoding.md R90). -/
def kernelCode : Kernel → BitVec 4
  | .u8 => 0b0000
  | .u16 => 0b0001
  | .u32 => 0b0010
  | .u64 => 0b0011
  | .s8 => 0b0100
  | .s16 => 0b0101
  | .s32 => 0b0110
  | .s64 => 0b0111
  | .f32 => 0b1010
  | .f64 => 0b1011

/-- The four bits of `KSEL`; `0b1111` (`NONE`) selects no kernel (10_state.md R26). -/
def kselCode : Option Kernel → BitVec 4
  | some k => kernelCode k
  | none => 0b1111

/-- The response packet with the given fields (30_encoding.md R96): `Q0` holds `OP` at bit 0, `ERR` at bit
4, `RES` at bit 8, `KSEL` at bit 12 and zeros elsewhere; `Q1` is `INFO`. -/
def responseOf (op : BitVec 4) (err : ErrCode) (res : Bool) (ksel : Option Kernel) (info : Word) : Response :=
  { q0 := BitVec.ofNat 64
      (op.toNat + (errBits err).toNat * 2 ^ 4 + res.toNat * 2 ^ 8 + (kselCode ksel).toNat * 2 ^ 12)
    q1 := info }

/-- The `OP` field of a response (30_encoding.md R96). -/
def responseOp (r : Response) : BitVec 4 := r.q0.extractLsb' 0 4

/-- The `ERR` field of a response (30_encoding.md R96). -/
def responseErr (r : Response) : BitVec 4 := r.q0.extractLsb' 4 4

/-- The `RES` field of a response (30_encoding.md R96). -/
def responseRes (r : Response) : Bool := r.q0.getLsbD 8

/-- The `KSEL` field of a response (30_encoding.md R96). -/
def responseKsel (r : Response) : BitVec 4 := r.q0.extractLsb' 12 4

end Sys2Proof.Machine
end

