-- ==== Sys2Proof/Machine/Ops.lean ====
section
/-! DEFINITION. The shared operations over memory, the `PRV` file and the ports: sparse tables in canonical form, the
memory port, the response port, raising a fault, the end of a command, and reset. -/

namespace Sys2Proof.Machine

/-! ### Sparse tables: key and value pairs, keys strictly rising -/

/-- The value listed under `k`. -/
def sparseFind {α : Type} (k : Nat) : List (Nat × α) → Option α
  | [] => none
  | x :: t => if k = x.1 then some x.2 else sparseFind k t

/-- List `v` under `k`, in place of what was listed there. -/
def sparsePut {α : Type} (k : Nat) (v : α) : List (Nat × α) → List (Nat × α)
  | [] => [(k, v)]
  | x :: t =>
    if k < x.1 then (k, v) :: x :: t
    else if k = x.1 then (k, v) :: t
    else x :: sparsePut k v t

/-- List nothing under `k`. -/
def sparseDrop {α : Type} (k : Nat) : List (Nat × α) → List (Nat × α)
  | [] => []
  | x :: t => if k = x.1 then t else x :: sparseDrop k t

/-- The canonical form of a sparse table: keys strictly rising. -/
abbrev SparseRising {α : Type} (l : List (Nat × α)) : Prop := l.Pairwise fun x y => x.1 < y.1

/-! ### Memory -/

/-- What a byte of memory that nothing has written reads as. The spec gives memory no contents (10_state.md R33).
DESIGN CHOICE, unsafe: log entry 3. -/
def memBackground : Byte := 0

/-- Read one byte. -/
def memByte (m : List Host.Cell) (a : Nat) : Byte := (sparseFind a m).getD memBackground

/-- Write one byte, keeping the canonical form: a byte that reads as an unlisted one is not listed. -/
def memPut (m : List Host.Cell) (a : Nat) (b : Byte) : List Host.Cell :=
  if b = memBackground then sparseDrop a m else sparsePut a b m

/-- The `n` bytes at `a`, ascending. -/
def memBytes (m : List Host.Cell) (a : Nat) : Nat → List Byte
  | 0 => []
  | n + 1 => memByte m a :: memBytes m (a + 1) n

/-- Write bytes at `a`, ascending. -/
def memPutBytes (m : List Host.Cell) (a : Nat) : List Byte → List Host.Cell
  | [] => m
  | b :: bs => memPutBytes (memPut m a b) (a + 1) bs

/-- The canonical form of memory: addresses strictly rising, no entry equal to what an unlisted address reads as. -/
abbrev MemWf (m : List Host.Cell) : Prop := SparseRising m ∧ ∀ x ∈ m, x.2 ≠ memBackground

/-! ### The master port -/

/-- Does the region share a byte with the `n` bytes at `a`? -/
def Region.meets (r : Region) (a n : Nat) : Bool :=
  decide (r.base < a + n ∧ a < r.base + r.size ∧ 0 < n ∧ 0 < r.size)

/-- Does the region answer this kind of access with an error (20_memory.md R62)? -/
def Region.refuses (r : Region) (k : AccessKind) : Bool :=
  match r.kind, k with
  | .noRead, .read => true
  | .noRead, .write => false
  | .noWrite, .read => false
  | .noWrite, .write => true
  | .absent, _ => true
  | .device, _ => false

/-- How the platform answers a request. -/
inductive Answer where
  | ok
  | error
  | device
deriving DecidableEq, Repr

/-- The platform's answer to a request for `n` bytes at `a`: an error at an address outside the space of `2^AW` bytes
(10_state.md R33) or in a region that refuses the access (20_memory.md R62). -/
def portAnswer (s : State) (k : AccessKind) (a n : Nat) : Answer :=
  if s.regions.any (fun r => r.kind == .device && r.meets a n) then .device
  else if 2 ^ s.cfg.aw < a + n || s.regions.any (fun r => r.refuses k && r.meets a n) then .error
  else .ok

/-- Record a request the port has performed. -/
def State.noteAccess (s : State) (k : AccessKind) (a n : Nat) : State :=
  { s with accesses := s.accesses ++ [⟨k, a, n⟩] }

/-- Store bytes at `a`. -/
def State.storeBytes (s : State) (a : Nat) (bs : List Byte) : State :=
  { s with mem := memPutBytes s.mem a bs }

/-! ### The `PRV` file -/

/-- `PRV[c] <- v; PV[c] <- 1` (10_state.md R28). -/
def State.putPrv (s : State) (c : Nat) (v : Word) : State := { s with prv := sparsePut c v s.prv }

/-- `PRV[c]`. The data bits of an invalid entry are a free value (10_state.md R29; log entry 5). -/
def prvEntry (s : State) (c : Nat) : Word :=
  match sparseFind c s.prv with
  | some v => v
  | none => Config.freeEntry c s.draws

/-! ### The response port, and taking an exception -/

/-- `respond(op, err, info)` (00_scope.md R13, 30_encoding.md R96): `RES` and `KSEL` are reported as they stand. -/
def State.respond (s : State) (op : BitVec 4) (err : ErrCode) (info : Word) : State :=
  { s with responses := s.responses ++ [responseOf op err s.ds s.ksel info] }

/-- The end of a command: respond, then `BUSY <- 0`. -/
def State.complete (s : State) (op : BitVec 4) (err : ErrCode) (info : Word) : State :=
  { s.respond op err info with busy := false }

/-- `raise X(info)` (60_exceptions.md R222), the ONE operation that takes an exception: the command stops, every `PV[c]` is
cleared and no result waits any more, the response is emitted with the fault's code, and `BUSY <- 0`. A fault's own state
change (only `UnsupportedFormat` has one) is applied by its caller before. Nothing is saved, so there is no return from it
(R224). The latches and `(F, C)` keep their last values, where 93_implementation_defined.md U4 allows any: DESIGN CHOICE, log
entry 24. -/
def State.raise (s : State) (op : BitVec 4) (err : ErrCode) (info : Word) : State :=
  State.complete { s with prv := [], out := none } op err info

/-- A fault of a `TRANSFORM`: `OP = 2`, `INFO = O_BUF` (40_transform.md R110). -/
def State.raiseTransform (s : State) (err : ErrCode) : State := s.raise 2 err s.oBuf

/-- The end of a `TRANSFORM` that succeeds (40_transform.md R119). The latches and `(F, C)` keep their last values, where
93_implementation_defined.md U4 allows any: DESIGN CHOICE, log entry 24. -/
def State.finishTransform (s : State) : State := State.complete { s with prv := [] } 2 .ok s.oBuf

/-! ### Reset -/

/-- Assert the reset input (10_state.md R40, 70_reset_and_hazards.md R240, R242): every state element of the core takes its
reset value, memory is not touched, no response is emitted. The parameters, the platform, the host's events and the
model's own records are not the core's and stay. -/
def State.applyReset (s : State) : State :=
  { s with
    ds := State.reset.ds
    ksel := State.reset.ksel
    busy := State.reset.busy
    cmd := State.reset.cmd
    oBuf := State.reset.oBuf
    oLen := State.reset.oLen
    oCh := State.reset.oCh
    oGain := State.reset.oGain
    f := State.reset.f
    c := State.reset.c
    out := State.reset.out
    prv := State.reset.prv }

end Sys2Proof.Machine
end

