-- ==== Sys2Proof/Machine/Operands.lean ====
section
/-! DEFINITION. The operand forms: the byte order of an element, its address, reading and writing it through the master
port, the geometry of the buffer, the gain in a kernel's compute type, and the integer values of sample patterns. -/

namespace Sys2Proof.Machine

/-! ### Byte order (20_memory.md R55) -/

/-- The number whose bytes, least significant first, are `bs`. -/
def bytesToNat : List Byte → Nat
  | [] => 0
  | b :: bs => b.toNat + 256 * bytesToNat bs

/-- The `n` low bytes of `v`, least significant first. -/
def natToBytes : Nat → Nat → List Byte
  | 0, _ => []
  | n + 1, v => BitVec.ofNat 8 v :: natToBytes n (v / 256)

/-- Assemble a pattern from bytes in ascending address order, zero-extended to 64 bits. -/
def assemble (o : ByteOrder) (bs : List Byte) : Word :=
  match o with
  | .le => BitVec.ofNat 64 (bytesToNat bs)
  | .be => BitVec.ofNat 64 (bytesToNat bs.reverse)

/-- Split the low `w` bytes of a pattern into bytes in ascending address order. -/
def splitBytes (o : ByteOrder) (w : Nat) (v : Word) : List Byte :=
  match o with
  | .le => natToBytes w v.toNat
  | .be => (natToBytes w v.toNat).reverse

/-! ### Kernel attributes -/

/-- The element size `w` in bytes (20_memory.md R54). -/
def elemBytes : Kernel → Nat
  | .u8 => 1
  | .s8 => 1
  | .u16 => 2
  | .s16 => 2
  | .u32 => 4
  | .s32 => 4
  | .f32 => 4
  | .u64 => 8
  | .s64 => 8
  | .f64 => 8

/-! ### Geometry (10_state.md R22, 40_transform.md R114) -/

/-- `NS = O_LEN div w`. -/
def samples (s : State) (w : Nat) : Nat := s.oLen.toNat / w

/-- `NF = NS div O_CH`. -/
def frames (s : State) (w : Nat) : Nat := samples s w / s.oCh.toNat

/-- The sample index of the position, `F*O_CH + C` (10_state.md R23). -/
def posIndex (s : State) : Nat := s.f * s.oCh.toNat + s.c

/-- The byte address of element `i` (20_memory.md R53), on mathematical integers: it cannot wrap (R59). -/
def elemAddr (s : State) (w i : Nat) : Nat := s.oBuf.toNat + i * w

/-! ### Element access -/

/-- The element the memory holds at index `i`, without any request on the port. -/
def elemAt (s : State) (w i : Nat) : Word := assemble s.cfg.order (memBytes s.mem (elemAddr s w i) w)

/-- `ElemRead(i)` (20_memory.md R56), then `k`; an access the platform refuses ends the command with `MemFault` (R62), and
device registers are outside the spec (R63). -/
def elemRead (w i : Nat) (s : State) (k : Word → State → Host.Outcome State Fault Refusal) :
    Host.Outcome State Fault Refusal :=
  match portAnswer s .read (elemAddr s w i) w with
  | .ok => k (elemAt s w i) (s.noteAccess .read (elemAddr s w i) w)
  | .error => .next (s.raiseTransform .memFault)
  | .device => .refused .deviceBuffer

/-- `ElemWrite(i, b)` (20_memory.md R57), then `k`; refused accesses as in `elemRead`. -/
def elemWrite (w i : Nat) (b : Word) (s : State) (k : State → Host.Outcome State Fault Refusal) :
    Host.Outcome State Fault Refusal :=
  match portAnswer s .write (elemAddr s w i) w with
  | .ok =>
    k ((s.storeBytes (elemAddr s w i) (splitBytes s.cfg.order w b)).noteAccess .write (elemAddr s w i) w)
  | .error => .next (s.raiseTransform .memFault)
  | .device => .refused .deviceBuffer

/-! ### The gain in the kernel's compute type, `GK` (40_transform.md R113) -/

/-- `GK` of an integer kernel: the exact value of a finite binary64 pattern (41_int_kernels.md R141). -/
def gainExact (g : Word) : Option Dyad :=
  match fdecode binary64 g with
  | .nan => none
  | .inf _ => none
  | .fin sg m e => some (finDyad sg m e)

/-- `GK` of `K_F64`: a finite binary64 pattern, used as is. -/
def gainF64 (g : Word) : Option FVal :=
  match fdecode binary64 g with
  | .nan => none
  | .inf _ => none
  | .fin sg m e => some (.fin sg m e)

/-- `GK` of `K_F32`: `cvt32` of a finite binary64 pattern, unless it is an infinity. -/
def gainF32 (g : Word) : Option FVal :=
  match cvt32 (fdecode binary64 g) with
  | .nan => none
  | .inf _ => none
  | .fin sg m e => some (.fin sg m e)

/-- Does the gain pass check 4 of R111 for the kernel? -/
def gainOk (k : Kernel) (g : Word) : Bool :=
  match k with
  | .f32 => (gainF32 g).isSome
  | .f64 => (gainF64 g).isSome
  | .u8 | .s8 | .u16 | .s16 | .u32 | .s32 | .u64 | .s64 => (gainExact g).isSome

/-! ### Integer samples (41_int_kernels.md R143, R144) -/

/-- `val`: `uint_N` of an unsigned kernel, `sint_N` of a signed one. -/
def sampleVal {n : Nat} (signed : Bool) (b : BitVec n) : Int := if signed then b.toInt else b.toNat

/-- `MIN_K`. -/
def minSample (n : Nat) (signed : Bool) : Int := if signed then -2 ^ (n - 1) else 0

/-- `MAX_K`. -/
def maxSample (n : Nat) (signed : Bool) : Int := if signed then 2 ^ (n - 1) - 1 else 2 ^ n - 1

end Sys2Proof.Machine
end

