-- ==== Sys2Proof/Machine/Commands.lean ====
section
/-! DEFINITION. The two commands: `RESOLVE` and the dispatcher (43_dispatch.md), and the acceptance and the checks of
`TRANSFORM` (40_transform.md). -/

namespace Sys2Proof.Machine

/-- The selection function `sel` (43_dispatch.md R192), which reads neither `BE` nor `CH` (R196). -/
def sel (d : Descriptor) : Option Kernel :=
  if d.rsvd ≠ 0 then none
  else if d.int = false then
    if d.bw = 32 then some .f32
    else if d.bw = 64 then some .f64
    else none
  else
    if d.bw = 8 then some (if d.sgn then .s8 else .u8)
    else if d.bw = 16 then some (if d.sgn then .s16 else .u16)
    else if d.bw = 32 then some (if d.sgn then .s32 else .u32)
    else if d.bw = 64 then some (if d.sgn then .s64 else .u64)
    else none

/-- `DS` and `KSEL` written together, by the dispatcher only (43_dispatch.md R193). -/
def State.select (s : State) (k : Option Kernel) : State := { s with ds := k.isSome, ksel := k }

/-- `RESOLVE` (43_dispatch.md R191): cache the selected kernel and answer `OK`, or discard the old selection and raise
`UnsupportedFormat` (60_exceptions.md R211). The command is over with this step, so `BUSY` is 0 after it. -/
def execResolve (d : Descriptor) (s : State) : Host.Outcome State Fault Refusal :=
  match sel d with
  | some k => .next ((s.select (some k)).complete 1 .ok 0)
  | none => .next ((s.select none).raise 1 .unsupportedFormat 0)

/-- The first check of 40_transform.md R111 that fails, on the latched operands; `none` when all pass. -/
def failedCheck (s : State) : Option ErrCode :=
  match s.ds, s.ksel with
  | false, _ => some .notResolved
  | true, none => some .notResolved
  | true, some k =>
    if s.oCh = 0 then some .zeroChannels
    else if s.cfg.maxCh < s.oCh.toNat then some .channelRange
    else if gainOk k s.oGain = false then some .badGain
    else if s.oBuf.toNat % elemBytes k ≠ 0 then some .bufUnaligned
    else if 2 ^ s.cfg.aw < s.oBuf.toNat + s.oLen.toNat then some .bufRange
    else none

/-- The start of a `TRANSFORM` (40_transform.md R110, R120): the operands are latched, the position is set to (0, 0)
(10_state.md R23) with no result waiting, and `BUSY = 1`. -/
def State.latch (s : State) (ch : BitVec 32) (buf len gain : Word) : State :=
  { s with oBuf := buf, oLen := len, oCh := ch, oGain := gain, f := 0, c := 0, out := none, busy := true }

/-- `TRANSFORM` (40_transform.md R110, R111, R120): latch, check, and raise the first fault or start the walk, which the
kernel named by `KSEL` performs position by position. -/
def execTransform (ch : BitVec 32) (buf len gain : Word) (s : State) : Host.Outcome State Fault Refusal :=
  let s₁ := s.latch ch buf len gain
  match failedCheck s₁ with
  | some err => .next (s₁.raiseTransform err)
  | none => .next s₁

end Sys2Proof.Machine
end

