-- ==== Sys2Proof/Machine/Walk.lean ====
section
/-! DEFINITION. The walk of a `TRANSFORM` over its buffer, one memory access a step (40_transform.md R117 to R120, the small
steps of R121). The kernels share it and differ in the element size and in the function on patterns. -/

namespace Sys2Proof.Machine

/-- The next position, channel fastest (10_state.md R23). -/
def State.advance (s : State) : State :=
  { s with
    f := if s.c + 1 < s.oCh.toNat then s.f else s.f + 1
    c := if s.c + 1 < s.oCh.toNat then s.c + 1 else 0 }

/-- The result of the position waits for its write, and one draw of a free value is used up (42_float_kernels.md R182). -/
def State.holdResult (s : State) (out : Word) : State := { s with out := some out, draws := s.draws + 1 }

/-- No result waits. -/
def State.dropResult (s : State) : State := { s with out := none }

/-- Frame 0, channel `C` (40_transform.md R117): `PRV[C] <- zext_64(ElemRead(C)); PV[C] <- 1`. Nothing is written to
memory. -/
def loadPosition (w : Nat) (s : State) : Host.Outcome State Fault Refusal :=
  elemRead w (posIndex s) s fun raw s₁ => .next (s₁.putPrv s.c raw).advance

/-- The read of a position with `F ≥ 1` (40_transform.md R118): read the sample, compute, update `PRV[C]` with the RAW sample;
the result waits for its write. `kern` is the kernel's function of the gain pattern, the raw sample and the previous raw
sample; `none` says that the gain is not finite in the kernel's compute type (R113). -/
def readPosition (w : Nat) (kern : Word → Word → Word → Option Word) (s : State) : Host.Outcome State Fault Refusal :=
  elemRead w (posIndex s) s fun raw s₁ =>
    match kern s.oGain raw (prvEntry s s.c) with
    | none => .next (s₁.raiseTransform .badGain)
    | some out => .next ((s₁.putPrv s.c raw).holdResult out)

/-- The write of a position with `F ≥ 1` (40_transform.md R118): the waiting result goes to memory and the position moves
on. -/
def writePosition (w : Nat) (out : Word) (s : State) : Host.Outcome State Fault Refusal :=
  elemWrite w (posIndex s) out s fun s₁ => .next s₁.dropResult.advance

/-- One step of a kernel: the write that waits, the end of the command when `F = NF` (R119), a frame-0 load when `F = 0`
(R117), else the read of a position (R118). With no `TRANSFORM` in flight there is no position, and nothing changes (log
entry 12). -/
def walkStep (w : Nat) (kern : Word → Word → Word → Option Word) (s : State) : Host.Outcome State Fault Refusal :=
  if s.busy = false then .next s
  else
    match s.out with
    | some out => writePosition w out s
    | none =>
      if frames s w ≤ s.f then .next s.finishTransform
      else if s.f = 0 then loadPosition w s
      else readPosition w kern s

end Sys2Proof.Machine
end

