-- ==== Sys2Proof/Machine/FloatKernels.lean ====
section
/-! DEFINITION. The two floating-point kernels (42_float_kernels.md). -/

namespace Sys2Proof.Machine

/-- The value `r` of R177: three separately rounded operations, no fused multiply-add. -/
def floatSum (t : Fmt) (gk raw prv : FVal) : FVal := fadd t raw (fmul t gk (fsub t raw prv))

/-- `fkern_T(GK, raw, prv)` (R177), with the free bits of the NaN that may come out (R182). -/
def fkern (t : Fmt) (free : Word) (gk : FVal) (raw prv : Word) : Word :=
  fencode t free (fclamp t (floatSum t gk (fdecode t raw) (fdecode t prv)))

/-- The function of `K_F32` on words (R178). -/
def kernF32 (free gain raw prv : Word) : Option Word := (gainF32 gain).map fun gk => fkern binary32 free gk raw prv

/-- The function of `K_F64` on words (R179). -/
def kernF64 (free gain raw prv : Word) : Option Word := (gainF64 gain).map fun gk => fkern binary64 free gk raw prv

/-- `K_F32` (R178). -/
def execKF32 (s : State) : Host.Outcome State Fault Refusal := walkStep 4 (kernF32 (Config.freeNaN s.draws)) s

/-- `K_F64` (R179). -/
def execKF64 (s : State) : Host.Outcome State Fault Refusal := walkStep 8 (kernF64 (Config.freeNaN s.draws)) s

end Sys2Proof.Machine
end

