-- ==== Sys2Proof/Machine/IntKernels.lean ====
section
/-! DEFINITION. The eight integer kernels (41_int_kernels.md). -/

namespace Sys2Proof.Machine

/-- The product of R142, rounded once to the 113 bits of binary128 (R141). -/
def intProduct (g : Dyad) (cur pv : Int) : Dyad := rne 113 (dyadMul g (dyadOfInt (cur - pv)))

/-- The sum of R142, rounded once. -/
def intSum (g : Dyad) (cur pv : Int) : Dyad := rne 113 (dyadAdd (dyadOfInt cur) (intProduct g cur pv))

/-- The clamp and the narrowing toward zero of R142 and R145. -/
def narrow (n : Nat) (signed : Bool) (r : Dyad) : BitVec n :=
  BitVec.ofInt n (dyadTrunc (clampQ r (dyadOfInt (minSample n signed)) (dyadOfInt (maxSample n signed))))

/-- `ikern_K(GK, raw, prv)` (R142) of the kernel with `n` bits. -/
def ikern (n : Nat) (signed : Bool) (g : Dyad) (raw prv : BitVec n) : BitVec n :=
  narrow n signed (intSum g (sampleVal signed raw) (sampleVal signed prv))

/-- The kernel's function on 64-bit words: the low `n` bits of the sample words, the result zero-extended (10_state.md R28). -/
def kernInt (n : Nat) (signed : Bool) (gain raw prv : Word) : Option Word :=
  (gainExact gain).map fun g => (ikern n signed g (raw.setWidth n) (prv.setWidth n)).setWidth 64

/-- `K_U8` (R146). -/
def execKU8 (s : State) : Host.Outcome State Fault Refusal := walkStep 1 (kernInt 8 false) s

/-- `K_S8` (R147). -/
def execKS8 (s : State) : Host.Outcome State Fault Refusal := walkStep 1 (kernInt 8 true) s

/-- `K_U16` (R148). -/
def execKU16 (s : State) : Host.Outcome State Fault Refusal := walkStep 2 (kernInt 16 false) s

/-- `K_S16` (R149). -/
def execKS16 (s : State) : Host.Outcome State Fault Refusal := walkStep 2 (kernInt 16 true) s

/-- `K_U32` (R150). -/
def execKU32 (s : State) : Host.Outcome State Fault Refusal := walkStep 4 (kernInt 32 false) s

/-- `K_S32` (R151). -/
def execKS32 (s : State) : Host.Outcome State Fault Refusal := walkStep 4 (kernInt 32 true) s

/-- `K_U64` (R152). -/
def execKU64 (s : State) : Host.Outcome State Fault Refusal := walkStep 8 (kernInt 64 false) s

/-- `K_S64` (R153). -/
def execKS64 (s : State) : Host.Outcome State Fault Refusal := walkStep 8 (kernInt 64 true) s

end Sys2Proof.Machine
end

