-- ==== Sys2Proof/Machine/Dispatch.lean ====
section
/-! DEFINITION. One arm per instruction. -/

namespace Sys2Proof.Machine

def exec (i : Instr) (s : State) : Host.Outcome State Fault Refusal :=
  match i with
  | .resolve d => Sys2Proof.Machine.execResolve d s
  | .transform ch buf len gain => Sys2Proof.Machine.execTransform ch buf len gain s
  | .kU8 => Sys2Proof.Machine.execKU8 s
  | .kS8 => Sys2Proof.Machine.execKS8 s
  | .kU16 => Sys2Proof.Machine.execKU16 s
  | .kS16 => Sys2Proof.Machine.execKS16 s
  | .kU32 => Sys2Proof.Machine.execKU32 s
  | .kS32 => Sys2Proof.Machine.execKS32 s
  | .kU64 => Sys2Proof.Machine.execKU64 s
  | .kS64 => Sys2Proof.Machine.execKS64 s
  | .kF32 => Sys2Proof.Machine.execKF32 s
  | .kF64 => Sys2Proof.Machine.execKF64 s

end Sys2Proof.Machine
end

