-- ==== Sys2Proof/Machine/Sequence.lean ====
section
/-! DEFINITION. What a step does: the core's own next step, the acceptance of a command packet, and the host's events. The
block fetches no instructions (10_state.md R23): an idle core accepts the packet at the command port, and while `BUSY = 1` the
accepted packet is executed and then, for a `TRANSFORM`, the kernel that `KSEL` names (43_dispatch.md R198). -/

namespace Sys2Proof.Machine

/-- Execution of an accepted packet: the decoded command runs; an illegal packet changes nothing and is answered with
`IllegalCommand`, its `OP` echoed (30_encoding.md R85, 60_exceptions.md R214). -/
def runPacket (p : Packet) (s : State) : Host.Outcome State Fault Refusal :=
  match decodePacket p with
  | some i => exec i s
  | none => .next (s.raise (p.w0.extractLsb' 0 4) .illegalCommand 0)

/-- Acceptance of a packet by an idle core: `BUSY <- 1` (10_state.md R31). Its execution is a step of its own, so that a reset
can land between the two (70_reset_and_hazards.md R242; log entry 23). -/
def State.accept (s : State) (p : Packet) : State := { s with busy := true, cmd := some p }

/-- The accepted packet is taken up for execution. -/
def State.takeCmd (s : State) : State := { s with cmd := none }

/-- One step of the core by itself. While `BUSY = 1` the accepted packet is executed, or, once a `TRANSFORM` has begun, the
kernel that `KSEL` names runs (43_dispatch.md R198); an idle core keeps its state (60_exceptions.md R233;
log entries 18 and 24). A walk with no
kernel cannot arise (`State.Inv`); it ends with `NotResolved`, the fault of an unresolved core (log entry 12). -/
def coreStep (s : State) : Host.Outcome State Fault Refusal :=
  if s.busy then
    match s.cmd, s.ksel with
    | some p, _ => runPacket p s.takeCmd
    | none, some k => exec k.instr s
    | none, none => .next (s.raiseTransform .notResolved)
  else .next s

/-- The number of bytes of the processed region (20_memory.md R51: offset `NF * O_CH * w`). -/
def processedBytes (s : State) : Nat :=
  match s.ksel with
  | some k => frames s (elemBytes k) * s.oCh.toNat * elemBytes k
  | none => 0

/-- The state that holds the latches of the `TRANSFORM` in flight: of a walk, the state itself; of an accepted packet that is
not executed yet, the state after its start, when its checks will pass. A `RESOLVE`, an illegal packet and a `TRANSFORM` that
will be refused have no region. -/
def inFlight (s : State) : Option State :=
  if s.busy then
    match s.cmd with
    | none => some s
    | some p =>
      match decodePacket p with
      | some (.transform ch buf len gain) =>
        if failedCheck (s.latch ch buf len gain) = none then some (s.latch ch buf len gain) else none
      | _ => none
  else none

/-- Do `n` bytes at `a` meet the processed region of a `TRANSFORM` in flight (70_reset_and_hazards.md R246)? -/
def touchesTransform (s : State) (a n : Nat) : Bool :=
  (inFlight s).any fun t =>
    decide (t.oBuf.toNat < a + n ∧ a < t.oBuf.toNat + processedBytes t ∧ 0 < n ∧ 0 < processedBytes t)

/-- A store by the host or another agent. Bytes past the end of the address space have no memory to go to (10_state.md
R33; log entry 17). The bytes land in memory whatever the platform's regions say: DESIGN CHOICE, unsafe, log entry 25. -/
def hostStore (s : State) (a : Nat) (bs : List Byte) : Host.Outcome State Fault Refusal :=
  if touchesTransform s a bs.length then .refused .dataRace
  else .next (s.storeBytes a (bs.take (2 ^ s.cfg.aw - a)))

/-- A load by the host or another agent changes nothing here, in whichever region it falls (log entry 25). -/
def hostLoad (s : State) (a n : Nat) : Host.Outcome State Fault Refusal :=
  if touchesTransform s a n then .refused .dataRace else .next s

/-- Replace what the outside does next. -/
def State.withHost (s : State) (es : List HostEvent) : State := { s with host := es }

/-- Replace the platform's regions. -/
def State.withRegions (s : State) (rs : List Region) : State := { s with regions := rs }

/-- One step of the machine: the next event of the outside, or a step of the core. A packet waits at the port while
`BUSY = 1` (10_state.md R31); reset acts at any time (70_reset_and_hazards.md R254). -/
def machineStep (s : State) : Host.Outcome State Fault Refusal :=
  match s.host with
  | [] => coreStep s
  | .command p :: rest => if s.busy then coreStep s else .next ((s.withHost rest).accept p)
  | .reset :: rest => .next (s.withHost rest).applyReset
  | .store a bs :: rest => hostStore (s.withHost rest) a bs
  | .load a n :: rest => hostLoad (s.withHost rest) a n
  | .platform rs :: rest => .next ((s.withHost rest).withRegions rs)
  | .wait 0 :: rest => .next (s.withHost rest)
  | .wait (n + 1) :: rest => coreStep (s.withHost (.wait n :: rest))

/-- A word of the opcode table placed where the next step runs it, with no event of the outside before it. A command is the
accepted packet. A kernel row runs while a `TRANSFORM` is in flight, so the kernel is selected and a walk over a two-element buffer at
address 0 stands at its second element, with the first one in `PRV` (log entry 7). -/
def placeTableWord (s : State) (nbits w : Nat) : State :=
  match tableKernel nbits w with
  | some k =>
    { s with
      ds := true
      ksel := some k
      busy := true
      cmd := none
      oBuf := 0
      oLen := BitVec.ofNat 64 (2 * elemBytes k)
      oCh := 1
      oGain := 0
      f := 1
      c := 0
      out := none
      prv := [(0, 0)]
      host := [] }
  | none => { s with busy := true, cmd := some (packetOfBits (w % 2 ^ nbits)), host := [] }

end Sys2Proof.Machine
end

