-- ==== Sys2Proof/Safety.lean ====
section
/-! DEFINITION. The terms claims are stated in: the invariant of the machine, the state after one access, after a refused
command or after reset, the transform as a function on element sequences, the access sequence, and the spec's numeric functions
on the rationals. -/

namespace Sys2Proof.Machine

/-! ### The invariant -/

/-- How many channels have a valid `PRV` entry at the position of a `TRANSFORM` in flight (10_state.md R29, 40_transform.md
R117): during frame 0 those already loaded, after it all of them. -/
def validChannels (s : State) : Nat := if s.f = 0 then s.c else s.oCh.toNat

/-- The walk of a `TRANSFORM` is in flight: the accepted packet has been executed and its checks have passed. -/
abbrev State.inWalk (s : State) : Prop := s.busy = true ∧ s.cmd = none

/-- What holds in every state a run reaches. -/
structure State.Inv (s : State) : Prop where
  /-- the parameters meet R9 -/
  config : s.cfg.Ok
  /-- memory is in canonical form -/
  memory : MemWf s.mem
  /-- memory lies below `2^AW` (10_state.md R33) -/
  memoryInside : ∀ x ∈ s.mem, x.1 < 2 ^ s.cfg.aw
  /-- `DS = 0 <-> KSEL = 0b1111` (10_state.md R41) -/
  selection : s.ds = s.ksel.isSome
  /-- the `PRV` file is in canonical form -/
  prvForm : SparseRising s.prv
  /-- an idle core holds no packet and no result -/
  idle : s.busy = false → s.cmd = none ∧ s.out = none
  /-- no `PRV` entry is valid and no result waits outside a walk (10_state.md R29) -/
  outside : ¬ s.inWalk → s.prv = [] ∧ s.out = none
  /-- a walk has passed its checks (40_transform.md R111) -/
  checked : s.inWalk → failedCheck s = none
  /-- the position of a walk lies in the buffer (10_state.md R23) -/
  position : ∀ k, s.inWalk → s.ksel = some k →
    s.f ≤ frames s (elemBytes k) ∧ s.c < s.oCh.toNat ∧ (s.f = frames s (elemBytes k) → s.c = 0)
  /-- exactly the loaded channels have a valid entry (10_state.md R29) -/
  prvValid : s.inWalk → ∀ ch, (sparseFind ch s.prv).isSome = decide (ch < validChannels s)
  /-- a valid entry is a zero-extended pattern of `8w` bits (10_state.md R28) -/
  prvNarrow : ∀ k, s.inWalk → s.ksel = some k → ∀ x ∈ s.prv, x.2.toNat < 2 ^ (8 * elemBytes k)
  /-- a result waits at a sharpened position only, and is a pattern of `8w` bits (40_transform.md R118) -/
  waiting : ∀ k v, s.inWalk → s.ksel = some k → s.out = some v →
    1 ≤ s.f ∧ s.f < frames s (elemBytes k) ∧ v.toNat < 2 ^ (8 * elemBytes k)

/-! ### One step -/

/-- The outside leaves the next step to the core, which makes it from `u`: there is no event, a packet waits at the port of a
core in flight, or the core has steps of its own left. -/
def coreTurn (s u : State) : Prop :=
  (s.host = [] ∧ u = s) ∨ (s.busy = true ∧ (∃ p rest, s.host = .command p :: rest) ∧ u = s) ∨
    ∃ n rest, s.host = .wait (n + 1) :: rest ∧ u = { s with host := .wait n :: rest }

/-- The walk stands at a position the kernel sharpens (`1 ≤ F < NF`), its read is to come, and the platform answers it. -/
def readDue (w : Nat) (s : State) : Prop :=
  s.busy = true ∧ s.out = none ∧ 1 ≤ s.f ∧ s.f < frames s w ∧
    portAnswer s .read (elemAddr s w (posIndex s)) w = .ok

/-- The result `out` waits for its write, and the platform answers it. -/
def writeDue (w : Nat) (out : Word) (s : State) : Prop :=
  s.busy = true ∧ s.out = some out ∧ portAnswer s .write (elemAddr s w (posIndex s)) w = .ok

/-- The state after the read of a position at which the kernel's result is `out` (40_transform.md R118): the raw sample is in
`PRV[C]` and the result waits. -/
def afterRead (w : Nat) (out : Word) (s : State) : State :=
  { s with
    prv := sparsePut s.c (elemAt s w (posIndex s)) s.prv
    accesses := s.accesses ++ [⟨.read, elemAddr s w (posIndex s), w⟩]
    out := some out
    draws := s.draws + 1 }

/-- The state after the write of a position (40_transform.md R118): the result is in memory and the position has moved on. -/
def afterWrite (w : Nat) (out : Word) (s : State) : State :=
  { s with
    mem := memPutBytes s.mem (elemAddr s w (posIndex s)) (splitBytes s.cfg.order w out)
    accesses := s.accesses ++ [⟨.write, elemAddr s w (posIndex s), w⟩]
    out := none
    f := if s.c + 1 < s.oCh.toNat then s.f else s.f + 1
    c := if s.c + 1 < s.oCh.toNat then s.c + 1 else 0 }

/-- The state after a `TRANSFORM` that a check refuses (40_transform.md R111, 60_exceptions.md R222): the operands are in the
latches, the response carries the fault, and the core is idle. -/
def afterRefusedTransform (ch : BitVec 32) (buf len gain : Word) (err : ErrCode) (s : State) : State :=
  { s with
    oBuf := buf
    oLen := len
    oCh := ch
    oGain := gain
    f := 0
    c := 0
    out := none
    busy := false
    prv := []
    responses := s.responses ++ [responseOf 2 err s.ds s.ksel buf] }

/-- The state after a `TRANSFORM` has started: the operands are in the latches, the position is (0, 0) with no result waiting,
and `BUSY = 1`. -/
def afterStartedTransform (ch : BitVec 32) (buf len gain : Word) (s : State) : State :=
  { s with oBuf := buf, oLen := len, oCh := ch, oGain := gain, f := 0, c := 0, out := none, busy := true }

/-- The state after reset, with no event of the outside left (70_reset_and_hazards.md R240, R242): the parameters, memory, the
platform and the model's own records and counter are as in `s`. -/
def afterReset (s : State) : State :=
  { State.reset with
    cfg := s.cfg
    mem := s.mem
    regions := s.regions
    responses := s.responses
    accesses := s.accesses
    draws := s.draws }

/-! ### The whole command -/

/-- The function `kern_K` of a kernel (40_transform.md R118) on the gain pattern, the raw sample and the previous raw sample,
at a draw; `none` when the gain is not finite in the kernel's compute type. -/
def kernelFn (k : Kernel) (draw : Nat) : Word → Word → Word → Option Word :=
  match k with
  | .u8 => kernInt 8 false
  | .s8 => kernInt 8 true
  | .u16 => kernInt 16 false
  | .s16 => kernInt 16 true
  | .u32 => kernInt 32 false
  | .s32 => kernInt 32 true
  | .u64 => kernInt 64 false
  | .s64 => kernInt 64 true
  | .f32 => kernF32 (Config.freeNaN draw)
  | .f64 => kernF64 (Config.freeNaN draw)

/-- The transform as a function on element sequences (40_transform.md R122), for `n` channels and `nf` frames; `draw` is the
draw of the first position. -/
def sharpened (k : Kernel) (draw : Nat) (gain : Word) (n nf : Nat) (x : Nat → Word) (i : Nat) : Word :=
  if i < n then x i
  else if i < nf * n then (kernelFn k (draw + (i - n)) gain (x i) (x (i - n))).getD (x i)
  else x i

/-- The access sequence of a `TRANSFORM` (20_memory.md R64): `R(0), ..., R(n-1)`, then `R(i), W(i)` for `n ≤ i < nf*n`; none
when there is no full frame. -/
def accessSequence (buf w n nf : Nat) : List Access :=
  if nf = 0 then []
  else
    (List.range n).map (fun i => ⟨.read, buf + i * w, w⟩) ++
      (List.range ((nf - 1) * n)).flatMap
        (fun j => [⟨.read, buf + (n + j) * w, w⟩, ⟨.write, buf + (n + j) * w, w⟩])

/-- Every access of the walk is answered: no region of the platform that is not ordinary memory meets the buffer. -/
def bufferOrdinary (s : State) (buf len : Word) : Prop :=
  ∀ r ∈ s.regions, r.meets buf.toNat len.toNat = false

/-! ### The numeric functions of the spec, on the rationals (00_scope.md R14) -/

/-- The value of a dyadic number. -/
def dyadRat (x : Dyad) : ℚ := (x.m : ℚ) * (2 : ℚ) ^ x.e

/-- `rint_even(y)`: the nearest integer, the even one of two that are equally near. -/
def ratRintEven (y : ℚ) : ℤ :=
  if y - ⌊y⌋ < 1 / 2 then ⌊y⌋
  else if 1 / 2 < y - ⌊y⌋ then ⌊y⌋ + 1
  else if ⌊y⌋ % 2 = 0 then ⌊y⌋
  else ⌊y⌋ + 1

/-- `rne_p(x)`. -/
def ratRne (p : Nat) (x : ℚ) : ℚ :=
  if x = 0 then 0
  else (2 : ℚ) ^ (Int.log 2 |x| - p + 1) * ratRintEven (x / (2 : ℚ) ^ (Int.log 2 |x| - p + 1))

/-- `trunc(x)`. -/
def ratTrunc (x : ℚ) : ℤ := if 0 ≤ x then ⌊x⌋ else ⌈x⌉

/-- `clampQ(x, lo, hi)`. -/
def ratClamp (x lo hi : ℚ) : ℚ := if x < lo then lo else if hi < x then hi else x

/-- `ikern_K` (41_int_kernels.md R142) in rational arithmetic with two calls of `rne_113`. -/
def ratKernel (n : Nat) (signed : Bool) (g : ℚ) (raw prv : BitVec n) : BitVec n :=
  let cur := sampleVal signed raw
  let pv := sampleVal signed prv
  let d := cur - pv
  let p := ratRne 113 (g * d)
  let r := ratRne 113 (cur + p)
  let s := ratClamp r (minSample n signed) (maxSample n signed)
  BitVec.ofInt n (ratTrunc s)

/-- `ikern_K` with no rounding at all (41_int_kernels.md R154). -/
def ratKernelExact (n : Nat) (signed : Bool) (g : ℚ) (raw prv : BitVec n) : BitVec n :=
  let cur := sampleVal signed raw
  let pv := sampleVal signed prv
  BitVec.ofInt n (ratTrunc (ratClamp (cur + g * (cur - pv)) (minSample n signed) (maxSample n signed)))

/-- `round_T(x, zs)` (42_float_kernels.md R173) of a rational number. -/
def ratRound (t : Fmt) (x : ℚ) (zs : Bool) : FVal :=
  if x = 0 then .fin zs 0 (fmtEmin t - t.fw)
  else
    let e := max (Int.log 2 |x|) (fmtEmin t)
    let m := ratRintEven (|x| / (2 : ℚ) ^ (e - fmtPrec t + 1))
    let m' := if m = 2 ^ fmtPrec t then 2 ^ (fmtPrec t - 1) else m
    let e' := if m = 2 ^ fmtPrec t then e + 1 else e
    if fmtEmax t < e' then .inf (decide (x < 0))
    else .fin (decide (x < 0)) m'.toNat (e' - fmtPrec t + 1)

/-- The value of a finite datum. -/
def finRat (sg : Bool) (m : Nat) (e : Int) : ℚ := dyadRat (finDyad sg m e)

/-- The zero of a format with a sign. -/
def zeroOf (t : Fmt) (sg : Bool) : FVal := .fin sg 0 (fmtEmin t - t.fw)

/-- `fadd_T` (42_float_kernels.md R174) by the rule's table, on exact rational sums. -/
def ratFadd (t : Fmt) : FVal → FVal → FVal
  | .nan, _ => .nan
  | _, .nan => .nan
  | .inf sa, .inf sb => if sa = sb then .inf sa else .nan
  | .inf sa, .fin _ _ _ => .inf sa
  | .fin _ _ _, .inf sb => .inf sb
  | .fin sa ma ea, .fin sb mb eb =>
    if finRat sa ma ea + finRat sb mb eb ≠ 0 then ratRound t (finRat sa ma ea + finRat sb mb eb) false
    else if ma = 0 ∧ mb = 0 ∧ sa = sb then zeroOf t sa
    else zeroOf t false

/-- `fsub_T` (42_float_kernels.md R174). -/
def ratFsub (t : Fmt) (a b : FVal) : FVal := ratFadd t a (fneg b)

/-- `fmul_T` (42_float_kernels.md R175) by the rule's table, on exact rational products. -/
def ratFmul (t : Fmt) : FVal → FVal → FVal
  | .nan, _ => .nan
  | _, .nan => .nan
  | .inf sa, .inf sb => .inf (sa ^^ sb)
  | .inf sa, .fin sb mb eb => if finRat sb mb eb = 0 then .nan else .inf (sa ^^ sb)
  | .fin sa ma ea, .inf sb => if finRat sa ma ea = 0 then .nan else .inf (sa ^^ sb)
  | .fin sa ma ea, .fin sb mb eb => ratRound t (finRat sa ma ea * finRat sb mb eb) (sa ^^ sb)

/-- `fclamp_T` (42_float_kernels.md R176) by comparison of rational numbers. -/
def ratFclamp (t : Fmt) : FVal → FVal
  | .nan => .nan
  | .inf sg => fmaxFinite t sg
  | .fin sg m e =>
    let bound := finRat false (2 ^ fmtPrec t - 1) (fmtEmax t - t.fw)
    if finRat sg m e < -bound then fmaxFinite t true
    else if bound < finRat sg m e then fmaxFinite t false
    else .fin sg m e

/-- The value `r` of 42_float_kernels.md R177 in rational arithmetic: three operations, each rounded. -/
def ratFloatSum (t : Fmt) (gk raw prv : FVal) : FVal :=
  let d := ratFsub t raw prv
  let p := ratFmul t gk d
  ratFadd t raw p

end Sys2Proof.Machine
end

