-- ==== Sys2Proof/Certificates/Slice0/Obligations.lean ====
section
/-! DEFINITION. The statements about the Delta core, each from the rules of spec/. -/

open Sys2Proof Sys2Proof.Machine

/-! ### Encodings -/

/-- 30_encoding.md R105: every row of its two tables, encoded and decoded. -/
def Obligations.WorkedEncodings : Prop :=
  (∀ x ∈ ([ (.resolve ⟨8, true, false, false, 0, 1⟩, ⟨0x1, 0x0000000100000108, 0, 0⟩),
            (.resolve ⟨16, true, true, true, 0, 2⟩, ⟨0x1, 0x0000000200000710, 0, 0⟩),
            (.resolve ⟨32, false, false, false, 0, 2⟩, ⟨0x1, 0x0000000200000020, 0, 0⟩),
            (.resolve ⟨24, true, true, false, 0, 1⟩, ⟨0x1, 0x0000000100000318, 0, 0⟩),
            (.transform 1 0x1000 4 0x3FF0000000000000, ⟨0x0000000100000002, 0x1000, 0x4, 0x3FF0000000000000⟩),
            (.transform 2 0x2000 16 0x3FF8000000000000, ⟨0x0000000200000002, 0x2000, 0x10, 0x3FF8000000000000⟩) ] :
            List (Instr × Packet)),
      encodePacket x.1 = some x.2 ∧ decodePacket x.2 = some x.1) ∧
  responseOf 1 .ok true (some .u8) 0 = ⟨0x0000000000000101, 0⟩ ∧
  responseOf 1 .ok true (some .s16) 0 = ⟨0x0000000000005101, 0⟩ ∧
  responseOf 1 .ok true (some .f32) 0 = ⟨0x000000000000A101, 0⟩ ∧
  responseOf 1 .unsupportedFormat false none 0 = ⟨0x000000000000F011, 0⟩ ∧
  responseOf 2 .ok true (some .u8) 0x1000 = ⟨0x0000000000000102, 0x1000⟩ ∧
  responseOf 2 .notResolved false none 0x1000 = ⟨0x000000000000F022, 0x1000⟩ ∧
  responseOf 7 .illegalCommand true (some .u8) 0 = ⟨0x0000000000000137, 0⟩

/-- 30_encoding.md sections 2 and 3: a command is encoded by exactly one packet, and a legal packet is the encoding of exactly
one command. No bit of an operand is dropped. -/
def Obligations.CommandsDecodeBack : Prop :=
  (∀ i p, encodePacket i = some p → decodePacket p = some i) ∧
  (∀ p i, decodePacket p = some i → encodePacket i = some p) ∧
  ∀ i : Instr, (encodePacket i).isSome = i.fitsPacket

/-- 30_encoding.md section 3: a kernel row decodes back from its descriptor word, and only kernel rows are read from
descriptor words. -/
def Obligations.KernelRowsDecodeBack : Prop :=
  (∀ i fd, encodeDescriptor i = some fd → decodeDescriptor fd = some i) ∧
  (∀ fd i, decodeDescriptor fd = some i → i.fitsDescriptor = true) ∧
  ∀ i : Instr, (encodeDescriptor i).isSome = i.fitsDescriptor

/-- 30_encoding.md R87: the fields of the descriptor word; the fields give the word back. -/
def Obligations.DescriptorFields : Prop :=
  (∀ fd : Word,
    (Descriptor.ofWord fd).bw.toNat = fd.toNat % 256 ∧
    ((Descriptor.ofWord fd).int = true ↔ fd.getLsbD 8 = true) ∧
    ((Descriptor.ofWord fd).sgn = true ↔ fd.getLsbD 9 = true) ∧
    ((Descriptor.ofWord fd).be = true ↔ fd.getLsbD 10 = true) ∧
    (Descriptor.ofWord fd).ch.toNat = fd.toNat / 2 ^ 32) ∧
  (∀ fd : Word, (Descriptor.ofWord fd).toWord = fd) ∧
  ∀ d : Descriptor, Descriptor.ofWord d.toWord = d

/-- 30_encoding.md R85: which packets are illegal, and what the core does with one: it takes the packet from the port, and in
the step after its acceptance (log entry 23) it is answered and everything is as before. That the latches and the position
keep their last values outside a walk is the model's (log entry 24). -/
def Obligations.IllegalPacketsExactly : Prop :=
  (∀ p, decodePacket p = none ↔
    (p.w0.toNat % 16 ≠ 1 ∧ p.w0.toNat % 16 ≠ 2) ∨ p.w0.toNat / 16 % 2 ^ 28 ≠ 0 ∨
      (p.w0.toNat % 16 = 1 ∧ (p.w0.toNat / 2 ^ 32 ≠ 0 ∨ p.w2 ≠ 0 ∨ p.w3 ≠ 0))) ∧
  (∀ s u p, s.Inv → coreTurn s u → s.busy = true → s.cmd = some p → decodePacket p = none →
    step s = .next { u with
      busy := false
      cmd := none
      responses := s.responses ++ [responseOf (p.w0.extractLsb' 0 4) .illegalCommand s.ds s.ksel 0] }) ∧
  ∀ s p, s.Inv → s.busy = false → s.host = [.command p] → decodePacket p = none →
    Host.Core.run Sys2Proof.core 2 s = .next { s with
      host := []
      responses := s.responses ++ [responseOf (p.w0.extractLsb' 0 4) .illegalCommand s.ds s.ksel 0] }

/-- 30_encoding.md R88: `sel` is the match/mask table; its rows exclude each other, mask `BE` out of every row and `SGN` out of
the two floating-point rows only. -/
def Obligations.SelectionIsTheMaskTable : Prop :=
  (∀ (fd : Word) (r : KernelRow), r ∈ kernelTable → r.hits (fd.setWidth 32) = true →
    sel (Descriptor.ofWord fd) = some r.kernel) ∧
  (∀ fd : Word, (∀ r ∈ kernelTable, r.hits (fd.setWidth 32) = false) → sel (Descriptor.ofWord fd) = none) ∧
  (∀ (low : BitVec 32) (r r' : KernelRow), r ∈ kernelTable → r' ∈ kernelTable → r.hits low = true → r'.hits low = true →
    r = r') ∧
  ∀ r ∈ kernelTable, r.mask.getLsbD 10 = false ∧ (r.mask.getLsbD 9 = false ↔ r.kernel = .f32 ∨ r.kernel = .f64)

/-- 43_dispatch.md section 3: how many descriptor words resolve, that reserved bits make every one fail, that `FD[63:32]` never
matters, and that every kernel is selected by some descriptor. -/
def Obligations.ResolvableDescriptors : Prop :=
  ((List.range (2 ^ 11)).filter fun v => (sel (Descriptor.ofWord (BitVec.ofNat 64 v))).isSome).length = 24 ∧
  (∀ fd : Word, fd.toNat / 2 ^ 11 % 2 ^ 21 ≠ 0 → sel (Descriptor.ofWord fd) = none) ∧
  (∀ fd fd' : Word, fd.toNat % 2 ^ 32 = fd'.toNat % 2 ^ 32 →
    sel (Descriptor.ofWord fd) = sel (Descriptor.ofWord fd')) ∧
  ∀ k : Kernel, ∃ fd : Word, sel (Descriptor.ofWord fd) = some k

/-- 30_encoding.md R90: the bits of the kernel code, from the descriptor that selects it. -/
def Obligations.KernelCodeBits : Prop :=
  (∀ d k, sel d = some k →
    (kernelCode k).getLsbD 3 = !d.int ∧
    (kernelCode k).getLsbD 2 = (d.sgn && d.int) ∧
    8 * 2 ^ ((kernelCode k).toNat % 4) = d.bw.toNat ∧
    elemBytes k = 2 ^ ((kernelCode k).toNat % 4)) ∧
  kselCode none = 0b1111 ∧
  ∀ a b : Option Kernel, kselCode a = kselCode b → a = b

/-- 20_memory.md R54: the element size of each kernel, and from the kernel code. -/
def Obligations.ElementSizes : Prop :=
  elemBytes .u8 = 1 ∧ elemBytes .s8 = 1 ∧ elemBytes .u16 = 2 ∧ elemBytes .s16 = 2 ∧ elemBytes .u32 = 4 ∧
  elemBytes .s32 = 4 ∧ elemBytes .f32 = 4 ∧ elemBytes .u64 = 8 ∧ elemBytes .s64 = 8 ∧ elemBytes .f64 = 8 ∧
  ∀ k, elemBytes k = 2 ^ ((kernelCode k).toNat % 4)

/-- 30_encoding.md section 5: the fields of the response words, and that the reserved bits are zero. -/
def Obligations.ResponseFields : Prop :=
  ∀ op err res ksel info,
    let r := responseOf op err res ksel info
    responseOp r = op ∧ responseErr r = errBits err ∧ responseRes r = res ∧ responseKsel r = kselCode ksel ∧
      r.q1 = info ∧ r.q0.toNat < 2 ^ 16 ∧ r.q0.toNat / 2 ^ 9 % 8 = 0 ∧ (errBits err).toNat < 10

/-! ### The dispatcher -/

/-- 43_dispatch.md section 2: `RESOLVE` of a supported format caches the kernel and answers `OK`; nothing else changes. That
the latches and the position keep their last values outside a walk is the model's (log entry 24). -/
def Obligations.ResolveCachesKernel : Prop :=
  ∀ d k s, sel d = some k →
    exec (.resolve d) s = .next { s with
      ds := true
      ksel := some k
      busy := false
      responses := s.responses ++ [responseOf 1 .ok true (some k) 0] }

/-- 60_exceptions.md sections 1 and 3: a failing `RESOLVE` discards the selection and answers `UnsupportedFormat`; the core
stays operational. That no result waits after it is about the model's field (log entry 2). That the latches and the position
keep their last values outside a walk is the model's (log entry 24). -/
def Obligations.ResolveFailureDiscardsSelection : Prop :=
  ∀ d s, sel d = none →
    exec (.resolve d) s = .next { s with
      ds := false
      ksel := none
      prv := []
      out := none
      busy := false
      responses := s.responses ++ [responseOf 1 .unsupportedFormat false none 0] }

/-- 43_dispatch.md R197: the same descriptor twice leaves the state of once, each issue is answered, and the outcome depends on
the descriptor only. -/
def Obligations.ResolveIsIdempotent : Prop :=
  (∀ d s t u, exec (.resolve d) s = .next t → exec (.resolve d) t = .next u →
    ∃ r, t.responses = s.responses ++ [r] ∧ u = { t with responses := t.responses ++ [r] }) ∧
  ∀ d s s' t t', exec (.resolve d) s = .next t → exec (.resolve d) s' = .next t' → t.ds = t'.ds ∧ t.ksel = t'.ksel

/-- 43_dispatch.md section 4: `RESOLVE` reads neither `BE` nor `CH`, and `SGN` of an integer format only. -/
def Obligations.ResolveIgnoresFields : Prop :=
  ∀ (d : Descriptor) (be sgn : Bool) (ch : BitVec 32) (s : State),
    exec (.resolve { d with be := be, ch := ch }) s = exec (.resolve d) s ∧
    (d.int = false → exec (.resolve { d with sgn := sgn }) s = exec (.resolve d) s)

/-! ### TRANSFORM: checks and acceptance -/

/-- 60_exceptions.md sections 1 and 3: on an unresolved core `TRANSFORM` answers `NotResolved` with the buffer address, and leaves
`DS`, `KSEL` and memory alone; the core takes the next command. The record of accesses is the model's (log entry 13). -/
def Obligations.TransformNeedsResolve : Prop :=
  ∀ ch buf len gain s, s.ds = false →
    ∃ t, exec (.transform ch buf len gain) s = .next t ∧
      t.responses = s.responses ++ [responseOf 2 .notResolved s.ds s.ksel buf] ∧
      t.ds = s.ds ∧ t.ksel = s.ksel ∧ t.mem = s.mem ∧ t.accesses = s.accesses ∧ t.busy = false

/-- 40_transform.md section 2: the checks in their fixed order, each with its fault, on the state as a whole. What the latches
then hold is the model's (log entry 21). -/
def Obligations.TransformChecksInOrder : Prop :=
  ∀ (ch : BitVec 32) (buf len gain : Word) (s : State),
    let refused := fun e => exec (.transform ch buf len gain) s = .next (afterRefusedTransform ch buf len gain e s)
    (s.ds = false → refused .notResolved) ∧
    ∀ k, s.ds = true → s.ksel = some k →
      (ch = 0 → refused .zeroChannels) ∧
      (ch ≠ 0 → s.cfg.maxCh < ch.toNat → refused .channelRange) ∧
      (ch ≠ 0 → ch.toNat ≤ s.cfg.maxCh → gainOk k gain = false → refused .badGain) ∧
      (ch ≠ 0 → ch.toNat ≤ s.cfg.maxCh → gainOk k gain = true → buf.toNat % elemBytes k ≠ 0 → refused .bufUnaligned) ∧
      (ch ≠ 0 → ch.toNat ≤ s.cfg.maxCh → gainOk k gain = true → buf.toNat % elemBytes k = 0 →
        2 ^ s.cfg.aw < buf.toNat + len.toNat → refused .bufRange) ∧
      (s.cfg.maxCh = 2 ^ 32 - 1 → ch.toNat ≤ s.cfg.maxCh)

/-- 40_transform.md section 2, 42_float_kernels.md section 3: which gains check 4 refuses: the all-ones exponents, and for
`K_F32` also the magnitudes from the pattern `0x47EFFFFFF0000000` on. -/
def Obligations.BadGainPatterns : Prop :=
  ∀ k (g : Word), gainOk k g = false ↔
    (g.toNat / 2 ^ 52 % 2 ^ 11 = 0x7FF ∨ (k = .f32 ∧ 0x47EFFFFFF0000000 ≤ g.toNat % 2 ^ 63))

/-- 40_transform.md section 1: when every check passes, `TRANSFORM` latches its operands and the walk stands at (0, 0). That no
result waits is about the model's field of log entry 2; that start and acceptance are two steps is log entry 23. -/
def Obligations.TransformStartsWalk : Prop :=
  ∀ (ch : BitVec 32) (buf len gain : Word) (s : State) k, s.ds = true → s.ksel = some k → ch ≠ 0 →
    ch.toNat ≤ s.cfg.maxCh → gainOk k gain = true → buf.toNat % elemBytes k = 0 →
    buf.toNat + len.toNat ≤ 2 ^ s.cfg.aw →
    exec (.transform ch buf len gain) s = .next (afterStartedTransform ch buf len gain s)

/-! ### The walk -/

/-- 40_transform.md section 3: the frame-0 load of every kernel, channel after channel; nothing is written to memory, and with no
full frame there is no access at all. No result waits at a frame-0 position (`StepKeepsInvariant`). That the load and the move of
the position are one step is the model's (log entry 2), and so is the record of accesses (log entry 13). -/
def Obligations.FrameZeroIsLoaded : Prop :=
  ∀ (k : Kernel) (s : State), s.busy = true → s.out = none →
    (s.f = 0 → 1 ≤ frames s (elemBytes k) →
      portAnswer s .read (s.oBuf.toNat + s.c * elemBytes k) (elemBytes k) = .ok →
      exec k.instr s = .next { s with
        prv := sparsePut s.c
          (assemble s.cfg.order (memBytes s.mem (s.oBuf.toNat + s.c * elemBytes k) (elemBytes k))) s.prv
        accesses := s.accesses ++ [⟨.read, s.oBuf.toNat + s.c * elemBytes k, elemBytes k⟩]
        f := if s.c + 1 < s.oCh.toNat then 0 else 1
        c := if s.c + 1 < s.oCh.toNat then s.c + 1 else 0 }) ∧
    (frames s (elemBytes k) = 0 → ∃ t, exec k.instr s = .next t ∧ t.accesses = s.accesses ∧ t.mem = s.mem)

/-- 41_int_kernels.md section 3, 40_transform.md section 3: one position of `K_U8` and of `K_S8`, its read and its write (log
entry 2). The record of accesses is log entry 13, the draw log entry 6. -/
def Obligations.EightBitPosition : Prop :=
  (∀ (s : State) (g : Dyad) (pv : Word), readDue 1 s → gainExact s.oGain = some g → sparseFind s.c s.prv = some pv →
    let raw : BitVec 8 := (elemAt s 1 (posIndex s)).setWidth 8
    exec .kU8 s = .next (afterRead 1 ((ikern 8 false g raw (pv.setWidth 8)).setWidth 64) s) ∧
    exec .kS8 s = .next (afterRead 1 ((ikern 8 true g raw (pv.setWidth 8)).setWidth 64) s)) ∧
  ∀ (s : State) (out : Word), writeDue 1 out s →
    exec .kU8 s = .next (afterWrite 1 out s) ∧ exec .kS8 s = .next (afterWrite 1 out s)

/-- One position of `K_U16` and of `K_S16`. Its two steps are log entry 2, the record of accesses log entry 13, the draw log entry 6. -/
def Obligations.SixteenBitPosition : Prop :=
  (∀ (s : State) (g : Dyad) (pv : Word), readDue 2 s → gainExact s.oGain = some g → sparseFind s.c s.prv = some pv →
    let raw : BitVec 16 := (elemAt s 2 (posIndex s)).setWidth 16
    exec .kU16 s = .next (afterRead 2 ((ikern 16 false g raw (pv.setWidth 16)).setWidth 64) s) ∧
    exec .kS16 s = .next (afterRead 2 ((ikern 16 true g raw (pv.setWidth 16)).setWidth 64) s)) ∧
  ∀ (s : State) (out : Word), writeDue 2 out s →
    exec .kU16 s = .next (afterWrite 2 out s) ∧ exec .kS16 s = .next (afterWrite 2 out s)

/-- One position of `K_U32` and of `K_S32`. Its two steps are log entry 2, the record of accesses log entry 13, the draw log entry 6. -/
def Obligations.ThirtyTwoBitPosition : Prop :=
  (∀ (s : State) (g : Dyad) (pv : Word), readDue 4 s → gainExact s.oGain = some g → sparseFind s.c s.prv = some pv →
    let raw : BitVec 32 := (elemAt s 4 (posIndex s)).setWidth 32
    exec .kU32 s = .next (afterRead 4 ((ikern 32 false g raw (pv.setWidth 32)).setWidth 64) s) ∧
    exec .kS32 s = .next (afterRead 4 ((ikern 32 true g raw (pv.setWidth 32)).setWidth 64) s)) ∧
  ∀ (s : State) (out : Word), writeDue 4 out s →
    exec .kU32 s = .next (afterWrite 4 out s) ∧ exec .kS32 s = .next (afterWrite 4 out s)

/-- One position of `K_U64` and of `K_S64`. Its two steps are log entry 2, the record of accesses log entry 13, the draw log entry 6. -/
def Obligations.SixtyFourBitPosition : Prop :=
  (∀ (s : State) (g : Dyad) (pv : Word), readDue 8 s → gainExact s.oGain = some g → sparseFind s.c s.prv = some pv →
    let raw : BitVec 64 := elemAt s 8 (posIndex s)
    exec .kU64 s = .next (afterRead 8 (ikern 64 false g raw pv) s) ∧
    exec .kS64 s = .next (afterRead 8 (ikern 64 true g raw pv) s)) ∧
  ∀ (s : State) (out : Word), writeDue 8 out s →
    exec .kU64 s = .next (afterWrite 8 out s) ∧ exec .kS64 s = .next (afterWrite 8 out s)

/-- 42_float_kernels.md section 3: one position of `K_F32` and of `K_F64`, its read and its write, for every value of the free
bits a NaN is drawn from. Its two steps are log entry 2, the record of accesses log entry 13, the draw log entry 6. -/
def Obligations.FloatPosition : Prop :=
  (∀ (s : State) (gk : FVal) (pv : Word), sparseFind s.c s.prv = some pv →
    (readDue 4 s → gainF32 s.oGain = some gk →
      exec .kF32 s = .next (afterRead 4
        (fkern binary32 (Config.freeNaN s.draws) gk (elemAt s 4 (posIndex s)) pv) s)) ∧
    (readDue 8 s → gainF64 s.oGain = some gk →
      exec .kF64 s = .next (afterRead 8
        (fkern binary64 (Config.freeNaN s.draws) gk (elemAt s 8 (posIndex s)) pv) s))) ∧
  ∀ (s : State) (out : Word),
    (writeDue 4 out s → exec .kF32 s = .next (afterWrite 4 out s)) ∧
    (writeDue 8 out s → exec .kF64 s = .next (afterWrite 8 out s))

/-- 40_transform.md section 3: after the last position every kernel ends the command: every `PV` is cleared, the response is
`OK` with the buffer address, and `BUSY` is 0. That no result waits is about the model's field of log entry 2. That the
latches and the position keep their last values outside a walk is the model's (log entry 24). -/
def Obligations.WalkEndsCommand : Prop :=
  ∀ (k : Kernel) (s : State), s.busy = true → s.out = none → frames s (elemBytes k) ≤ s.f →
    exec k.instr s = .next { s with
      prv := []
      busy := false
      responses := s.responses ++ [responseOf 2 .ok s.ds s.ksel s.oBuf] }

/-- 20_memory.md section 5: an access the platform answers with an error ends the command with `MemFault`. The failing access
is not performed: memory and the accesses are as they were, and a result that waited is dropped. The result that waits is log
entry 2, the record of accesses log entry 13. That the latches and the position keep their last values outside a walk is the
model's (log entry 24). -/
def Obligations.MemoryErrorEndsCommand : Prop :=
  ∀ (k : Kernel) (s : State), s.busy = true →
    let ended := { s with
        prv := []
        out := none
        busy := false
        responses := s.responses ++ [responseOf 2 .memFault s.ds s.ksel s.oBuf] }
    (s.out = none → s.f < frames s (elemBytes k) →
      portAnswer s .read (elemAddr s (elemBytes k) (posIndex s)) (elemBytes k) = .error →
      exec k.instr s = .next ended) ∧
    ∀ v, s.out = some v → portAnswer s .write (elemAddr s (elemBytes k) (posIndex s)) (elemBytes k) = .error →
      exec k.instr s = .next ended

/-- The frame of a kernel step, whichever way it goes on: memory outside the one element at the position, the selection, the
latches, the parameters, the platform and the host's events stay; with no result waiting it stores nothing; it makes at most
one access, of the kernel's size at the position; and the position stays but after a frame-0 load and a write. One access a
step is log entry 2, the record of accesses log entry 13, the packet held log entry 23, the events log entry 7. That the
latches and the position keep their last values outside a walk is the model's (log entry 24). -/
def Obligations.KernelStepFrame : Prop :=
  ∀ (k : Kernel) (s t : State), exec k.instr s = .next t →
    (∀ a, a < elemAddr s (elemBytes k) (posIndex s) ∨ elemAddr s (elemBytes k) (posIndex s) + elemBytes k ≤ a →
      memByte t.mem a = memByte s.mem a) ∧
    (s.out = none ∨ s.busy = false ∨ t.busy = false → t.mem = s.mem) ∧
    (t.accesses = s.accesses ∨ ∃ kd, t.accesses = s.accesses ++ [⟨kd, elemAddr s (elemBytes k) (posIndex s), elemBytes k⟩] ∧
      (kd = .write ↔ s.out.isSome = true)) ∧
    (∀ ch, ch ≠ s.c ∨ s.out.isSome = true → t.busy = true → sparseFind ch t.prv = sparseFind ch s.prv) ∧
    (t.f = s.f ∧ t.c = s.c ∨ s.f = 0 ∨ s.out.isSome = true) ∧
    t.ds = s.ds ∧ t.ksel = s.ksel ∧ t.cmd = s.cmd ∧ t.oBuf = s.oBuf ∧ t.oLen = s.oLen ∧ t.oCh = s.oCh ∧
    t.oGain = s.oGain ∧ t.cfg = s.cfg ∧ t.regions = s.regions ∧ t.host = s.host

/-- The frame of the two commands: neither touches memory, the port, the parameters, the platform or the host's events;
`RESOLVE` leaves the latches and the position, `TRANSFORM` leaves the selection. The record of accesses is log entry 13, the
draws log entry 6, the packet held log entry 23, the events log entry 7. That the latches and the position keep their last
values outside a walk is the model's (log entry 24). -/
def Obligations.CommandFrame : Prop :=
  (∀ d s t, exec (.resolve d) s = .next t →
    (∀ a, memByte t.mem a = memByte s.mem a) ∧ t.accesses = s.accesses ∧ t.cfg = s.cfg ∧ t.regions = s.regions ∧
      t.host = s.host ∧ t.cmd = s.cmd ∧ t.draws = s.draws ∧ t.oBuf = s.oBuf ∧ t.oLen = s.oLen ∧ t.oCh = s.oCh ∧
      t.oGain = s.oGain ∧ t.f = s.f ∧ t.c = s.c) ∧
  ∀ ch buf len gain s t, exec (.transform ch buf len gain) s = .next t →
    (∀ a, memByte t.mem a = memByte s.mem a) ∧ t.accesses = s.accesses ∧ t.cfg = s.cfg ∧ t.regions = s.regions ∧
      t.host = s.host ∧ t.cmd = s.cmd ∧ t.draws = s.draws ∧ t.ds = s.ds ∧ t.ksel = s.ksel

/-! ### The integer kernels -/

/-- 41_int_kernels.md R155: a zero gain of either sign makes the product zero and the sum the sample, and gives the sample
back. -/
def Obligations.ZeroGainKeepsIntegerSamples : Prop :=
  ∀ n ∈ [8, 16, 32, 64], ∀ (signed : Bool) (raw prv : BitVec n) (gain : Word),
    gain = 0x0000000000000000 ∨ gain = 0x8000000000000000 →
    ∃ g, gainExact gain = some g ∧
      dyadRat (intProduct g (sampleVal signed raw) (sampleVal signed prv)) = 0 ∧
      dyadRat (intSum g (sampleVal signed raw) (sampleVal signed prv)) = sampleVal signed raw ∧
      ikern n signed g raw prv = raw

/-- 41_int_kernels.md R156: equal samples pass unchanged, for every gain. -/
def Obligations.NoEdgeKeepsIntegerSamples : Prop :=
  ∀ n ∈ [8, 16, 32, 64], ∀ (signed : Bool) (raw : BitVec n) (g : Dyad),
    dyadRat (intProduct g (sampleVal signed raw) (sampleVal signed raw)) = 0 ∧
    dyadRat (intSum g (sampleVal signed raw) (sampleVal signed raw)) = sampleVal signed raw ∧
    ikern n signed g raw raw = raw

/-- 41_int_kernels.md section 4: for a gain of at least 0 the output moves away from the previous sample; gain 1 gives
`clamp(2*cur - pv)`; gain -1 gives the previous sample. -/
def Obligations.IntegerKernelDirection : Prop :=
  ∀ n ∈ [8, 16, 32, 64], ∀ (signed : Bool) (raw prv : BitVec n) (g : Dyad),
    let cur := sampleVal signed raw
    let pv := sampleVal signed prv
    let out := sampleVal signed (ikern n signed g raw prv)
    (0 ≤ dyadRat g → pv < cur → cur ≤ out) ∧
    (0 ≤ dyadRat g → cur < pv → out ≤ cur) ∧
    (dyadRat g = 1 → out = max (minSample n signed) (min (maxSample n signed) (2 * cur - pv))) ∧
    (dyadRat g = -1 → ikern n signed g raw prv = prv)

/-- 41_int_kernels.md R145: the clamped value lies in the range, its truncation toward zero does, and the pattern written has
exactly that value: no conversion overflows. With the examples of the rule. -/
def Obligations.NarrowingTruncatesInRange : Prop :=
  (∀ n ∈ [8, 16, 32, 64], ∀ (signed : Bool) (r : Dyad),
    let s := clampQ r (dyadOfInt (minSample n signed)) (dyadOfInt (maxSample n signed))
    (minSample n signed : ℚ) ≤ dyadRat s ∧ dyadRat s ≤ (maxSample n signed : ℚ) ∧
    dyadTrunc s = ratTrunc (dyadRat s) ∧
    minSample n signed ≤ dyadTrunc s ∧ dyadTrunc s ≤ maxSample n signed ∧
    narrow n signed r = BitVec.ofInt n (dyadTrunc s) ∧
    sampleVal signed (narrow n signed r) = dyadTrunc s) ∧
  dyadTrunc ⟨17, -1⟩ = 8 ∧ dyadTrunc ⟨5, -1⟩ = 2 ∧ dyadTrunc ⟨-9, -1⟩ = -4 ∧ dyadTrunc ⟨-1, -1⟩ = 0 ∧
  ratTrunc (3653235 / 100) = 36532

/-- 41_int_kernels.md R142: every integer kernel is the function of the rule in exact rational arithmetic with two calls of
`rne_113`, the gain entering as the exact value of its pattern; the difference has at most `N` bits, and both zeros are the
gain 0. -/
def Obligations.IntegerKernelInRationals : Prop :=
  (∀ n ∈ [8, 16, 32, 64], ∀ (signed : Bool),
    (∀ (g : Dyad) (raw prv : BitVec n), ikern n signed g raw prv = ratKernel n signed (dyadRat g) raw prv) ∧
    (∀ raw prv : BitVec n, |sampleVal signed raw - sampleVal signed prv| ≤ 2 ^ n - 1) ∧
    ∀ (gain raw prv : Word) (g : Dyad), gainExact gain = some g →
      kernInt n signed gain raw prv =
        some ((ratKernel n signed (dyadRat g) (raw.setWidth n) (prv.setWidth n)).setWidth 64)) ∧
  ∀ gain : Word, gain = 0x0000000000000000 ∨ gain = 0x8000000000000000 → ∃ g, gainExact gain = some g ∧ dyadRat g = 0

/-- 41_int_kernels.md section 4: where the rounding of the wide type is not visible: (a) for the kernels of at most 32 bits,
every gain that is zero or at least `2^-27` in magnitude; (b) for the 64-bit kernels, a gain `m * 2^t` with `|m| < 2^48` and
`-48 ≤ t ≤ 0`. -/
def Obligations.WideRoundingInvisible : Prop :=
  (∀ n ∈ [8, 16, 32], ∀ (signed : Bool) (gain : Word) (g : Dyad) (raw prv : BitVec n), gainExact gain = some g →
    dyadRat g = 0 ∨ (1 : ℚ) / 2 ^ 27 ≤ |dyadRat g| →
    ikern n signed g raw prv = ratKernelExact n signed (dyadRat g) raw prv) ∧
  ∀ (signed : Bool) (gain : Word) (g : Dyad) (m t : Int) (raw prv : BitVec 64), gainExact gain = some g →
    dyadRat g = m * (2 : ℚ) ^ t → |m| < 2 ^ 48 → -48 ≤ t → t ≤ 0 →
    ikern 64 signed g raw prv = ratKernelExact 64 signed (dyadRat g) raw prv

/-- 41_int_kernels.md section 4, 42_float_kernels.md section 4: signed and unsigned kernels, and integer and floating-point
kernels, of one width differ on one pair of patterns. -/
def Obligations.KernelsDifferOnOnePair : Prop :=
  kernInt 8 false 0x3FF0000000000000 0x80 0x00 = some 0xFF ∧
  kernInt 8 true 0x3FF0000000000000 0x80 0x00 = some 0x80 ∧
  kernInt 32 false 0x3FF0000000000000 0x3F000000 0x3E800000 = some 0x3F800000 ∧
  kernInt 32 true 0x3FF0000000000000 0x3F000000 0x3E800000 = some 0x3F800000 ∧
  ∀ free, kernF32 free 0x3FF0000000000000 0x3F000000 0x3E800000 = some 0x3F400000

/-! ### The floating-point kernels -/

/-- 42_float_kernels.md R173: rounding is `round_T` of the exact rational value. -/
def Obligations.FloatRoundingInRationals : Prop :=
  ∀ t ∈ [binary32, binary64], ∀ (x : Dyad) (zs : Bool), fround t x zs = ratRound t (dyadRat x) zs

/-- 42_float_kernels.md R174, R175: addition, subtraction and multiplication in both formats are the tables of the two rules, on
finite data the rounding of the exact rational sum, difference and product. -/
def Obligations.FloatOperationsInRationals : Prop :=
  ∀ t ∈ [binary32, binary64], ∀ a b : FVal,
    fadd t a b = ratFadd t a b ∧ fsub t a b = ratFsub t a b ∧ fmul t a b = ratFmul t a b

/-- 42_float_kernels.md R177: the output of a floating-point kernel is three rational operations, each rounded, then the clamp;
it is a pattern of the format, a NaN exactly when the sum is one, and never an infinity. So are the kernels on words, with the
gain of 40_transform.md R113: `K_F64`'s as it is, `K_F32`'s rounded to binary32. -/
def Obligations.FloatKernelInRationals : Prop :=
  (∀ t ∈ [binary32, binary64], ∀ (free : Word) (gk : FVal) (raw prv : Word),
    let r := ratFloatSum t gk (fdecode t raw) (fdecode t prv)
    let out := fkern t free gk raw prv
    out.toNat < 2 ^ (1 + t.ew + t.fw) ∧ fdecode t out = ratFclamp t r ∧ (fdecode t out = .nan ↔ r = .nan) ∧
      ∀ sg, fdecode t out ≠ .inf sg) ∧
  (∀ (gain : Word) (sg : Bool) (m : Nat) (e : Int), fdecode binary64 gain = .fin sg m e →
    gainF64 gain = some (.fin sg m e) ∧
    ∀ v : FVal, gainF32 gain = some v ↔ v.isFin = true ∧ ratRound binary32 (finRat sg m e) sg = v) ∧
  ∀ (free gain raw prv : Word) (gk : FVal),
    (gainF32 gain = some gk → kernF32 free gain raw prv = some (fkern binary32 free gk raw prv)) ∧
    (gainF64 gain = some gk → kernF64 free gain raw prv = some (fkern binary64 free gk raw prv))

/-- 42_float_kernels.md R180: the output is a NaN or a finite number within `maxFinite`, never an infinity; on a finite sum the
clamp is the identity. -/
def Obligations.FloatOutputNeverInfinite : Prop :=
  ∀ t ∈ [binary32, binary64], ∀ (free : Word) (gk : FVal) (raw prv : Word),
    (fdecode t (fkern t free gk raw prv) = .nan ∨
      ∃ sg m e, fdecode t (fkern t free gk raw prv) = .fin sg m e ∧
        |finRat sg m e| ≤ finRat false (2 ^ fmtPrec t - 1) (fmtEmax t - t.fw)) ∧
    ((floatSum t gk (fdecode t raw) (fdecode t prv)).isFin = true →
      fclamp t (floatSum t gk (fdecode t raw) (fdecode t prv)) = floatSum t gk (fdecode t raw) (fdecode t prv))

/-- 42_float_kernels.md R182: when the sum is a NaN, that the output is then a NaN pattern whatever the free bits are, and that
every NaN pattern of the type is drawn by some free bits. -/
def Obligations.NaNResults : Prop :=
  ∀ t ∈ [binary32, binary64],
    (∀ (gk a b : FVal), gk.isFin = true →
      (floatSum t gk a b = .nan ↔
        a = .nan ∨ b = .nan ∨ (∃ sg, a = .inf sg ∧ b = .inf sg) ∨
        ((∃ sg, fsub t a b = .inf sg) ∧ ∃ sg e, gk = .fin sg 0 e) ∨
        ∃ sg, a = .inf sg ∧ fmul t gk (fsub t a b) = .inf (!sg))) ∧
    (∀ (free : Word) (gk : FVal) (raw prv : Word), floatSum t gk (fdecode t raw) (fdecode t prv) = .nan →
      fkern t free gk raw prv = nanPattern t free) ∧
    (∀ free, fdecode t (nanPattern t free) = .nan ∧ (nanPattern t free).toNat < 2 ^ (1 + t.ew + t.fw)) ∧
    ∀ b : Word, b.toNat < 2 ^ (1 + t.ew + t.fw) → fdecode t b = .nan → ∃ free, nanPattern t free = b

/-- 42_float_kernels.md R181: zero gain on a finite sample with a finite difference gives the sample back, but for `-0` that
becomes `+0`; with an infinite difference or a NaN operand the output is a NaN. -/
def Obligations.FloatZeroGain : Prop :=
  ∀ t ∈ [binary32, binary64], ∀ (free raw prv : Word) (sg : Bool) (e : Int), raw.toNat < 2 ^ (1 + t.ew + t.fw) →
    let gk := FVal.fin sg 0 e
    let d := fsub t (fdecode t raw) (fdecode t prv)
    let p := fmul t gk d
    ((fdecode t raw).isFin = true → d.isFin = true →
      (∃ sp ep, p = .fin sp 0 ep ∧
        (raw = patternOf t true 0 0 ∧ sp = false → fkern t free gk raw prv = patternOf t false 0 0) ∧
        (¬ (raw = patternOf t true 0 0 ∧ sp = false) → fkern t free gk raw prv = raw))) ∧
    ((∃ sd, d = .inf sd) → fdecode t (fkern t free gk raw prv) = .nan) ∧
    (fdecode t raw = .nan ∨ fdecode t prv = .nan → fdecode t (fkern t free gk raw prv) = .nan)

/-- 42_float_kernels.md R183: equal finite patterns give `d = +0`, a zero product with the sign of the gain, and the sample
back, but for `-0` under a gain of positive sign; equal infinities and NaNs give a NaN. -/
def Obligations.FloatNoEdge : Prop :=
  ∀ t ∈ [binary32, binary64], ∀ (free raw : Word) (sg : Bool) (m : Nat) (e : Int), raw.toNat < 2 ^ (1 + t.ew + t.fw) →
    let gk := FVal.fin sg m e
    let d := fsub t (fdecode t raw) (fdecode t raw)
    ((fdecode t raw).isFin = true →
      (∃ ed, d = .fin false 0 ed) ∧ (∃ ep, fmul t gk d = .fin sg 0 ep) ∧
      (raw ≠ patternOf t true 0 0 → fkern t free gk raw raw = raw) ∧
      (raw = patternOf t true 0 0 → fkern t free gk raw raw = patternOf t sg 0 0)) ∧
    ((fdecode t raw).isFin = false → fdecode t (fkern t free gk raw raw) = .nan)

/-! ### Memory -/

/-- 20_memory.md section 3: byte `i` of the pattern assembled from at most eight bytes is byte `i` of memory in `LE` and byte
`w - 1 - i` in `BE`; splitting a pattern and assembling bytes are inverse. -/
def Obligations.ByteOrderRoundTrip : Prop :=
  (∀ (bs : List Byte) (i : Nat) (h : i < bs.length), bs.length ≤ 8 →
    (assemble .le bs).toNat / 256 ^ i % 256 = (bs[i]).toNat ∧
    (assemble .be bs).toNat / 256 ^ i % 256 = (bs[bs.length - 1 - i]).toNat) ∧
  (∀ o (bs : List Byte), bs.length ≤ 8 → (assemble o bs).toNat < 256 ^ bs.length) ∧
  (∀ o w (v : Word), w ≤ 8 → (assemble o (splitBytes o w v)).toNat = v.toNat % 2 ^ (8 * w)) ∧
  ∀ o (bs : List Byte), bs.length ≤ 8 → splitBytes o bs.length (assemble o bs) = bs

/-- 20_memory.md sections 2 and 3: after the write of a position the element there reads as the result, and every other element and
every byte outside reads as before; the read before it adds the raw sample in `PRV` (40_transform.md section 3) and leaves memory
alone. That the read and the write are two steps is log entry 2, the record of accesses log entry 13, the draw log entry 6. -/
def Obligations.WrittenElementReadsBack : Prop :=
  ∀ (k : Kernel) (out : Word) (s : State), MemWf s.mem →
    let w := elemBytes k
    let t := afterWrite w out s
    (elemAt t w (posIndex s)).toNat = out.toNat % 2 ^ (8 * w) ∧
    (∀ i, i ≠ posIndex s → elemAt t w i = elemAt s w i) ∧
    (∀ a, a < elemAddr s w (posIndex s) ∨ elemAddr s w (posIndex s) + w ≤ a → memByte t.mem a = memByte s.mem a) ∧
    MemWf t.mem ∧ afterWrite w out (afterRead w out s) = { afterWrite w out s with
      prv := sparsePut s.c (elemAt s w (posIndex s)) s.prv
      accesses := s.accesses ++ [⟨.read, elemAddr s w (posIndex s), w⟩, ⟨.write, elemAddr s w (posIndex s), w⟩]
      draws := s.draws + 1 }

/-! ### The machine -/

/-- The invariant of the machine is kept by every step. -/
def Obligations.StepKeepsInvariant : Prop := ∀ s t : State, s.Inv → step s = .next t → t.Inv

/-- Reset meets the invariant, for the parameters of the reset state and for any others that R9 admits. -/
def Obligations.ResetMeetsInvariant : Prop :=
  State.reset.Inv ∧ ∀ cfg : Config, cfg.Ok → State.Inv { State.reset with cfg := cfg }

/-- A step runs what is next: an idle core takes the packet at its port (log entry 23); a core in flight runs the decoded
command of the accepted packet, and then the kernel that `KSEL` names; an idle core with no event keeps its state. That an
idle core with no event keeps its whole state is log entry 18, that the latches and the position keep their last values
outside a walk log entry 24; the queue of events is log entry 7. -/
def Obligations.StepRunsWhatIsNext : Prop :=
  (∀ s p rest, s.busy = false → s.host = .command p :: rest →
    step s = .next { s with host := rest, busy := true, cmd := some p }) ∧
  (∀ s u p i, coreTurn s u → s.busy = true → s.cmd = some p → decodePacket p = some i →
    step s = exec i { u with cmd := none }) ∧
  (∀ s u k, coreTurn s u → s.inWalk → s.ksel = some k → step s = exec k.instr u) ∧
  ∀ s, s.busy = false → s.host = [] → step s = .next s

/-- 70_reset_and_hazards.md section 1: reset from any state, busy or not. That the packet and the result that a core in flight
holds are dropped, and that the record of accesses and the events still to come are kept, is the model's (log entry 19, with log
entries 2 and 23 for the two fields, 13 for the record and 7 for the events). -/
def Obligations.ResetInput : Prop :=
  ∀ s rest, s.host = .reset :: rest →
    ∃ t, step s = .next t ∧ t.ds = false ∧ t.ksel = none ∧ kselCode t.ksel = 0b1111 ∧
      (∀ c, sparseFind c t.prv = none) ∧ t.busy = false ∧ t.cmd = none ∧ t.out = none ∧ t.mem = s.mem ∧
      t.responses = s.responses ∧ t.accesses = s.accesses ∧ t.host = rest

/-- 43_dispatch.md section 3: only `RESOLVE` and reset write `DS` and `KSEL`. The packet held is log entry 23, the events log
entry 7. -/
def Obligations.SelectionChangesOnlyByResolveOrReset : Prop :=
  ∀ s t : State, step s = .next t → (t.ds ≠ s.ds ∨ t.ksel ≠ s.ksel) →
    (∃ rest, s.host = .reset :: rest) ∨
    (s.busy = true ∧ ∃ p d, s.cmd = some p ∧ decodePacket p = some (.resolve d) ∧ t.ksel = sel d)

/-- 20_memory.md sections 1 and 5: no step but a store by the host changes a byte outside frames 1 to NF - 1 of the buffer of
the `TRANSFORM` in flight, and only the write of a waiting result does there; so frame 0, a trailing partial frame and all other
memory keep their bytes. The result that waits is log entry 2, the events log entry 7. -/
def Obligations.CoreWritesOnlyLaterFrames : Prop :=
  ∀ s t : State, s.Inv → step s = .next t → (∀ a bs rest, s.host ≠ .store a bs :: rest) →
    ∀ a, memByte t.mem a ≠ memByte s.mem a →
      s.inWalk ∧ s.out.isSome = true ∧ ∃ k, s.ksel = some k ∧ s.oBuf.toNat + s.oCh.toNat * elemBytes k ≤ a ∧
        a < s.oBuf.toNat + frames s (elemBytes k) * s.oCh.toNat * elemBytes k

/-- 30_encoding.md section 5, 10_state.md section 7: a step emits at most one response, and that ends the command in flight and
leaves the core idle; the acceptance of a packet emits none; and a command in flight ends with a response or by reset only. The
packet held is log entry 23, the events log entry 7. -/
def Obligations.OneResponsePerCommand : Prop :=
  ∀ s t : State, step s = .next t →
    (t.responses = s.responses ∨ (s.busy = true ∧ t.busy = false ∧ ∃ r, t.responses = s.responses ++ [r])) ∧
    (s.busy = false → t.busy = true → t.responses = s.responses ∧ ∃ p rest, s.host = .command p :: rest ∧ t.cmd = some p) ∧
    (s.busy = true → t.busy = false → (∀ rest, s.host ≠ .reset :: rest) → ∃ r, t.responses = s.responses ++ [r])

/-- 40_transform.md section 3: a `TRANSFORM` issued to an idle core, whose checks pass and whose buffer is ordinary memory, runs to
its response, and the buffer then holds the function of R122 of the old contents; all other memory is unchanged. That the run is
one step for each access and three more (acceptance, start, end) is the model's granularity (log entries 2 and 23), and the draw
of each NaN is the model's (log entry 6). -/
def Obligations.TransformIsTheSharpeningFunction : Prop :=
  ∀ (s : State) (p : Packet) (ch : BitVec 32) (buf len gain : Word) (k : Kernel),
    s.Inv → s.busy = false → s.host = [.command p] → decodePacket p = some (.transform ch buf len gain) →
    s.ksel = some k → failedCheck (s.latch ch buf len gain) = none → bufferOrdinary s buf len →
    let w := elemBytes k
    let n := ch.toNat
    let ns := len.toNat / w
    let nf := ns / n
    let x := fun i => assemble s.cfg.order (memBytes s.mem (buf.toNat + i * w) w)
    ∃ t : State, Host.Core.run Sys2Proof.core ((accessSequence buf.toNat w n nf).length + 3) s = .next t ∧
      t.busy = false ∧ t.responses = s.responses ++ [responseOf 2 .ok s.ds s.ksel buf] ∧
      t.ds = s.ds ∧ t.ksel = s.ksel ∧ t.prv = [] ∧ t.cfg = s.cfg ∧
      (∀ i, i < ns → assemble s.cfg.order (memBytes t.mem (buf.toNat + i * w) w) = sharpened k s.draws gain n nf x i) ∧
      ∀ a, a < buf.toNat + n * w ∨ buf.toNat + nf * n * w ≤ a → memByte t.mem a = memByte s.mem a

/-- 20_memory.md section 6: the accesses of such a `TRANSFORM`, in order, and how many there are (40_transform.md section 3). The
record of accesses is the model's own (log entry 13), and so are the three steps of the run that make no access (log entries 2
and 23). -/
def Obligations.TransformAccessSequence : Prop :=
  (∀ (s : State) (p : Packet) (ch : BitVec 32) (buf len gain : Word) (k : Kernel),
    s.Inv → s.busy = false → s.host = [.command p] → decodePacket p = some (.transform ch buf len gain) →
    s.ksel = some k → failedCheck (s.latch ch buf len gain) = none → bufferOrdinary s buf len →
    let w := elemBytes k
    let n := ch.toNat
    let nf := len.toNat / w / n
    ∃ t : State, Host.Core.run Sys2Proof.core ((accessSequence buf.toNat w n nf).length + 3) s = .next t ∧
      t.accesses = s.accesses ++ accessSequence buf.toNat w n nf) ∧
  ∀ buf w n nf, (accessSequence buf w n nf).length = if 1 ≤ nf then n + 2 * (nf - 1) * n else 0

/-- 40_transform.md section 5: two runs of one `TRANSFORM` whose buffers agree on the elements of one channel end with buffers
that agree on that channel, whatever the other channels hold. That NaN results agree rests on the draw counter of log entry 6,
which counts positions and not values, and the common length of the runs on log entries 2 and 23. -/
def Obligations.ChannelsAreIndependent : Prop :=
  ∀ (s s' : State) (p : Packet) (ch : BitVec 32) (buf len gain : Word) (k : Kernel) (c : Nat),
    s.Inv → s'.Inv → s.busy = false → s'.busy = false → s.host = [.command p] → s'.host = [.command p] →
    decodePacket p = some (.transform ch buf len gain) →
    s.ksel = some k → s'.ksel = some k → s.cfg = s'.cfg → s.draws = s'.draws →
    failedCheck (s.latch ch buf len gain) = none → bufferOrdinary s buf len → bufferOrdinary s' buf len →
    let w := elemBytes k
    let n := ch.toNat
    let ns := len.toNat / w
    let steps := (accessSequence buf.toNat w n (ns / n)).length + 3
    let elem := fun (u : State) i => assemble u.cfg.order (memBytes u.mem (buf.toNat + i * w) w)
    (∀ i, i < ns → i % n = c → elem s i = elem s' i) →
    ∃ t t' : State, Host.Core.run Sys2Proof.core steps s = .next t ∧ Host.Core.run Sys2Proof.core steps s' = .next t' ∧
      ∀ i, i < ns → i % n = c → elem t i = elem t' i

/-- 70_reset_and_hazards.md section 1: a reset that lands after `m` steps of a command leaves the memory and the accesses of
those `m` steps and the reset state of the core, and emits no response. What a step is, is log entries 2 and 23; that the
latches are then zero is log entry 4; what reset keeps is log entry 19. -/
def Obligations.ResetInsideCommandLeavesPrefix : Prop :=
  ∀ (s u : State) (m : Nat), s.busy = true → Host.Core.run Sys2Proof.core m { s with host := [] } = .next u →
    Host.Core.run Sys2Proof.core (m + 2) { s with host := [.wait m, .reset] } = .next (afterReset u)

/-- 70_reset_and_hazards.md section 1: a command abandoned right after its acceptance, whatever it is and whatever it would have
done, is not answered, and the core is in the reset state. (That the latches are then zero is log entry 4.) What a step is, is
log entry 23; what reset keeps is log entry 19. -/
def Obligations.AbandonedCommandHasNoResponse : Prop :=
  ∀ (s : State) (p : Packet), s.busy = false → s.host = [.command p, .reset] →
    Host.Core.run Sys2Proof.core 2 s = .next (afterReset s)

/-- 70_reset_and_hazards.md section 1: the accesses a reset leaves of a `TRANSFORM` form a prefix of the access sequence, every
length from 0 to all is reached, also one that ends between the read and the write of an element; exactly the elements whose write
lies in the prefix are transformed; no response is emitted. The steps of the run are the model's (log entries 2 and 23), the record
of accesses is log entry 13, the draws are log entry 6. -/
def Obligations.ResetLeavesAccessPrefix : Prop :=
  ∀ (s : State) (p : Packet) (ch : BitVec 32) (buf len gain : Word) (k : Kernel) (m : Nat),
    s.Inv → s.busy = false → s.host = [.command p, .wait (m + 1), .reset] →
    decodePacket p = some (.transform ch buf len gain) →
    s.ksel = some k → failedCheck (s.latch ch buf len gain) = none → bufferOrdinary s buf len →
    let w := elemBytes k
    let n := ch.toNat
    let ns := len.toNat / w
    let nf := ns / n
    let x := fun i => assemble s.cfg.order (memBytes s.mem (buf.toNat + i * w) w)
    m ≤ (accessSequence buf.toNat w n nf).length →
    ∃ t : State, Host.Core.run Sys2Proof.core (m + 4) s = .next t ∧
      t.accesses = s.accesses ++ (accessSequence buf.toNat w n nf).take m ∧ t.responses = s.responses ∧
      t.ds = false ∧ t.ksel = none ∧ t.prv = [] ∧ t.busy = false ∧ t.cmd = none ∧ t.out = none ∧
      (∀ i, i < ns → assemble s.cfg.order (memBytes t.mem (buf.toNat + i * w) w) =
        if n + 2 * (i - n) + 2 ≤ m then sharpened k s.draws gain n nf x i else x i) ∧
      ∀ a, a < buf.toNat + n * w ∨ buf.toNat + nf * n * w ≤ a → memByte t.mem a = memByte s.mem a

/-- 20_memory.md section 7: another agent's access to the processed region of a `TRANSFORM` in flight, from its acceptance
on, is refused by name; outside it, and while no such `TRANSFORM` is in flight, a store lands and a load changes nothing. The
refusal is log entry 8, the events log entry 7, the packet held log entry 23. That a store lands, and a load changes nothing,
in a region that is not ordinary memory too is the model's (log entry 25). That the latches and the position keep their last
values outside a walk is the model's (log entry 24). -/
def Obligations.HostAccessWhileInFlight : Prop :=
  (∀ (s u : State) (a n : Nat) (bs : List Byte) (rest : List HostEvent) (k : Kernel),
    ((s.inWalk ∧ u = s) ∨ (s.busy = true ∧ ∃ p ch buf len gain, s.cmd = some p ∧
      decodePacket p = some (.transform ch buf len gain) ∧ u = s.latch ch buf len gain ∧ failedCheck u = none)) →
    s.ksel = some k →
    let lo := u.oBuf.toNat
    let hi := u.oBuf.toNat + frames u (elemBytes k) * u.oCh.toNat * elemBytes k
    (s.host = .store a bs :: rest → lo < hi → lo < a + bs.length → a < hi → bs ≠ [] →
      step s = .refused .dataRace) ∧
    (s.host = .load a n :: rest → lo < hi → lo < a + n → a < hi → 0 < n → step s = .refused .dataRace) ∧
    (s.host = .store a bs :: rest → (a + bs.length ≤ lo ∨ hi ≤ a ∨ hi = lo) → a + bs.length ≤ 2 ^ s.cfg.aw →
      step s = .next { s with host := rest, mem := memPutBytes s.mem a bs }) ∧
    (s.host = .load a n :: rest → (a + n ≤ lo ∨ hi ≤ a ∨ hi = lo) → step s = .next { s with host := rest })) ∧
  ∀ (s : State) (a n : Nat) (bs : List Byte) (rest : List HostEvent),
    (s.busy = false ∨ ∃ p, s.cmd = some p ∧ ∀ ch buf len gain, decodePacket p = some (.transform ch buf len gain) →
      failedCheck (s.latch ch buf len gain) ≠ none) →
    (s.host = .store a bs :: rest → a + bs.length ≤ 2 ^ s.cfg.aw →
      step s = .next { s with host := rest, mem := memPutBytes s.mem a bs }) ∧
    (s.host = .load a n :: rest → step s = .next { s with host := rest })

/-- 20_memory.md section 5: an element on device registers is outside the spec; the step that would read or write it is refused
by name. The refusal is log entry 10, the result that waits log entry 2. -/
def Obligations.DeviceBufferRefused : Prop :=
  ∀ (k : Kernel) (s : State) (r : Region), s.busy = true → s.out.isSome = true ∨ s.f < frames s (elemBytes k) →
    r ∈ s.regions → r.kind = .device → r.meets (elemAddr s (elemBytes k) (posIndex s)) (elemBytes k) = true →
    exec k.instr s = .refused .deviceBuffer
end

