-- ==== Sys2Proof/Laws/Decode.lean ====
section
/-! SUPPORT. Field arithmetic of the encoded words: the facts about packing fields into a word and reading them back that
proofs about `Descriptor.toWord`, `decodePacket` and `responseOf` use. -/

namespace Sys2Proof

/-- A bit of a word, as arithmetic. -/
theorem getLsbD_toNat (w : Word) (i : Nat) : (w.getLsbD i).toNat = w.toNat / 2 ^ i % 2 := by
  rw [BitVec.getLsbD, Nat.testBit_eq_decide_div_mod_eq]
  rcases Nat.mod_two_eq_zero_or_one (w.toNat / 2 ^ i) with h | h <;> simp [h]

/-- A bit of a word is the Boolean that has its value. -/
theorem getLsbD_of_toNat {w : Word} {i : Nat} {b : Bool} (h : w.toNat / 2 ^ i % 2 = b.toNat) : w.getLsbD i = b := by
  have h2 := (getLsbD_toNat w i).trans h
  revert h2
  generalize w.getLsbD i = z
  cases b <;> cases z <;> simp

/-- The descriptor word's fields read back from their sum. -/
theorem descriptor_fields {a b c d e f n : Nat} (ha : a < 2 ^ 8) (hb : b ≤ 1) (hc : c ≤ 1) (hd : d ≤ 1)
    (he : e < 2 ^ 21) (hf : f < 2 ^ 32)
    (hn : n = (a + b * 2 ^ 8 + c * 2 ^ 9 + d * 2 ^ 10 + e * 2 ^ 11 + f * 2 ^ 32) % 2 ^ 64) :
    n % 2 ^ 8 = a ∧ n / 2 ^ 8 % 2 = b ∧ n / 2 ^ 9 % 2 = c ∧ n / 2 ^ 10 % 2 = d ∧ n / 2 ^ 11 % 2 ^ 21 = e ∧
      n / 2 ^ 32 % 2 ^ 32 = f := by
  refine ⟨?_, ?_, ?_, ?_, ?_, ?_⟩
  all_goals omega

/-- The fields of `W0` of a `TRANSFORM` packet read back from their sum. -/
theorem transform_fields {c n : Nat} (hc : c < 2 ^ 32) (hn : n = (2 + c * 2 ^ 32) % 2 ^ 64) :
    n % 16 = 2 ∧ n / 16 % 2 ^ 28 = 0 ∧ n / 2 ^ 32 % 2 ^ 32 = c := by omega

/-- `W0` of a `TRANSFORM` packet is the sum of its fields. -/
theorem transform_word {n : Nat} (h : n < 2 ^ 64) (h1 : n % 16 = 2) (h2 : n / 16 % 2 ^ 28 = 0) :
    (2 + n / 2 ^ 32 % 2 ^ 32 * 2 ^ 32) % 2 ^ 64 = n := by omega

/-- `W0` of a `RESOLVE` packet is 1. -/
theorem resolve_word {n : Nat} (h1 : n % 16 = 1) (h2 : n / 16 % 2 ^ 28 = 0) (h3 : n / 2 ^ 32 = 0) : n = 1 := by omega

/-- The response word's fields read back from their sum. -/
theorem response_fields {a b c d n : Nat} (ha : a < 2 ^ 4) (hb : b < 2 ^ 4) (hc : c ≤ 1) (hd : d < 2 ^ 4)
    (hn : n = (a + b * 2 ^ 4 + c * 2 ^ 8 + d * 2 ^ 12) % 2 ^ 64) :
    n % 2 ^ 4 = a ∧ n / 2 ^ 4 % 2 ^ 4 = b ∧ n / 2 ^ 8 % 2 = c ∧ n / 2 ^ 12 % 2 ^ 4 = d ∧ n < 2 ^ 16 ∧
      n / 2 ^ 9 % 8 = 0 := by
  refine ⟨?_, ?_, ?_, ?_, ?_, ?_⟩
  all_goals omega

/-- A field of `n` bits from bit `i` of a word, as arithmetic. -/
theorem field_eq_iff (w : Word) (i n : Nat) (x : BitVec n) :
    w.extractLsb' i n = x ↔ w.toNat / 2 ^ i % 2 ^ n = x.toNat := by
  rw [← BitVec.toNat_inj, BitVec.extractLsb'_toNat, Nat.shiftRight_eq_div_pow]

/-- Encoding the fields of a word gives the word. -/
theorem toWord_ofWord (fd : Word) : (Descriptor.ofWord fd).toWord = fd := by
  apply BitVec.eq_of_toNat_eq
  simp only [Descriptor.ofWord, Descriptor.toWord, getLsbD_toNat, BitVec.toNat_ofNat, BitVec.extractLsb'_toNat,
    Nat.shiftRight_eq_div_pow]
  have := fd.isLt
  omega

end Sys2Proof
end

