-- ==== Sys2Proof/Laws/Exact.lean ====
section
/-! SUPPORT. The dyadic primitives of Machine/Exact.lean are the rational functions of the spec (00_scope.md R14): sums,
products, order, clamp, truncation and rounding. -/

namespace Sys2Proof.Machine

theorem dyadRat_ofInt (z : Int) : dyadRat (dyadOfInt z) = z := by simp [dyadRat, dyadOfInt]

theorem dyadRat_at {x : Dyad} {k : Int} (h : k ≤ x.e) : (dyadAt x k : ℚ) * 2 ^ k = dyadRat x := by
  unfold dyadAt dyadRat
  push_cast
  rw [mul_assoc, ← zpow_natCast (2 : ℚ), Int.toNat_of_nonneg (by omega), ← zpow_add₀ (by norm_num)]
  congr 2; omega

theorem dyadRat_add (x y : Dyad) : dyadRat (dyadAdd x y) = dyadRat x + dyadRat y := by
  rw [← dyadRat_at (min_le_left x.e y.e), ← dyadRat_at (min_le_right x.e y.e), ← add_mul]
  simp [dyadAdd, dyadRat]

theorem dyadRat_mul (x y : Dyad) : dyadRat (dyadMul x y) = dyadRat x * dyadRat y := by
  simp only [dyadRat, dyadMul]
  push_cast
  rw [zpow_add₀ (by norm_num)]
  ring

theorem dyadLt_iff (x y : Dyad) : dyadLt x y = true ↔ dyadRat x < dyadRat y := by
  rw [← dyadRat_at (min_le_left x.e y.e), ← dyadRat_at (min_le_right x.e y.e),
    mul_lt_mul_iff_of_pos_right (by positivity)]
  simp [dyadLt]

theorem dyadRat_clamp (x lo hi : Dyad) :
    dyadRat (clampQ x lo hi) = ratClamp (dyadRat x) (dyadRat lo) (dyadRat hi) := by
  unfold clampQ ratClamp
  simp only [dyadLt_iff]
  split
  · rfl
  · split <;> rfl

theorem dyadRat_nonneg_iff (x : Dyad) : 0 ≤ dyadRat x ↔ 0 ≤ x.m := by
  unfold dyadRat
  rw [mul_nonneg_iff_of_pos_right (by positivity)]
  exact_mod_cast Iff.rfl

theorem ratTrunc_int (z : Int) : ratTrunc (z : ℚ) = z := by
  unfold ratTrunc; split <;> simp

/-- `dyadTrunc` is `trunc` of R14. -/
theorem dyadTrunc_rat (x : Dyad) : dyadTrunc x = ratTrunc (dyadRat x) := by
  unfold dyadTrunc
  split
  · next h =>
    have : dyadRat x = ((x.m * 2 ^ x.e.toNat : Int) : ℚ) := by
      unfold dyadRat; push_cast; rw [← zpow_natCast, Int.toNat_of_nonneg h]
    rw [this, ratTrunc_int]
  · next h =>
    have hx : dyadRat x = (x.m : ℚ) / ((2 ^ (-x.e).toNat : Nat) : ℚ) := by
      unfold dyadRat; push_cast
      rw [← zpow_natCast, Int.toNat_of_nonneg (by omega), zpow_neg, div_inv_eq_mul]
    unfold ratTrunc
    simp only [dyadRat_nonneg_iff]
    rw [hx]
    have h2 : ((2 ^ (-x.e).toNat : Int)) = ((2 ^ (-x.e).toNat : Nat) : Int) := by push_cast; rfl
    split
    · next h0 =>
      rw [Rat.floor_intCast_div_natCast, h2, Int.tdiv_eq_ediv_of_nonneg h0]
    · next h0 =>
      rw [Rat.ceil_intCast_div_natCast, h2, ← Int.tdiv_eq_ediv_of_nonneg (by omega), Int.neg_tdiv, neg_neg]

theorem ratRintEven_int (z : Int) : ratRintEven (z : ℚ) = z := by
  unfold ratRintEven; simp

theorem ratRintEven_neg (y : ℚ) : ratRintEven (-y) = - ratRintEven y := by
  by_cases hy : y = ⌊y⌋
  · rw [hy, ← Int.cast_neg, ratRintEven_int, ratRintEven_int]
  · unfold ratRintEven
    have hf : ⌊-y⌋ = -⌊y⌋ - 1 := by
      rw [Int.floor_eq_iff]
      have h1 := Int.floor_le y
      have h2 := Int.lt_floor_add_one y
      have h3 : (⌊y⌋ : ℚ) < y := lt_of_le_of_ne h1 (Ne.symm hy)
      push_cast
      constructor <;> linarith
    rw [hf]
    push_cast
    rcases lt_trichotomy (y - ⌊y⌋) (1/2) with h | h | h
    · rw [if_neg (by linarith), if_pos (by linarith), if_pos h]; ring
    · rw [if_neg (by linarith), if_neg (by linarith), if_neg (not_lt.2 h.ge), if_neg (not_lt.2 h.le)]
      split <;> split <;> omega
    · rw [if_pos (by linarith), if_neg (by linarith), if_pos (by linarith)]; ring

/-- `roundHalfEven` is `rint_even` of R14. -/
theorem roundHalfEven_rat (a s : Nat) : (roundHalfEven a s : Int) = ratRintEven ((a : ℚ) / 2 ^ s) := by
  have hfl : ⌊(a : ℚ) / 2 ^ s⌋ = ((a / 2 ^ s : Nat) : Int) := by
    have := Rat.floor_intCast_div_natCast (a : Int) (2 ^ s)
    push_cast at this ⊢
    exact this
  have hd : (a : ℚ) / 2 ^ s - ((a / 2 ^ s : Nat) : ℚ) = ((a % 2 ^ s : Nat) : ℚ) / 2 ^ s := by
    have h := Nat.div_add_mod a (2 ^ s)
    have h' : (a : ℚ) = 2 ^ s * ((a / 2 ^ s : Nat) : ℚ) + ((a % 2 ^ s : Nat) : ℚ) := by exact_mod_cast h.symm
    have hp : (2 : ℚ) ^ s ≠ 0 := by positivity
    field_simp
    linarith
  unfold ratRintEven
  rw [hfl, Int.cast_natCast, hd]
  have hpos : (0 : ℚ) < 2 ^ s := by positivity
  have e1 : ((a % 2 ^ s : Nat) : ℚ) / 2 ^ s < 1 / 2 ↔ 2 * (a % 2 ^ s) < 2 ^ s := by
    rw [div_lt_div_iff₀ hpos (by norm_num)]
    rw [one_mul, mul_comm]; exact_mod_cast Iff.rfl
  have e2 : 1 / 2 < ((a % 2 ^ s : Nat) : ℚ) / 2 ^ s ↔ 2 ^ s < 2 * (a % 2 ^ s) := by
    rw [div_lt_div_iff₀ (by norm_num) hpos]
    rw [one_mul, mul_comm]; exact_mod_cast Iff.rfl
  simp only [e1, e2]
  unfold roundHalfEven
  simp only
  split
  · rfl
  · split
    · push_cast; rfl
    · generalize a / 2 ^ s = q
      split <;> split <;> push_cast <;> omega

theorem ratRintEven_sign (m : Int) (q : ℚ) :
    ratRintEven ((m : ℚ) * q) = m.sign * ratRintEven ((m.natAbs : ℚ) * q) := by
  rcases lt_trichotomy m 0 with h | h | h
  · have : (m : ℚ) = -((m.natAbs : Nat) : ℚ) := by
      have : m = -((m.natAbs : Nat) : Int) := by omega
      exact_mod_cast this
    rw [this, neg_mul, ratRintEven_neg, Int.sign_eq_neg_one_of_neg h]; ring
  · subst h; simp [ratRintEven]
  · have : (m : ℚ) = ((m.natAbs : Nat) : ℚ) := by
      have : m = ((m.natAbs : Nat) : Int) := by omega
      rw [← Int.cast_natCast, ← this]
    rw [this, Int.sign_eq_one_of_pos h]; simp

/-- The binade of a nonzero number. -/
theorem int_log_dyad (x : Dyad) (h : x.m ≠ 0) : Int.log 2 |dyadRat x| = (x.m.natAbs.log2 : Int) + x.e := by
  have hn : x.m.natAbs ≠ 0 := by omega
  have habs : |dyadRat x| = (x.m.natAbs : ℚ) * 2 ^ x.e := by
    unfold dyadRat
    rw [abs_mul, abs_of_pos (by positivity : (0:ℚ) < 2 ^ x.e)]
    rw [Nat.cast_natAbs, Int.cast_abs]
  have hpos : 0 < |dyadRat x| := by rw [habs]; positivity
  have h1 : 2 ^ x.m.natAbs.log2 ≤ x.m.natAbs := Nat.log2_self_le hn
  have h2 : x.m.natAbs < 2 ^ (x.m.natAbs.log2 + 1) := Nat.lt_log2_self
  apply le_antisymm
  · rw [← Int.lt_add_one_iff, ← Int.lt_zpow_iff_log_lt (by norm_num) hpos, habs]
    rw [show (x.m.natAbs.log2 : Int) + x.e + 1 = ((x.m.natAbs.log2 + 1 : Nat) : Int) + x.e by push_cast; ring,
      Nat.cast_ofNat, zpow_add₀ (by norm_num), zpow_natCast]
    exact mul_lt_mul_of_pos_right (by exact_mod_cast h2) (by positivity)
  · rw [← Int.zpow_le_iff_le_log (by norm_num) hpos, habs, Nat.cast_ofNat, zpow_add₀ (by norm_num), zpow_natCast]
    exact mul_le_mul_of_nonneg_right (by exact_mod_cast h1) (by positivity)

/-- `rne` is `rne_p` of R14. -/
theorem rne_rat (p : Nat) (x : Dyad) : dyadRat (rne p x) = ratRne p (dyadRat x) := by
  unfold ratRne
  by_cases h : x.m = 0
  · have h0 : dyadRat x = 0 := by simp [dyadRat, h]
    rw [if_pos h0]
    simp [rne, dyadRat, h]
  · have h0 : dyadRat x ≠ 0 := by
      unfold dyadRat
      have : (x.m : ℚ) ≠ 0 := by exact_mod_cast h
      positivity
    rw [if_neg h0, int_log_dyad x h]
    generalize hL : x.m.natAbs.log2 = L
    have hx : dyadRat x / 2 ^ ((L : Int) + x.e - p + 1) = (x.m : ℚ) * 2 ^ ((p : Int) - 1 - L) := by
      unfold dyadRat
      rw [mul_div_assoc, ← zpow_sub₀ (by norm_num)]
      congr 2; ring
    rw [hx]
    unfold rne
    rw [hL]
    unfold dyadRat
    simp only
    by_cases hp : L + 1 ≤ p
    · have hs : L + 1 - p = 0 := by omega
      have hz : (x.m : ℚ) * 2 ^ ((p : Int) - 1 - L) = ((x.m * 2 ^ (p - 1 - L) : Int) : ℚ) := by
        push_cast
        rw [← zpow_natCast]
        congr 2; omega
      have hr : roundHalfEven x.m.natAbs 0 = x.m.natAbs := by simp [roundHalfEven, Nat.mod_one]
      rw [hz, ratRintEven_int, hs, hr, Int.sign_mul_natAbs]
      push_cast
      rw [add_zero, ← zpow_natCast, mul_left_comm, ← zpow_add₀ (by norm_num)]
      congr 2; omega
    · rw [ratRintEven_sign, mul_comm]
      have he : ((x.m.natAbs : Nat) : ℚ) * 2 ^ ((p : Int) - 1 - L) = (x.m.natAbs : ℚ) / 2 ^ (L + 1 - p) := by
        rw [div_eq_mul_inv, ← zpow_natCast, ← zpow_neg]
        congr 2; omega
      rw [he, ← roundHalfEven_rat]
      push_cast
      congr 2; omega

/-- An integer below a number is below its rounding. -/
theorem le_ratRintEven {z : Int} {y : ℚ} (h : (z : ℚ) ≤ y) : z ≤ ratRintEven y := by
  have hf : z ≤ ⌊y⌋ := Int.le_floor.2 h
  unfold ratRintEven
  split
  · exact hf
  · split
    · omega
    · split <;> omega

/-- Rounding is odd. -/
theorem ratRne_neg (p : Nat) (x : ℚ) : ratRne p (-x) = -ratRne p x := by
  unfold ratRne
  simp only [neg_eq_zero, abs_neg, neg_div, ratRintEven_neg]
  split
  · simp
  · push_cast; ring

/-- A number of at most `p` significant bits is its own rounding. -/
theorem ratRne_exact {p : Nat} {k j : Int} {x : ℚ} (hx : x = k * 2 ^ j) (hk : |k| < 2 ^ p) : ratRne p x = x := by
  unfold ratRne
  split
  · next h => exact h.symm
  · next h =>
    have hL : Int.log 2 |x| < p + j := by
      rw [← Int.lt_zpow_iff_log_lt (by norm_num) (abs_pos.2 h), hx, abs_mul, abs_of_pos (by positivity : (0:ℚ) < 2 ^ j),
        Nat.cast_ofNat, zpow_add₀ (by norm_num), zpow_natCast]
      exact mul_lt_mul_of_pos_right (by exact_mod_cast hk) (by positivity)
    generalize Int.log 2 |x| = L at hL
    have : x / 2 ^ (L - p + 1) = ((k * 2 ^ (j - (L - p + 1)).toNat : Int) : ℚ) := by
      rw [hx]; push_cast
      rw [mul_div_assoc, ← zpow_sub₀ (by norm_num), ← zpow_natCast, Int.toNat_of_nonneg (by omega)]
    rw [this, ratRintEven_int, ← this, mul_div_cancel₀]
    positivity

/-- A number of at most `p` significant bits below `x` is below the rounding of `x`. -/
theorem le_ratRne {p : Nat} (hp : 1 ≤ p) {k j : Int} {x y : ℚ} (hy : y = k * 2 ^ j) (hk : |k| < 2 ^ p) (h : y ≤ x) :
    y ≤ ratRne p x := by
  unfold ratRne
  split
  · next h0 => rw [← h0]; exact h
  · next h0 =>
    have hpos := abs_pos.2 h0
    have hl : (2 : ℚ) ^ Int.log 2 |x| ≤ |x| := by
      have := Int.zpow_log_le_self (b := 2) (by norm_num) hpos
      simpa using this
    have hu : |x| < (2 : ℚ) ^ (Int.log 2 |x| + 1) := by
      have := Int.lt_zpow_succ_log_self (b := 2) (by norm_num) |x|
      simpa using this
    generalize Int.log 2 |x| = L at hl hu
    have hu0 : (0 : ℚ) < 2 ^ (L - p + 1) := by positivity
    -- it suffices to have a multiple of the unit between `y` and `x`
    have key : ∀ z : Int, y ≤ z * 2 ^ (L - p + 1) → (z : ℚ) * 2 ^ (L - p + 1) ≤ x →
        y ≤ 2 ^ (L - p + 1) * (ratRintEven (x / 2 ^ (L - p + 1)) : ℚ) := by
      intro z h1 h2
      have h3 := le_ratRintEven ((le_div_iff₀ hu0).2 h2)
      calc y ≤ z * 2 ^ (L - p + 1) := h1
        _ ≤ (ratRintEven (x / 2 ^ (L - p + 1)) : ℚ) * 2 ^ (L - p + 1) :=
          mul_le_mul_of_nonneg_right (by exact_mod_cast h3) hu0.le
        _ = _ := mul_comm _ _
    by_cases hj : L - p + 1 ≤ j
    · have : y = ((k * 2 ^ (j - (L - p + 1)).toNat : Int) : ℚ) * 2 ^ (L - p + 1) := by
        rw [hy]; push_cast
        rw [mul_assoc, ← zpow_natCast, Int.toNat_of_nonneg (by omega), ← zpow_add₀ (by norm_num)]
        congr 2; omega
      exact key _ this.le (this ▸ h)
    · -- `y` is below the binade of `x`
      have hyb : |y| < 2 ^ L := by
        rw [hy, abs_mul, abs_of_pos (by positivity : (0:ℚ) < 2 ^ j)]
        calc |(k : ℚ)| * 2 ^ j < 2 ^ p * 2 ^ j := mul_lt_mul_of_pos_right (by exact_mod_cast hk) (by positivity)
          _ = 2 ^ ((p : Int) + j) := by rw [zpow_add₀ (by norm_num), zpow_natCast]
          _ ≤ 2 ^ L := zpow_le_zpow_right₀ (by norm_num) (by omega)
      have hx0 : 0 ≤ x := by
        by_contra hneg
        push Not at hneg
        have : |x| ≤ |y| := by
          rw [abs_of_neg hneg, abs_of_neg (lt_of_le_of_lt h hneg)]; linarith
        linarith
      rw [abs_of_nonneg hx0] at hl
      refine key (2 ^ (p - 1)) ?_ ?_
      · have : ((2 ^ (p - 1) : Int) : ℚ) * 2 ^ (L - p + 1) = 2 ^ L := by
          push_cast
          rw [← zpow_natCast, ← zpow_add₀ (by norm_num)]
          congr 1; omega
        rw [this]; exact le_trans (le_abs_self y) hyb.le
      · have : ((2 ^ (p - 1) : Int) : ℚ) * 2 ^ (L - p + 1) = 2 ^ L := by
          push_cast
          rw [← zpow_natCast, ← zpow_add₀ (by norm_num)]
          congr 1; omega
        rw [this]; exact hl

/-- A number of at most `p` significant bits above `x` is above the rounding of `x`. -/
theorem ratRne_le {p : Nat} (hp : 1 ≤ p) {k j : Int} {x y : ℚ} (hy : y = k * 2 ^ j) (hk : |k| < 2 ^ p) (h : x ≤ y) :
    ratRne p x ≤ y := by
  have := le_ratRne hp (k := -k) (j := j) (y := -y) (by rw [hy]; push_cast; ring) (by simpa using hk) (neg_le_neg h)
  rw [ratRne_neg] at this
  linarith

end Sys2Proof.Machine
end

