-- ==== Sys2Proof/Laws/Float.lean ====
section
/-! SUPPORT. The floating-point formats of Machine/Ieee.lean: the fields of a pattern, data in normal form, encoding against
decoding, and rounding. -/

namespace Sys2Proof.Machine

/-- The two formats. -/
abbrev IeeeFmt (t : Fmt) : Prop := t = binary32 ∨ t = binary64

theorem patternOf_toNat {t : Fmt} (ht : IeeeFmt t) (sg : Bool) {ex fr : Nat} (he : ex < 2 ^ t.ew) (hf : fr < 2 ^ t.fw) :
    (patternOf t sg ex fr).toNat = sg.toNat * 2 ^ (t.ew + t.fw) + ex * 2 ^ t.fw + fr := by
  have hs := Bool.toNat_le sg
  unfold patternOf
  rw [BitVec.toNat_ofNat]
  rcases ht with rfl | rfl <;> simp only [binary32, binary64] at * <;> omega

theorem patExp_patternOf {t : Fmt} (ht : IeeeFmt t) (sg : Bool) {ex fr : Nat} (he : ex < 2 ^ t.ew) (hf : fr < 2 ^ t.fw) :
    patExp t (patternOf t sg ex fr) = ex := by
  have hs := Bool.toNat_le sg
  unfold patExp
  rw [patternOf_toNat ht sg he hf]
  rcases ht with rfl | rfl <;> simp only [binary32, binary64] at * <;> omega

theorem patFrac_patternOf {t : Fmt} (ht : IeeeFmt t) (sg : Bool) {ex fr : Nat} (he : ex < 2 ^ t.ew) (hf : fr < 2 ^ t.fw) :
    patFrac t (patternOf t sg ex fr) = fr := by
  unfold patFrac
  rw [patternOf_toNat ht sg he hf]
  rcases ht with rfl | rfl <;> simp only [binary32, binary64] at * <;> omega

theorem patSign_patternOf {t : Fmt} (ht : IeeeFmt t) (sg : Bool) {ex fr : Nat} (he : ex < 2 ^ t.ew) (hf : fr < 2 ^ t.fw) :
    patSign t (patternOf t sg ex fr) = sg := by
  have hs := Bool.toNat_le sg
  unfold patSign
  apply getLsbD_of_toNat
  rw [patternOf_toNat ht sg he hf]
  rcases ht with rfl | rfl <;> simp only [binary32, binary64] at * <;> omega

/-- A pattern of the format is made of its three fields. -/
theorem patternOf_fields {t : Fmt} (ht : IeeeFmt t) {b : Word} (hb : b.toNat < 2 ^ (1 + t.ew + t.fw)) :
    patternOf t (patSign t b) (patExp t b) (patFrac t b) = b := by
  apply BitVec.eq_of_toNat_eq
  have h1 : patExp t b < 2 ^ t.ew := Nat.mod_lt _ (by positivity)
  have h2 : patFrac t b < 2 ^ t.fw := Nat.mod_lt _ (by positivity)
  rw [patternOf_toNat ht _ h1 h2]
  unfold patSign
  rw [getLsbD_toNat]
  unfold patExp patFrac
  rcases ht with rfl | rfl <;> simp only [binary32, binary64] at * <;> omega

/-- The data of a format in normal form: a subnormal or zero significand at the least exponent, or a normal one. -/
def fvalNormal (t : Fmt) : FVal → Prop
  | .nan => True
  | .inf _ => True
  | .fin _ m e =>
    (e = fmtEmin t - t.fw ∧ m < 2 ^ t.fw) ∨
    (2 ^ t.fw ≤ m ∧ m < 2 ^ fmtPrec t ∧ fmtEmin t - t.fw ≤ e ∧ e ≤ fmtEmax t - t.fw)

theorem fdecode_normal {t : Fmt} (ht : IeeeFmt t) (b : Word) : fvalNormal t (fdecode t b) := by
  have h1 : patExp t b < 2 ^ t.ew := Nat.mod_lt _ (by positivity)
  have h2 : patFrac t b < 2 ^ t.fw := Nat.mod_lt _ (by positivity)
  unfold fdecode
  simp only
  split
  · split <;> trivial
  · next h3 =>
    split
    · exact .inl ⟨rfl, h2⟩
    · refine .inr ⟨by omega, by rw [fmtPrec, pow_succ]; omega, ?_, ?_⟩
      · rcases ht with rfl | rfl <;> simp only [binary32, binary64, fmtEmin, fmtBias, fmtExpMax] at * <;> omega
      · rcases ht with rfl | rfl <;> simp only [binary32, binary64, fmtEmax, fmtBias, fmtExpMax] at * <;> omega

/-- The NaN patterns. -/
theorem nanPattern_form {t : Fmt} (ht : IeeeFmt t) (free : Word) :
    ∃ sg fr, 0 < fr ∧ fr < 2 ^ t.fw ∧ nanPattern t free = patternOf t sg (fmtExpMax t) fr := by
  refine ⟨_, _, ?_, ?_, rfl⟩
  · split <;> omega
  · split
    · rcases ht with rfl | rfl <;> decide
    · exact Nat.mod_lt _ (by positivity)

/-- The datum of a pattern made of fields. -/
theorem fdecode_patternOf {t : Fmt} (ht : IeeeFmt t) (sg : Bool) {ex fr : Nat} (he : ex < 2 ^ t.ew) (hf : fr < 2 ^ t.fw) :
    fdecode t (patternOf t sg ex fr) =
      if ex = fmtExpMax t then (if fr = 0 then .inf sg else .nan)
      else if ex = 0 then .fin sg fr (fmtEmin t - t.fw)
      else .fin sg (2 ^ t.fw + fr) (ex - fmtBias t - t.fw) := by
  unfold fdecode
  simp only [patExp_patternOf ht _ he hf, patFrac_patternOf ht _ he hf, patSign_patternOf ht _ he hf]

theorem fencode_fin (t : Fmt) (free : Word) (sg : Bool) (m : Nat) (e : Int) :
    fencode t free (.fin sg m e) =
      if m < 2 ^ t.fw then patternOf t sg 0 m
      else patternOf t sg (e + t.fw + fmtBias t).toNat (m - 2 ^ t.fw) := rfl

theorem fmtExpMax_lt {t : Fmt} (ht : IeeeFmt t) : 0 < fmtExpMax t ∧ fmtExpMax t < 2 ^ t.ew := by
  rcases ht with rfl | rfl <;> decide

/-- Encoding a datum in normal form and decoding it. -/
theorem fdecode_fencode {t : Fmt} (ht : IeeeFmt t) (free : Word) {v : FVal} (h : fvalNormal t v) :
    fdecode t (fencode t free v) = v := by
  have hx := fmtExpMax_lt ht
  cases v with
  | nan =>
    obtain ⟨sg, fr, h0, hfr, he⟩ := nanPattern_form ht free
    unfold fencode
    rw [he, fdecode_patternOf ht _ hx.2 hfr, if_pos rfl, if_neg (by omega)]
  | inf sg =>
    unfold fencode
    rw [fdecode_patternOf ht _ hx.2 (by positivity), if_pos rfl, if_pos rfl]
  | fin sg m e =>
    rw [fencode_fin]
    rcases h with ⟨he, hm⟩ | ⟨h1, h2, h3, h4⟩
    · rw [if_pos hm, fdecode_patternOf ht _ (by positivity) hm, if_neg (by omega), if_pos rfl, he]
    · rw [fmtPrec, pow_succ] at h2
      have hx' : (e + t.fw + fmtBias t).toNat < fmtExpMax t ∧ 0 < (e + t.fw + fmtBias t).toNat := by
        rcases ht with rfl | rfl <;> simp only [binary32, binary64, fmtEmin, fmtEmax, fmtBias, fmtExpMax] at * <;> omega
      rw [if_neg (by omega), fdecode_patternOf ht _ (by omega) (by omega), if_neg (by omega), if_neg (by omega)]
      congr 1
      · omega
      · omega

/-- Decoding a pattern of the format and encoding its datum, if that is no NaN. -/
theorem fencode_fdecode {t : Fmt} (ht : IeeeFmt t) (free : Word) {b : Word} (hb : b.toNat < 2 ^ (1 + t.ew + t.fw))
    (hn : fdecode t b ≠ .nan) : fencode t free (fdecode t b) = b := by
  have h1 : patExp t b < 2 ^ t.ew := Nat.mod_lt _ (by positivity)
  have h2 : patFrac t b < 2 ^ t.fw := Nat.mod_lt _ (by positivity)
  conv_rhs => rw [← patternOf_fields ht hb]
  unfold fdecode at hn ⊢
  simp only at hn ⊢
  split
  · next hx =>
    split
    · next h0 => simp only [fencode]; rw [h0, hx]
    · next h0 => rw [if_pos hx, if_neg h0] at hn; exact absurd rfl hn
  · next hx =>
    split
    · next h0 => simp only [fencode]; rw [if_pos h2, h0]
    · next h0 =>
      simp only [fencode]
      rw [if_neg (by omega)]
      congr 1
      · omega
      · omega

/-- `fround` is `round_T` of R173. -/
theorem fround_rat (t : Fmt) (x : Dyad) (zs : Bool) : fround t x zs = ratRound t (dyadRat x) zs := by
  unfold fround ratRound
  by_cases h : x.m = 0
  · rw [if_pos h, if_pos (by simp [dyadRat, h])]
  · have h0 : dyadRat x ≠ 0 := by
      unfold dyadRat
      have : (x.m : ℚ) ≠ 0 := by exact_mod_cast h
      positivity
    have hs : decide (x.m < 0) = decide (dyadRat x < 0) := by
      congr 1
      rw [← not_le, ← not_le, dyadRat_nonneg_iff]
    have habs : |dyadRat x| = (x.m.natAbs : ℚ) * 2 ^ x.e := by
      unfold dyadRat
      rw [abs_mul, abs_of_pos (by positivity : (0:ℚ) < 2 ^ x.e)]
      rw [Nat.cast_natAbs, Int.cast_abs]
    rw [if_neg h, if_neg h0, int_log_dyad x h, hs]
    simp only
    generalize max ((x.m.natAbs.log2 : Int) + x.e) (fmtEmin t) = e
    have key : ratRintEven (|dyadRat x| / 2 ^ (e - fmtPrec t + 1)) = (((if e - fmtPrec t + 1 ≤ x.e then x.m.natAbs * 2 ^ (x.e - (e - fmtPrec t + 1)).toNat else roundHalfEven x.m.natAbs (e - fmtPrec t + 1 - x.e).toNat) : Nat) : Int) := by
      generalize e - fmtPrec t + 1 = q
      rw [habs]
      split
      · have : (x.m.natAbs : ℚ) * 2 ^ x.e / 2 ^ q = ((x.m.natAbs * 2 ^ (x.e - q).toNat : Nat) : Int) := by
          push_cast
          rw [mul_div_assoc, ← zpow_sub₀ (by norm_num), ← zpow_natCast, Int.toNat_of_nonneg (by omega), Nat.cast_natAbs, Int.cast_abs]
        rw [this, ratRintEven_int]
      · rw [roundHalfEven_rat]
        congr 1
        rw [mul_div_assoc, ← zpow_sub₀ (by norm_num), div_eq_mul_inv, ← zpow_natCast, Int.toNat_of_nonneg (by omega), ← zpow_neg]
        congr 2; omega
    rw [key]
    generalize (if e - fmtPrec t + 1 ≤ x.e then x.m.natAbs * 2 ^ (x.e - (e - fmtPrec t + 1)).toNat else roundHalfEven x.m.natAbs (e - fmtPrec t + 1 - x.e).toNat) = m
    have h1 : ((m : Int) = 2 ^ fmtPrec t) ↔ m = 2 ^ fmtPrec t := by
      constructor
      · intro h; exact_mod_cast h
      · intro h; exact_mod_cast h
    simp only [h1]
    have h2 : (if m = 2 ^ fmtPrec t then (2 : Int) ^ (fmtPrec t - 1) else (m : Int)).toNat = if m = 2 ^ fmtPrec t then 2 ^ (fmtPrec t - 1) else m := by
      split
      · have : ((2:Int) ^ (fmtPrec t - 1)) = ((2 ^ (fmtPrec t - 1) : Nat) : Int) := by push_cast; rfl
        rw [this, Int.toNat_natCast]
      · simp
    rw [h2]

theorem fround_zero (t : Fmt) {x : Dyad} (h : x.m = 0) (zs : Bool) : fround t x zs = .fin zs 0 (fmtEmin t - t.fw) := by
  unfold fround; rw [if_pos h]

/-- The rounding of a significand: at most `2^n` when the number is below `2^n`. -/
theorem roundHalfEven_le {a s n : Nat} (h : a < 2 ^ (n + s)) : roundHalfEven a s ≤ 2 ^ n := by
  have h1 : a / 2 ^ s < 2 ^ n := by rw [Nat.div_lt_iff_lt_mul (by positivity), ← pow_add]; exact h
  unfold roundHalfEven; simp only
  split
  · omega
  · split
    · omega
    · split <;> omega

theorem le_roundHalfEven {a s n : Nat} (h : 2 ^ (n + s) ≤ a) : 2 ^ n ≤ roundHalfEven a s := by
  have h1 : 2 ^ n ≤ a / 2 ^ s := by rw [Nat.le_div_iff_mul_le (by positivity), ← pow_add]; exact h
  unfold roundHalfEven; simp only
  split
  · omega
  · split
    · omega
    · split <;> omega

/-- Rounding gives a datum in normal form. -/
theorem fround_normal (t : Fmt) (x : Dyad) (zs : Bool) : fvalNormal t (fround t x zs) := by
  by_cases h : x.m = 0
  · rw [fround_zero t h]; exact .inl ⟨rfl, by positivity⟩
  · unfold fround
    rw [if_neg h]
    have hn : x.m.natAbs ≠ 0 := by omega
    have h1 : 2 ^ x.m.natAbs.log2 ≤ x.m.natAbs := Nat.log2_self_le hn
    have h2 : x.m.natAbs < 2 ^ (x.m.natAbs.log2 + 1) := Nat.lt_log2_self
    simp only
    generalize x.m.natAbs = a at *
    generalize a.log2 = L at *
    have hE1 : (L : Int) + x.e ≤ max ((L : Int) + x.e) (fmtEmin t) := le_max_left _ _
    have hE2 : fmtEmin t ≤ max ((L : Int) + x.e) (fmtEmin t) := le_max_right _ _
    have hE3 : max ((L : Int) + x.e) (fmtEmin t) = (L : Int) + x.e ∨ max ((L : Int) + x.e) (fmtEmin t) = fmtEmin t :=
      max_choice _ _
    generalize max ((L : Int) + x.e) (fmtEmin t) = e at *
    have hp : 1 ≤ fmtPrec t := by unfold fmtPrec; omega
    -- the rounded significand
    have hm : ∀ m, m = (if e - fmtPrec t + 1 ≤ x.e then a * 2 ^ (x.e - (e - fmtPrec t + 1)).toNat
        else roundHalfEven a (e - fmtPrec t + 1 - x.e).toNat) →
        m ≤ 2 ^ fmtPrec t ∧ (e ≠ fmtEmin t → 2 ^ (fmtPrec t - 1) ≤ m) := by
      intro m hm
      rw [hm]
      split
      · next hc =>
        generalize hk : (x.e - (e - fmtPrec t + 1)).toNat = k
        constructor
        · calc a * 2 ^ k ≤ 2 ^ (L + 1) * 2 ^ k := Nat.mul_le_mul_right _ h2.le
            _ = 2 ^ (L + 1 + k) := (pow_add _ _ _).symm
            _ ≤ 2 ^ fmtPrec t := Nat.pow_le_pow_right (by norm_num) (by omega)
        · intro he
          calc 2 ^ (fmtPrec t - 1) ≤ 2 ^ (L + k) := Nat.pow_le_pow_right (by norm_num) (by omega)
            _ = 2 ^ L * 2 ^ k := pow_add _ _ _
            _ ≤ a * 2 ^ k := Nat.mul_le_mul_right _ h1
      · next hc =>
        constructor
        · apply roundHalfEven_le
          exact lt_of_lt_of_le h2 (Nat.pow_le_pow_right (by norm_num) (by omega))
        · intro he
          apply le_roundHalfEven
          exact le_trans (Nat.pow_le_pow_right (by norm_num) (by omega)) h1
    generalize (if e - fmtPrec t + 1 ≤ x.e then a * 2 ^ (x.e - (e - fmtPrec t + 1)).toNat
        else roundHalfEven a (e - fmtPrec t + 1 - x.e).toNat) = m at hm
    obtain ⟨hm1, hm2⟩ := hm m rfl
    have hpe : fmtPrec t = t.fw + 1 := rfl
    by_cases hmp : m = 2 ^ fmtPrec t
    · rw [if_pos hmp, if_pos hmp]
      split
      · trivial
      · refine .inr ⟨?_, ?_, ?_, ?_⟩
        · rw [hpe]; exact le_rfl
        · exact Nat.pow_lt_pow_right (by norm_num) (by omega)
        · omega
        · omega
    · rw [if_neg hmp, if_neg hmp]
      split
      · trivial
      · by_cases hsub : m < 2 ^ t.fw
        · refine .inl ⟨?_, hsub⟩
          by_contra hc
          have := hm2 (by omega)
          rw [hpe, Nat.add_sub_cancel] at this
          omega
        · exact .inr ⟨by omega, by omega, by omega, by omega⟩

/-- The value of a datum in normal form rounds to the datum; a zero takes the sign that is passed. -/
theorem fround_self {t : Fmt} (ht : IeeeFmt t) {sg : Bool} {m : Nat} {e : Int} (h : fvalNormal t (.fin sg m e)) (x : Dyad)
    (hx : dyadRat x = dyadRat (finDyad sg m e)) (zs : Bool) :
    fround t x zs = if m = 0 then .fin zs 0 (fmtEmin t - t.fw) else .fin sg m e := by
  have hrat : fround t x zs = fround t (finDyad sg m e) zs := by rw [fround_rat, fround_rat, hx]
  rw [hrat]
  split
  · next h0 => exact fround_zero t (by simp [finDyad, h0]) zs
  · next h0 =>
    have habs : (finDyad sg m e).m.natAbs = m := by cases sg <;> simp [finDyad]
    have hne : (finDyad sg m e).m ≠ 0 := by cases sg <;> simp [finDyad] <;> exact h0
    have hsg : decide ((finDyad sg m e).m < 0) = sg := by cases sg <;> simp [finDyad]; omega
    have hem : fmtEmin t ≤ fmtEmax t := by rcases ht with rfl | rfl <;> decide
    have h1 : 2 ^ m.log2 ≤ m := Nat.log2_self_le h0
    have h2 : m < 2 ^ (m.log2 + 1) := Nat.lt_log2_self
    have hpe : fmtPrec t = t.fw + 1 := rfl
    unfold fround
    rw [if_neg hne]
    simp only [habs, hsg]
    have hx : (finDyad sg m e).e = e := rfl
    rw [hx]
    generalize m.log2 = L at *
    have hmax : max ((L : Int) + e) (fmtEmin t) = e + t.fw ∧ m ≠ 2 ^ fmtPrec t ∧ e + t.fw ≤ fmtEmax t := by
      rcases h with ⟨he, hm⟩ | ⟨hm1, hm2, he1, he2⟩
      · have : L < t.fw := (Nat.pow_lt_pow_iff_right (by norm_num)).1 (lt_of_le_of_lt h1 hm)
        refine ⟨by omega, ?_, by omega⟩
        rw [hpe, pow_succ]; omega
      · have : t.fw < L + 1 := (Nat.pow_lt_pow_iff_right (by norm_num)).1 (lt_of_le_of_lt hm1 h2)
        have : L < fmtPrec t := (Nat.pow_lt_pow_iff_right (by norm_num)).1 (lt_of_le_of_lt h1 hm2)
        exact ⟨by omega, by omega, by omega⟩
    have hk : (e - (e + t.fw - fmtPrec t + 1)).toNat = 0 := by omega
    have hsig : (if e + t.fw - fmtPrec t + 1 ≤ e then m * 2 ^ (e - (e + t.fw - fmtPrec t + 1)).toNat
        else roundHalfEven m (e + t.fw - fmtPrec t + 1 - e).toNat) = m := by
      rw [if_pos (by omega), hk, pow_zero, mul_one]
    rw [hmax.1, hsig, if_neg hmax.2.1, if_neg hmax.2.1, if_neg (by omega)]
    congr 1
    omega

/-- The value of a datum in normal form is within `maxFinite`. -/
theorem finRat_le_max {t : Fmt} {sg : Bool} {m : Nat} {e : Int} (ht : IeeeFmt t) (h : fvalNormal t (.fin sg m e)) :
    |finRat sg m e| ≤ finRat false (2 ^ fmtPrec t - 1) (fmtEmax t - t.fw) := by
  have hem : fmtEmin t ≤ fmtEmax t := by rcases ht with rfl | rfl <;> decide
  have hm : m ≤ 2 ^ fmtPrec t - 1 ∧ e ≤ fmtEmax t - t.fw := by
    rcases h with ⟨he, hm⟩ | ⟨-, hm, -, he⟩
    · have : 2 ^ t.fw ≤ 2 ^ fmtPrec t := Nat.pow_le_pow_right (by norm_num) (by unfold fmtPrec; omega)
      exact ⟨by omega, by omega⟩
    · exact ⟨by omega, he⟩
  have habs : |finRat sg m e| = (m : ℚ) * 2 ^ e := by
    unfold finRat finDyad dyadRat
    cases sg <;> simp [abs_mul]
  rw [habs]
  unfold finRat finDyad dyadRat
  simp only [Bool.false_eq_true, if_false, Int.cast_natCast]
  exact mul_le_mul (by exact_mod_cast hm.1) (zpow_le_zpow_right₀ (by norm_num) hm.2) (by positivity) (by positivity)

/-- The clamp leaves a finite datum in normal form as it is. -/
theorem fclamp_fin {t : Fmt} (ht : IeeeFmt t) {sg : Bool} {m : Nat} {e : Int} (h : fvalNormal t (.fin sg m e)) :
    fclamp t (.fin sg m e) = .fin sg m e := by
  have h1 := abs_le.1 (finRat_le_max ht h)
  have hneg : dyadRat (finDyad true (2 ^ fmtPrec t - 1) (fmtEmax t - t.fw)) =
      -finRat false (2 ^ fmtPrec t - 1) (fmtEmax t - t.fw) := by
    unfold finRat finDyad dyadRat; simp; ring
  unfold fclamp
  rw [if_neg, if_neg]
  · simp only [fmaxFinite, flt, dyadLt_iff]
    exact not_lt.2 h1.2
  · simp only [fmaxFinite, flt, dyadLt_iff, hneg]
    exact not_lt.2 h1.1

theorem fclamp_inf (t : Fmt) (sg : Bool) : fclamp t (.inf sg) = fmaxFinite t sg := by
  cases sg <;> simp [fclamp, flt, fmaxFinite]

@[simp] theorem fclamp_nan (t : Fmt) : fclamp t .nan = .nan := by simp [fclamp, flt, fmaxFinite]

theorem fmaxFinite_normal {t : Fmt} (ht : IeeeFmt t) (sg : Bool) : fvalNormal t (fmaxFinite t sg) := by
  have hem : fmtEmin t ≤ fmtEmax t := by rcases ht with rfl | rfl <;> decide
  have h1 : 2 ^ fmtPrec t = 2 * 2 ^ t.fw := by rw [fmtPrec, pow_succ, mul_comm]
  have h2 : 0 < 2 ^ t.fw := by positivity
  exact .inr ⟨by omega, by omega, by omega, by omega⟩

/-- Sums are in normal form. -/
theorem fadd_normal {t : Fmt} {a b : FVal} : fvalNormal t (fadd t a b) := by
  cases a <;> cases b <;> simp only [fadd] <;> first | trivial | exact fround_normal _ _ _ | (split <;> trivial)

theorem floatSum_normal (t : Fmt) (gk raw prv : FVal) : fvalNormal t (floatSum t gk raw prv) := fadd_normal

theorem fclamp_normal {t : Fmt} (ht : IeeeFmt t) {v : FVal} (h : fvalNormal t v) : fvalNormal t (fclamp t v) := by
  cases v with
  | nan => simp [fvalNormal]
  | inf sg => rw [fclamp_inf]; exact fmaxFinite_normal ht sg
  | fin sg m e => rw [fclamp_fin ht h]; exact h

/-- The kernel's output decodes to its clamped sum. -/
theorem fdecode_fkern {t : Fmt} (ht : IeeeFmt t) (free : Word) (gk : FVal) (raw prv : Word) :
    fdecode t (fkern t free gk raw prv) = fclamp t (floatSum t gk (fdecode t raw) (fdecode t prv)) :=
  fdecode_fencode ht free (fclamp_normal ht (floatSum_normal t _ _ _))

end Sys2Proof.Machine
end

