-- ==== Sys2Proof/Laws/Integer.lean ====
section
/-! SUPPORT. Integer samples and the narrowing of the integer kernels: ranges, and values written and read back. -/

namespace Sys2Proof.Machine

/-- A sample's value lies between the bounds of its kernel. -/
theorem sampleVal_range {n : Nat} (signed : Bool) (b : BitVec n) :
    minSample n signed ≤ sampleVal signed b ∧ sampleVal signed b ≤ maxSample n signed := by
  unfold minSample maxSample sampleVal
  cases signed
  · have h2 : (b.toNat : Int) < 2 ^ n := by exact_mod_cast b.isLt
    simp; omega
  · have h1 := BitVec.le_toInt b
    have h2 := BitVec.toInt_lt (x := b)
    simp; omega

theorem minSample_le_maxSample (n : Nat) (signed : Bool) : minSample n signed ≤ maxSample n signed := by
  have := sampleVal_range signed (0 : BitVec n)
  omega

/-- Samples of at most 64 bits have values below `2^64` in magnitude. -/
theorem sampleVal_lt {n : Nat} (h64 : n ≤ 64) (signed : Bool) (b : BitVec n) :
    -2 ^ 64 < sampleVal signed b ∧ sampleVal signed b < 2 ^ 64 := by
  have := sampleVal_range signed b
  unfold minSample maxSample at this
  have h1 : (2 : Int) ^ n ≤ 2 ^ 64 := pow_le_pow_right₀ (by norm_num) h64
  have h2 : (2 : Int) ^ (n - 1) ≤ 2 ^ 63 := pow_le_pow_right₀ (by norm_num) (by omega)
  cases signed <;> simp at this <;> omega

/-- Equal values come from equal patterns. -/
theorem sampleVal_injective {n : Nat} (signed : Bool) {a b : BitVec n} (h : sampleVal signed a = sampleVal signed b) :
    a = b := by
  cases signed
  · apply BitVec.eq_of_toNat_eq; simpa [sampleVal] using h
  · apply BitVec.eq_of_toInt_eq; simpa [sampleVal] using h

/-- A value in range is the value of its pattern. -/
theorem sampleVal_ofInt {n : Nat} (hn : 1 ≤ n) (signed : Bool) {z : Int} (h1 : minSample n signed ≤ z)
    (h2 : z ≤ maxSample n signed) : sampleVal signed (BitVec.ofInt n z) = z := by
  unfold minSample maxSample at *
  unfold sampleVal
  cases signed
  · simp at *
    rw [max_eq_left (Int.emod_nonneg _ (by positivity))]
    exact Int.emod_eq_of_lt h1 (by omega)
  · simp at *
    have e : (2 : Nat) ^ n = 2 * 2 ^ (n - 1) := by rw [← Nat.pow_succ']; congr 1; omega
    have e' : (((2 : Nat) ^ (n - 1) : Nat) : Int) = 2 ^ (n - 1) := by push_cast; rfl
    rw [e]
    generalize (2 : Nat) ^ (n - 1) = q at *
    rw [← e'] at h1 h2
    rw [Int.bmod_def]
    push_cast
    rcases lt_or_ge z 0 with hz | hz
    · have : z % (2 * (q : Int)) = z + 2 * q := by
        rw [← Int.add_emod_right, Int.emod_eq_of_lt] <;> omega
      rw [this]; split <;> omega
    · rw [Int.emod_eq_of_lt hz (by omega)]; split <;> omega

/-- Truncation stays between integer bounds. -/
theorem ratTrunc_bounds {lo hi : Int} {x : ℚ} (h1 : (lo : ℚ) ≤ x) (h2 : x ≤ hi) : lo ≤ ratTrunc x ∧ ratTrunc x ≤ hi := by
  unfold ratTrunc
  split
  · exact ⟨Int.le_floor.2 h1, by exact_mod_cast (Int.floor_le x).trans h2⟩
  · exact ⟨by exact_mod_cast h1.trans (Int.le_ceil x), Int.ceil_le.2 h2⟩

theorem ratClamp_bounds {lo hi : ℚ} (h : lo ≤ hi) (x : ℚ) : lo ≤ ratClamp x lo hi ∧ ratClamp x lo hi ≤ hi := by
  unfold ratClamp
  split
  · exact ⟨le_rfl, h⟩
  · split
    · exact ⟨h, le_rfl⟩
    · constructor <;> linarith

end Sys2Proof.Machine
end

