-- ==== Sys2Proof/Laws/State.lean ====
section
/-! SUPPORT. One lemma per field per update of State, each true by definition, so that no later proof unfolds a record
update. -/

namespace Sys2Proof.Machine

section
variable (s : State)

/-! ### `noteAccess` -/

@[simp] theorem noteAccess_cfg (k : AccessKind) (a n : Nat) : (s.noteAccess k a n).cfg = s.cfg := rfl
@[simp] theorem noteAccess_ds (k : AccessKind) (a n : Nat) : (s.noteAccess k a n).ds = s.ds := rfl
@[simp] theorem noteAccess_ksel (k : AccessKind) (a n : Nat) : (s.noteAccess k a n).ksel = s.ksel := rfl
@[simp] theorem noteAccess_busy (k : AccessKind) (a n : Nat) : (s.noteAccess k a n).busy = s.busy := rfl
@[simp] theorem noteAccess_cmd (k : AccessKind) (a n : Nat) : (s.noteAccess k a n).cmd = s.cmd := rfl
@[simp] theorem noteAccess_oBuf (k : AccessKind) (a n : Nat) : (s.noteAccess k a n).oBuf = s.oBuf := rfl
@[simp] theorem noteAccess_oLen (k : AccessKind) (a n : Nat) : (s.noteAccess k a n).oLen = s.oLen := rfl
@[simp] theorem noteAccess_oCh (k : AccessKind) (a n : Nat) : (s.noteAccess k a n).oCh = s.oCh := rfl
@[simp] theorem noteAccess_oGain (k : AccessKind) (a n : Nat) : (s.noteAccess k a n).oGain = s.oGain := rfl
@[simp] theorem noteAccess_f (k : AccessKind) (a n : Nat) : (s.noteAccess k a n).f = s.f := rfl
@[simp] theorem noteAccess_c (k : AccessKind) (a n : Nat) : (s.noteAccess k a n).c = s.c := rfl
@[simp] theorem noteAccess_out (k : AccessKind) (a n : Nat) : (s.noteAccess k a n).out = s.out := rfl
@[simp] theorem noteAccess_prv (k : AccessKind) (a n : Nat) : (s.noteAccess k a n).prv = s.prv := rfl
@[simp] theorem noteAccess_mem (k : AccessKind) (a n : Nat) : (s.noteAccess k a n).mem = s.mem := rfl
@[simp] theorem noteAccess_regions (k : AccessKind) (a n : Nat) : (s.noteAccess k a n).regions = s.regions := rfl
@[simp] theorem noteAccess_host (k : AccessKind) (a n : Nat) : (s.noteAccess k a n).host = s.host := rfl
@[simp] theorem noteAccess_responses (k : AccessKind) (a n : Nat) : (s.noteAccess k a n).responses = s.responses := rfl
@[simp] theorem noteAccess_accesses (k : AccessKind) (a n : Nat) : (s.noteAccess k a n).accesses = s.accesses ++ [⟨k, a, n⟩] := rfl
@[simp] theorem noteAccess_draws (k : AccessKind) (a n : Nat) : (s.noteAccess k a n).draws = s.draws := rfl

/-! ### `storeBytes` -/

@[simp] theorem storeBytes_cfg (a : Nat) (bs : List Byte) : (s.storeBytes a bs).cfg = s.cfg := rfl
@[simp] theorem storeBytes_ds (a : Nat) (bs : List Byte) : (s.storeBytes a bs).ds = s.ds := rfl
@[simp] theorem storeBytes_ksel (a : Nat) (bs : List Byte) : (s.storeBytes a bs).ksel = s.ksel := rfl
@[simp] theorem storeBytes_busy (a : Nat) (bs : List Byte) : (s.storeBytes a bs).busy = s.busy := rfl
@[simp] theorem storeBytes_cmd (a : Nat) (bs : List Byte) : (s.storeBytes a bs).cmd = s.cmd := rfl
@[simp] theorem storeBytes_oBuf (a : Nat) (bs : List Byte) : (s.storeBytes a bs).oBuf = s.oBuf := rfl
@[simp] theorem storeBytes_oLen (a : Nat) (bs : List Byte) : (s.storeBytes a bs).oLen = s.oLen := rfl
@[simp] theorem storeBytes_oCh (a : Nat) (bs : List Byte) : (s.storeBytes a bs).oCh = s.oCh := rfl
@[simp] theorem storeBytes_oGain (a : Nat) (bs : List Byte) : (s.storeBytes a bs).oGain = s.oGain := rfl
@[simp] theorem storeBytes_f (a : Nat) (bs : List Byte) : (s.storeBytes a bs).f = s.f := rfl
@[simp] theorem storeBytes_c (a : Nat) (bs : List Byte) : (s.storeBytes a bs).c = s.c := rfl
@[simp] theorem storeBytes_out (a : Nat) (bs : List Byte) : (s.storeBytes a bs).out = s.out := rfl
@[simp] theorem storeBytes_prv (a : Nat) (bs : List Byte) : (s.storeBytes a bs).prv = s.prv := rfl
@[simp] theorem storeBytes_mem (a : Nat) (bs : List Byte) : (s.storeBytes a bs).mem = memPutBytes s.mem a bs := rfl
@[simp] theorem storeBytes_regions (a : Nat) (bs : List Byte) : (s.storeBytes a bs).regions = s.regions := rfl
@[simp] theorem storeBytes_host (a : Nat) (bs : List Byte) : (s.storeBytes a bs).host = s.host := rfl
@[simp] theorem storeBytes_responses (a : Nat) (bs : List Byte) : (s.storeBytes a bs).responses = s.responses := rfl
@[simp] theorem storeBytes_accesses (a : Nat) (bs : List Byte) : (s.storeBytes a bs).accesses = s.accesses := rfl
@[simp] theorem storeBytes_draws (a : Nat) (bs : List Byte) : (s.storeBytes a bs).draws = s.draws := rfl

/-! ### `putPrv` -/

@[simp] theorem putPrv_cfg (ch : Nat) (v : Word) : (s.putPrv ch v).cfg = s.cfg := rfl
@[simp] theorem putPrv_ds (ch : Nat) (v : Word) : (s.putPrv ch v).ds = s.ds := rfl
@[simp] theorem putPrv_ksel (ch : Nat) (v : Word) : (s.putPrv ch v).ksel = s.ksel := rfl
@[simp] theorem putPrv_busy (ch : Nat) (v : Word) : (s.putPrv ch v).busy = s.busy := rfl
@[simp] theorem putPrv_cmd (ch : Nat) (v : Word) : (s.putPrv ch v).cmd = s.cmd := rfl
@[simp] theorem putPrv_oBuf (ch : Nat) (v : Word) : (s.putPrv ch v).oBuf = s.oBuf := rfl
@[simp] theorem putPrv_oLen (ch : Nat) (v : Word) : (s.putPrv ch v).oLen = s.oLen := rfl
@[simp] theorem putPrv_oCh (ch : Nat) (v : Word) : (s.putPrv ch v).oCh = s.oCh := rfl
@[simp] theorem putPrv_oGain (ch : Nat) (v : Word) : (s.putPrv ch v).oGain = s.oGain := rfl
@[simp] theorem putPrv_f (ch : Nat) (v : Word) : (s.putPrv ch v).f = s.f := rfl
@[simp] theorem putPrv_c (ch : Nat) (v : Word) : (s.putPrv ch v).c = s.c := rfl
@[simp] theorem putPrv_out (ch : Nat) (v : Word) : (s.putPrv ch v).out = s.out := rfl
@[simp] theorem putPrv_prv (ch : Nat) (v : Word) : (s.putPrv ch v).prv = sparsePut ch v s.prv := rfl
@[simp] theorem putPrv_mem (ch : Nat) (v : Word) : (s.putPrv ch v).mem = s.mem := rfl
@[simp] theorem putPrv_regions (ch : Nat) (v : Word) : (s.putPrv ch v).regions = s.regions := rfl
@[simp] theorem putPrv_host (ch : Nat) (v : Word) : (s.putPrv ch v).host = s.host := rfl
@[simp] theorem putPrv_responses (ch : Nat) (v : Word) : (s.putPrv ch v).responses = s.responses := rfl
@[simp] theorem putPrv_accesses (ch : Nat) (v : Word) : (s.putPrv ch v).accesses = s.accesses := rfl
@[simp] theorem putPrv_draws (ch : Nat) (v : Word) : (s.putPrv ch v).draws = s.draws := rfl

/-! ### `respond` -/

@[simp] theorem respond_cfg (op : BitVec 4) (e : ErrCode) (i : Word) : (s.respond op e i).cfg = s.cfg := rfl
@[simp] theorem respond_ds (op : BitVec 4) (e : ErrCode) (i : Word) : (s.respond op e i).ds = s.ds := rfl
@[simp] theorem respond_ksel (op : BitVec 4) (e : ErrCode) (i : Word) : (s.respond op e i).ksel = s.ksel := rfl
@[simp] theorem respond_busy (op : BitVec 4) (e : ErrCode) (i : Word) : (s.respond op e i).busy = s.busy := rfl
@[simp] theorem respond_cmd (op : BitVec 4) (e : ErrCode) (i : Word) : (s.respond op e i).cmd = s.cmd := rfl
@[simp] theorem respond_oBuf (op : BitVec 4) (e : ErrCode) (i : Word) : (s.respond op e i).oBuf = s.oBuf := rfl
@[simp] theorem respond_oLen (op : BitVec 4) (e : ErrCode) (i : Word) : (s.respond op e i).oLen = s.oLen := rfl
@[simp] theorem respond_oCh (op : BitVec 4) (e : ErrCode) (i : Word) : (s.respond op e i).oCh = s.oCh := rfl
@[simp] theorem respond_oGain (op : BitVec 4) (e : ErrCode) (i : Word) : (s.respond op e i).oGain = s.oGain := rfl
@[simp] theorem respond_f (op : BitVec 4) (e : ErrCode) (i : Word) : (s.respond op e i).f = s.f := rfl
@[simp] theorem respond_c (op : BitVec 4) (e : ErrCode) (i : Word) : (s.respond op e i).c = s.c := rfl
@[simp] theorem respond_out (op : BitVec 4) (e : ErrCode) (i : Word) : (s.respond op e i).out = s.out := rfl
@[simp] theorem respond_prv (op : BitVec 4) (e : ErrCode) (i : Word) : (s.respond op e i).prv = s.prv := rfl
@[simp] theorem respond_mem (op : BitVec 4) (e : ErrCode) (i : Word) : (s.respond op e i).mem = s.mem := rfl
@[simp] theorem respond_regions (op : BitVec 4) (e : ErrCode) (i : Word) : (s.respond op e i).regions = s.regions := rfl
@[simp] theorem respond_host (op : BitVec 4) (e : ErrCode) (i : Word) : (s.respond op e i).host = s.host := rfl
@[simp] theorem respond_responses (op : BitVec 4) (e : ErrCode) (i : Word) : (s.respond op e i).responses = s.responses ++ [responseOf op e s.ds s.ksel i] := rfl
@[simp] theorem respond_accesses (op : BitVec 4) (e : ErrCode) (i : Word) : (s.respond op e i).accesses = s.accesses := rfl
@[simp] theorem respond_draws (op : BitVec 4) (e : ErrCode) (i : Word) : (s.respond op e i).draws = s.draws := rfl

/-! ### `complete` -/

@[simp] theorem complete_cfg (op : BitVec 4) (e : ErrCode) (i : Word) : (s.complete op e i).cfg = s.cfg := rfl
@[simp] theorem complete_ds (op : BitVec 4) (e : ErrCode) (i : Word) : (s.complete op e i).ds = s.ds := rfl
@[simp] theorem complete_ksel (op : BitVec 4) (e : ErrCode) (i : Word) : (s.complete op e i).ksel = s.ksel := rfl
@[simp] theorem complete_busy (op : BitVec 4) (e : ErrCode) (i : Word) : (s.complete op e i).busy = false := rfl
@[simp] theorem complete_cmd (op : BitVec 4) (e : ErrCode) (i : Word) : (s.complete op e i).cmd = s.cmd := rfl
@[simp] theorem complete_oBuf (op : BitVec 4) (e : ErrCode) (i : Word) : (s.complete op e i).oBuf = s.oBuf := rfl
@[simp] theorem complete_oLen (op : BitVec 4) (e : ErrCode) (i : Word) : (s.complete op e i).oLen = s.oLen := rfl
@[simp] theorem complete_oCh (op : BitVec 4) (e : ErrCode) (i : Word) : (s.complete op e i).oCh = s.oCh := rfl
@[simp] theorem complete_oGain (op : BitVec 4) (e : ErrCode) (i : Word) : (s.complete op e i).oGain = s.oGain := rfl
@[simp] theorem complete_f (op : BitVec 4) (e : ErrCode) (i : Word) : (s.complete op e i).f = s.f := rfl
@[simp] theorem complete_c (op : BitVec 4) (e : ErrCode) (i : Word) : (s.complete op e i).c = s.c := rfl
@[simp] theorem complete_out (op : BitVec 4) (e : ErrCode) (i : Word) : (s.complete op e i).out = s.out := rfl
@[simp] theorem complete_prv (op : BitVec 4) (e : ErrCode) (i : Word) : (s.complete op e i).prv = s.prv := rfl
@[simp] theorem complete_mem (op : BitVec 4) (e : ErrCode) (i : Word) : (s.complete op e i).mem = s.mem := rfl
@[simp] theorem complete_regions (op : BitVec 4) (e : ErrCode) (i : Word) : (s.complete op e i).regions = s.regions := rfl
@[simp] theorem complete_host (op : BitVec 4) (e : ErrCode) (i : Word) : (s.complete op e i).host = s.host := rfl
@[simp] theorem complete_responses (op : BitVec 4) (e : ErrCode) (i : Word) : (s.complete op e i).responses = s.responses ++ [responseOf op e s.ds s.ksel i] := rfl
@[simp] theorem complete_accesses (op : BitVec 4) (e : ErrCode) (i : Word) : (s.complete op e i).accesses = s.accesses := rfl
@[simp] theorem complete_draws (op : BitVec 4) (e : ErrCode) (i : Word) : (s.complete op e i).draws = s.draws := rfl

/-! ### `raise` -/

@[simp] theorem raise_cfg (op : BitVec 4) (e : ErrCode) (i : Word) : (s.raise op e i).cfg = s.cfg := rfl
@[simp] theorem raise_ds (op : BitVec 4) (e : ErrCode) (i : Word) : (s.raise op e i).ds = s.ds := rfl
@[simp] theorem raise_ksel (op : BitVec 4) (e : ErrCode) (i : Word) : (s.raise op e i).ksel = s.ksel := rfl
@[simp] theorem raise_busy (op : BitVec 4) (e : ErrCode) (i : Word) : (s.raise op e i).busy = false := rfl
@[simp] theorem raise_cmd (op : BitVec 4) (e : ErrCode) (i : Word) : (s.raise op e i).cmd = s.cmd := rfl
@[simp] theorem raise_oBuf (op : BitVec 4) (e : ErrCode) (i : Word) : (s.raise op e i).oBuf = s.oBuf := rfl
@[simp] theorem raise_oLen (op : BitVec 4) (e : ErrCode) (i : Word) : (s.raise op e i).oLen = s.oLen := rfl
@[simp] theorem raise_oCh (op : BitVec 4) (e : ErrCode) (i : Word) : (s.raise op e i).oCh = s.oCh := rfl
@[simp] theorem raise_oGain (op : BitVec 4) (e : ErrCode) (i : Word) : (s.raise op e i).oGain = s.oGain := rfl
@[simp] theorem raise_f (op : BitVec 4) (e : ErrCode) (i : Word) : (s.raise op e i).f = s.f := rfl
@[simp] theorem raise_c (op : BitVec 4) (e : ErrCode) (i : Word) : (s.raise op e i).c = s.c := rfl
@[simp] theorem raise_out (op : BitVec 4) (e : ErrCode) (i : Word) : (s.raise op e i).out = none := rfl
@[simp] theorem raise_prv (op : BitVec 4) (e : ErrCode) (i : Word) : (s.raise op e i).prv = [] := rfl
@[simp] theorem raise_mem (op : BitVec 4) (e : ErrCode) (i : Word) : (s.raise op e i).mem = s.mem := rfl
@[simp] theorem raise_regions (op : BitVec 4) (e : ErrCode) (i : Word) : (s.raise op e i).regions = s.regions := rfl
@[simp] theorem raise_host (op : BitVec 4) (e : ErrCode) (i : Word) : (s.raise op e i).host = s.host := rfl
@[simp] theorem raise_responses (op : BitVec 4) (e : ErrCode) (i : Word) : (s.raise op e i).responses = s.responses ++ [responseOf op e s.ds s.ksel i] := rfl
@[simp] theorem raise_accesses (op : BitVec 4) (e : ErrCode) (i : Word) : (s.raise op e i).accesses = s.accesses := rfl
@[simp] theorem raise_draws (op : BitVec 4) (e : ErrCode) (i : Word) : (s.raise op e i).draws = s.draws := rfl

/-! ### `raiseTransform` -/

@[simp] theorem raiseTransform_cfg (e : ErrCode) : (s.raiseTransform e).cfg = s.cfg := rfl
@[simp] theorem raiseTransform_ds (e : ErrCode) : (s.raiseTransform e).ds = s.ds := rfl
@[simp] theorem raiseTransform_ksel (e : ErrCode) : (s.raiseTransform e).ksel = s.ksel := rfl
@[simp] theorem raiseTransform_busy (e : ErrCode) : (s.raiseTransform e).busy = false := rfl
@[simp] theorem raiseTransform_cmd (e : ErrCode) : (s.raiseTransform e).cmd = s.cmd := rfl
@[simp] theorem raiseTransform_oBuf (e : ErrCode) : (s.raiseTransform e).oBuf = s.oBuf := rfl
@[simp] theorem raiseTransform_oLen (e : ErrCode) : (s.raiseTransform e).oLen = s.oLen := rfl
@[simp] theorem raiseTransform_oCh (e : ErrCode) : (s.raiseTransform e).oCh = s.oCh := rfl
@[simp] theorem raiseTransform_oGain (e : ErrCode) : (s.raiseTransform e).oGain = s.oGain := rfl
@[simp] theorem raiseTransform_f (e : ErrCode) : (s.raiseTransform e).f = s.f := rfl
@[simp] theorem raiseTransform_c (e : ErrCode) : (s.raiseTransform e).c = s.c := rfl
@[simp] theorem raiseTransform_out (e : ErrCode) : (s.raiseTransform e).out = none := rfl
@[simp] theorem raiseTransform_prv (e : ErrCode) : (s.raiseTransform e).prv = [] := rfl
@[simp] theorem raiseTransform_mem (e : ErrCode) : (s.raiseTransform e).mem = s.mem := rfl
@[simp] theorem raiseTransform_regions (e : ErrCode) : (s.raiseTransform e).regions = s.regions := rfl
@[simp] theorem raiseTransform_host (e : ErrCode) : (s.raiseTransform e).host = s.host := rfl
@[simp] theorem raiseTransform_responses (e : ErrCode) : (s.raiseTransform e).responses = s.responses ++ [responseOf 2 e s.ds s.ksel s.oBuf] := rfl
@[simp] theorem raiseTransform_accesses (e : ErrCode) : (s.raiseTransform e).accesses = s.accesses := rfl
@[simp] theorem raiseTransform_draws (e : ErrCode) : (s.raiseTransform e).draws = s.draws := rfl

/-! ### `finishTransform` -/

@[simp] theorem finishTransform_cfg : (s.finishTransform).cfg = s.cfg := rfl
@[simp] theorem finishTransform_ds : (s.finishTransform).ds = s.ds := rfl
@[simp] theorem finishTransform_ksel : (s.finishTransform).ksel = s.ksel := rfl
@[simp] theorem finishTransform_busy : (s.finishTransform).busy = false := rfl
@[simp] theorem finishTransform_cmd : (s.finishTransform).cmd = s.cmd := rfl
@[simp] theorem finishTransform_oBuf : (s.finishTransform).oBuf = s.oBuf := rfl
@[simp] theorem finishTransform_oLen : (s.finishTransform).oLen = s.oLen := rfl
@[simp] theorem finishTransform_oCh : (s.finishTransform).oCh = s.oCh := rfl
@[simp] theorem finishTransform_oGain : (s.finishTransform).oGain = s.oGain := rfl
@[simp] theorem finishTransform_f : (s.finishTransform).f = s.f := rfl
@[simp] theorem finishTransform_c : (s.finishTransform).c = s.c := rfl
@[simp] theorem finishTransform_out : (s.finishTransform).out = s.out := rfl
@[simp] theorem finishTransform_prv : (s.finishTransform).prv = [] := rfl
@[simp] theorem finishTransform_mem : (s.finishTransform).mem = s.mem := rfl
@[simp] theorem finishTransform_regions : (s.finishTransform).regions = s.regions := rfl
@[simp] theorem finishTransform_host : (s.finishTransform).host = s.host := rfl
@[simp] theorem finishTransform_responses : (s.finishTransform).responses = s.responses ++ [responseOf 2 .ok s.ds s.ksel s.oBuf] := rfl
@[simp] theorem finishTransform_accesses : (s.finishTransform).accesses = s.accesses := rfl
@[simp] theorem finishTransform_draws : (s.finishTransform).draws = s.draws := rfl

/-! ### `applyReset` -/

@[simp] theorem applyReset_cfg : (s.applyReset).cfg = s.cfg := rfl
@[simp] theorem applyReset_ds : (s.applyReset).ds = false := rfl
@[simp] theorem applyReset_ksel : (s.applyReset).ksel = none := rfl
@[simp] theorem applyReset_busy : (s.applyReset).busy = false := rfl
@[simp] theorem applyReset_cmd : (s.applyReset).cmd = none := rfl
@[simp] theorem applyReset_oBuf : (s.applyReset).oBuf = 0 := rfl
@[simp] theorem applyReset_oLen : (s.applyReset).oLen = 0 := rfl
@[simp] theorem applyReset_oCh : (s.applyReset).oCh = 0 := rfl
@[simp] theorem applyReset_oGain : (s.applyReset).oGain = 0 := rfl
@[simp] theorem applyReset_f : (s.applyReset).f = 0 := rfl
@[simp] theorem applyReset_c : (s.applyReset).c = 0 := rfl
@[simp] theorem applyReset_out : (s.applyReset).out = none := rfl
@[simp] theorem applyReset_prv : (s.applyReset).prv = [] := rfl
@[simp] theorem applyReset_mem : (s.applyReset).mem = s.mem := rfl
@[simp] theorem applyReset_regions : (s.applyReset).regions = s.regions := rfl
@[simp] theorem applyReset_host : (s.applyReset).host = s.host := rfl
@[simp] theorem applyReset_responses : (s.applyReset).responses = s.responses := rfl
@[simp] theorem applyReset_accesses : (s.applyReset).accesses = s.accesses := rfl
@[simp] theorem applyReset_draws : (s.applyReset).draws = s.draws := rfl

/-! ### `advance` -/

@[simp] theorem advance_cfg : (s.advance).cfg = s.cfg := rfl
@[simp] theorem advance_ds : (s.advance).ds = s.ds := rfl
@[simp] theorem advance_ksel : (s.advance).ksel = s.ksel := rfl
@[simp] theorem advance_busy : (s.advance).busy = s.busy := rfl
@[simp] theorem advance_cmd : (s.advance).cmd = s.cmd := rfl
@[simp] theorem advance_oBuf : (s.advance).oBuf = s.oBuf := rfl
@[simp] theorem advance_oLen : (s.advance).oLen = s.oLen := rfl
@[simp] theorem advance_oCh : (s.advance).oCh = s.oCh := rfl
@[simp] theorem advance_oGain : (s.advance).oGain = s.oGain := rfl
@[simp] theorem advance_f : (s.advance).f = if s.c + 1 < s.oCh.toNat then s.f else s.f + 1 := rfl
@[simp] theorem advance_c : (s.advance).c = if s.c + 1 < s.oCh.toNat then s.c + 1 else 0 := rfl
@[simp] theorem advance_out : (s.advance).out = s.out := rfl
@[simp] theorem advance_prv : (s.advance).prv = s.prv := rfl
@[simp] theorem advance_mem : (s.advance).mem = s.mem := rfl
@[simp] theorem advance_regions : (s.advance).regions = s.regions := rfl
@[simp] theorem advance_host : (s.advance).host = s.host := rfl
@[simp] theorem advance_responses : (s.advance).responses = s.responses := rfl
@[simp] theorem advance_accesses : (s.advance).accesses = s.accesses := rfl
@[simp] theorem advance_draws : (s.advance).draws = s.draws := rfl

/-! ### `holdResult` -/

@[simp] theorem holdResult_cfg (o : Word) : (s.holdResult o).cfg = s.cfg := rfl
@[simp] theorem holdResult_ds (o : Word) : (s.holdResult o).ds = s.ds := rfl
@[simp] theorem holdResult_ksel (o : Word) : (s.holdResult o).ksel = s.ksel := rfl
@[simp] theorem holdResult_busy (o : Word) : (s.holdResult o).busy = s.busy := rfl
@[simp] theorem holdResult_cmd (o : Word) : (s.holdResult o).cmd = s.cmd := rfl
@[simp] theorem holdResult_oBuf (o : Word) : (s.holdResult o).oBuf = s.oBuf := rfl
@[simp] theorem holdResult_oLen (o : Word) : (s.holdResult o).oLen = s.oLen := rfl
@[simp] theorem holdResult_oCh (o : Word) : (s.holdResult o).oCh = s.oCh := rfl
@[simp] theorem holdResult_oGain (o : Word) : (s.holdResult o).oGain = s.oGain := rfl
@[simp] theorem holdResult_f (o : Word) : (s.holdResult o).f = s.f := rfl
@[simp] theorem holdResult_c (o : Word) : (s.holdResult o).c = s.c := rfl
@[simp] theorem holdResult_out (o : Word) : (s.holdResult o).out = some o := rfl
@[simp] theorem holdResult_prv (o : Word) : (s.holdResult o).prv = s.prv := rfl
@[simp] theorem holdResult_mem (o : Word) : (s.holdResult o).mem = s.mem := rfl
@[simp] theorem holdResult_regions (o : Word) : (s.holdResult o).regions = s.regions := rfl
@[simp] theorem holdResult_host (o : Word) : (s.holdResult o).host = s.host := rfl
@[simp] theorem holdResult_responses (o : Word) : (s.holdResult o).responses = s.responses := rfl
@[simp] theorem holdResult_accesses (o : Word) : (s.holdResult o).accesses = s.accesses := rfl
@[simp] theorem holdResult_draws (o : Word) : (s.holdResult o).draws = s.draws + 1 := rfl

/-! ### `dropResult` -/

@[simp] theorem dropResult_cfg : (s.dropResult).cfg = s.cfg := rfl
@[simp] theorem dropResult_ds : (s.dropResult).ds = s.ds := rfl
@[simp] theorem dropResult_ksel : (s.dropResult).ksel = s.ksel := rfl
@[simp] theorem dropResult_busy : (s.dropResult).busy = s.busy := rfl
@[simp] theorem dropResult_cmd : (s.dropResult).cmd = s.cmd := rfl
@[simp] theorem dropResult_oBuf : (s.dropResult).oBuf = s.oBuf := rfl
@[simp] theorem dropResult_oLen : (s.dropResult).oLen = s.oLen := rfl
@[simp] theorem dropResult_oCh : (s.dropResult).oCh = s.oCh := rfl
@[simp] theorem dropResult_oGain : (s.dropResult).oGain = s.oGain := rfl
@[simp] theorem dropResult_f : (s.dropResult).f = s.f := rfl
@[simp] theorem dropResult_c : (s.dropResult).c = s.c := rfl
@[simp] theorem dropResult_out : (s.dropResult).out = none := rfl
@[simp] theorem dropResult_prv : (s.dropResult).prv = s.prv := rfl
@[simp] theorem dropResult_mem : (s.dropResult).mem = s.mem := rfl
@[simp] theorem dropResult_regions : (s.dropResult).regions = s.regions := rfl
@[simp] theorem dropResult_host : (s.dropResult).host = s.host := rfl
@[simp] theorem dropResult_responses : (s.dropResult).responses = s.responses := rfl
@[simp] theorem dropResult_accesses : (s.dropResult).accesses = s.accesses := rfl
@[simp] theorem dropResult_draws : (s.dropResult).draws = s.draws := rfl

/-! ### `accept` -/

@[simp] theorem accept_cfg (p : Packet) : (s.accept p).cfg = s.cfg := rfl
@[simp] theorem accept_ds (p : Packet) : (s.accept p).ds = s.ds := rfl
@[simp] theorem accept_ksel (p : Packet) : (s.accept p).ksel = s.ksel := rfl
@[simp] theorem accept_busy (p : Packet) : (s.accept p).busy = true := rfl
@[simp] theorem accept_cmd (p : Packet) : (s.accept p).cmd = some p := rfl
@[simp] theorem accept_oBuf (p : Packet) : (s.accept p).oBuf = s.oBuf := rfl
@[simp] theorem accept_oLen (p : Packet) : (s.accept p).oLen = s.oLen := rfl
@[simp] theorem accept_oCh (p : Packet) : (s.accept p).oCh = s.oCh := rfl
@[simp] theorem accept_oGain (p : Packet) : (s.accept p).oGain = s.oGain := rfl
@[simp] theorem accept_f (p : Packet) : (s.accept p).f = s.f := rfl
@[simp] theorem accept_c (p : Packet) : (s.accept p).c = s.c := rfl
@[simp] theorem accept_out (p : Packet) : (s.accept p).out = s.out := rfl
@[simp] theorem accept_prv (p : Packet) : (s.accept p).prv = s.prv := rfl
@[simp] theorem accept_mem (p : Packet) : (s.accept p).mem = s.mem := rfl
@[simp] theorem accept_regions (p : Packet) : (s.accept p).regions = s.regions := rfl
@[simp] theorem accept_host (p : Packet) : (s.accept p).host = s.host := rfl
@[simp] theorem accept_responses (p : Packet) : (s.accept p).responses = s.responses := rfl
@[simp] theorem accept_accesses (p : Packet) : (s.accept p).accesses = s.accesses := rfl
@[simp] theorem accept_draws (p : Packet) : (s.accept p).draws = s.draws := rfl

/-! ### `takeCmd` -/

@[simp] theorem takeCmd_cfg : (s.takeCmd).cfg = s.cfg := rfl
@[simp] theorem takeCmd_ds : (s.takeCmd).ds = s.ds := rfl
@[simp] theorem takeCmd_ksel : (s.takeCmd).ksel = s.ksel := rfl
@[simp] theorem takeCmd_busy : (s.takeCmd).busy = s.busy := rfl
@[simp] theorem takeCmd_cmd : (s.takeCmd).cmd = none := rfl
@[simp] theorem takeCmd_oBuf : (s.takeCmd).oBuf = s.oBuf := rfl
@[simp] theorem takeCmd_oLen : (s.takeCmd).oLen = s.oLen := rfl
@[simp] theorem takeCmd_oCh : (s.takeCmd).oCh = s.oCh := rfl
@[simp] theorem takeCmd_oGain : (s.takeCmd).oGain = s.oGain := rfl
@[simp] theorem takeCmd_f : (s.takeCmd).f = s.f := rfl
@[simp] theorem takeCmd_c : (s.takeCmd).c = s.c := rfl
@[simp] theorem takeCmd_out : (s.takeCmd).out = s.out := rfl
@[simp] theorem takeCmd_prv : (s.takeCmd).prv = s.prv := rfl
@[simp] theorem takeCmd_mem : (s.takeCmd).mem = s.mem := rfl
@[simp] theorem takeCmd_regions : (s.takeCmd).regions = s.regions := rfl
@[simp] theorem takeCmd_host : (s.takeCmd).host = s.host := rfl
@[simp] theorem takeCmd_responses : (s.takeCmd).responses = s.responses := rfl
@[simp] theorem takeCmd_accesses : (s.takeCmd).accesses = s.accesses := rfl
@[simp] theorem takeCmd_draws : (s.takeCmd).draws = s.draws := rfl

/-! ### `select` -/

@[simp] theorem select_cfg (k : Option Kernel) : (s.select k).cfg = s.cfg := rfl
@[simp] theorem select_ds (k : Option Kernel) : (s.select k).ds = k.isSome := rfl
@[simp] theorem select_ksel (k : Option Kernel) : (s.select k).ksel = k := rfl
@[simp] theorem select_busy (k : Option Kernel) : (s.select k).busy = s.busy := rfl
@[simp] theorem select_cmd (k : Option Kernel) : (s.select k).cmd = s.cmd := rfl
@[simp] theorem select_oBuf (k : Option Kernel) : (s.select k).oBuf = s.oBuf := rfl
@[simp] theorem select_oLen (k : Option Kernel) : (s.select k).oLen = s.oLen := rfl
@[simp] theorem select_oCh (k : Option Kernel) : (s.select k).oCh = s.oCh := rfl
@[simp] theorem select_oGain (k : Option Kernel) : (s.select k).oGain = s.oGain := rfl
@[simp] theorem select_f (k : Option Kernel) : (s.select k).f = s.f := rfl
@[simp] theorem select_c (k : Option Kernel) : (s.select k).c = s.c := rfl
@[simp] theorem select_out (k : Option Kernel) : (s.select k).out = s.out := rfl
@[simp] theorem select_prv (k : Option Kernel) : (s.select k).prv = s.prv := rfl
@[simp] theorem select_mem (k : Option Kernel) : (s.select k).mem = s.mem := rfl
@[simp] theorem select_regions (k : Option Kernel) : (s.select k).regions = s.regions := rfl
@[simp] theorem select_host (k : Option Kernel) : (s.select k).host = s.host := rfl
@[simp] theorem select_responses (k : Option Kernel) : (s.select k).responses = s.responses := rfl
@[simp] theorem select_accesses (k : Option Kernel) : (s.select k).accesses = s.accesses := rfl
@[simp] theorem select_draws (k : Option Kernel) : (s.select k).draws = s.draws := rfl

/-! ### `latch` -/

@[simp] theorem latch_cfg (ch : BitVec 32) (buf len gain : Word) : (s.latch ch buf len gain).cfg = s.cfg := rfl
@[simp] theorem latch_ds (ch : BitVec 32) (buf len gain : Word) : (s.latch ch buf len gain).ds = s.ds := rfl
@[simp] theorem latch_ksel (ch : BitVec 32) (buf len gain : Word) : (s.latch ch buf len gain).ksel = s.ksel := rfl
@[simp] theorem latch_busy (ch : BitVec 32) (buf len gain : Word) : (s.latch ch buf len gain).busy = true := rfl
@[simp] theorem latch_cmd (ch : BitVec 32) (buf len gain : Word) : (s.latch ch buf len gain).cmd = s.cmd := rfl
@[simp] theorem latch_oBuf (ch : BitVec 32) (buf len gain : Word) : (s.latch ch buf len gain).oBuf = buf := rfl
@[simp] theorem latch_oLen (ch : BitVec 32) (buf len gain : Word) : (s.latch ch buf len gain).oLen = len := rfl
@[simp] theorem latch_oCh (ch : BitVec 32) (buf len gain : Word) : (s.latch ch buf len gain).oCh = ch := rfl
@[simp] theorem latch_oGain (ch : BitVec 32) (buf len gain : Word) : (s.latch ch buf len gain).oGain = gain := rfl
@[simp] theorem latch_f (ch : BitVec 32) (buf len gain : Word) : (s.latch ch buf len gain).f = 0 := rfl
@[simp] theorem latch_c (ch : BitVec 32) (buf len gain : Word) : (s.latch ch buf len gain).c = 0 := rfl
@[simp] theorem latch_out (ch : BitVec 32) (buf len gain : Word) : (s.latch ch buf len gain).out = none := rfl
@[simp] theorem latch_prv (ch : BitVec 32) (buf len gain : Word) : (s.latch ch buf len gain).prv = s.prv := rfl
@[simp] theorem latch_mem (ch : BitVec 32) (buf len gain : Word) : (s.latch ch buf len gain).mem = s.mem := rfl
@[simp] theorem latch_regions (ch : BitVec 32) (buf len gain : Word) : (s.latch ch buf len gain).regions = s.regions := rfl
@[simp] theorem latch_host (ch : BitVec 32) (buf len gain : Word) : (s.latch ch buf len gain).host = s.host := rfl
@[simp] theorem latch_responses (ch : BitVec 32) (buf len gain : Word) : (s.latch ch buf len gain).responses = s.responses := rfl
@[simp] theorem latch_accesses (ch : BitVec 32) (buf len gain : Word) : (s.latch ch buf len gain).accesses = s.accesses := rfl
@[simp] theorem latch_draws (ch : BitVec 32) (buf len gain : Word) : (s.latch ch buf len gain).draws = s.draws := rfl

/-! ### `withHost` -/

@[simp] theorem withHost_cfg (es : List HostEvent) : (s.withHost es).cfg = s.cfg := rfl
@[simp] theorem withHost_ds (es : List HostEvent) : (s.withHost es).ds = s.ds := rfl
@[simp] theorem withHost_ksel (es : List HostEvent) : (s.withHost es).ksel = s.ksel := rfl
@[simp] theorem withHost_busy (es : List HostEvent) : (s.withHost es).busy = s.busy := rfl
@[simp] theorem withHost_cmd (es : List HostEvent) : (s.withHost es).cmd = s.cmd := rfl
@[simp] theorem withHost_oBuf (es : List HostEvent) : (s.withHost es).oBuf = s.oBuf := rfl
@[simp] theorem withHost_oLen (es : List HostEvent) : (s.withHost es).oLen = s.oLen := rfl
@[simp] theorem withHost_oCh (es : List HostEvent) : (s.withHost es).oCh = s.oCh := rfl
@[simp] theorem withHost_oGain (es : List HostEvent) : (s.withHost es).oGain = s.oGain := rfl
@[simp] theorem withHost_f (es : List HostEvent) : (s.withHost es).f = s.f := rfl
@[simp] theorem withHost_c (es : List HostEvent) : (s.withHost es).c = s.c := rfl
@[simp] theorem withHost_out (es : List HostEvent) : (s.withHost es).out = s.out := rfl
@[simp] theorem withHost_prv (es : List HostEvent) : (s.withHost es).prv = s.prv := rfl
@[simp] theorem withHost_mem (es : List HostEvent) : (s.withHost es).mem = s.mem := rfl
@[simp] theorem withHost_regions (es : List HostEvent) : (s.withHost es).regions = s.regions := rfl
@[simp] theorem withHost_host (es : List HostEvent) : (s.withHost es).host = es := rfl
@[simp] theorem withHost_responses (es : List HostEvent) : (s.withHost es).responses = s.responses := rfl
@[simp] theorem withHost_accesses (es : List HostEvent) : (s.withHost es).accesses = s.accesses := rfl
@[simp] theorem withHost_draws (es : List HostEvent) : (s.withHost es).draws = s.draws := rfl

/-! ### `withRegions` -/

@[simp] theorem withRegions_cfg (rs : List Region) : (s.withRegions rs).cfg = s.cfg := rfl
@[simp] theorem withRegions_ds (rs : List Region) : (s.withRegions rs).ds = s.ds := rfl
@[simp] theorem withRegions_ksel (rs : List Region) : (s.withRegions rs).ksel = s.ksel := rfl
@[simp] theorem withRegions_busy (rs : List Region) : (s.withRegions rs).busy = s.busy := rfl
@[simp] theorem withRegions_cmd (rs : List Region) : (s.withRegions rs).cmd = s.cmd := rfl
@[simp] theorem withRegions_oBuf (rs : List Region) : (s.withRegions rs).oBuf = s.oBuf := rfl
@[simp] theorem withRegions_oLen (rs : List Region) : (s.withRegions rs).oLen = s.oLen := rfl
@[simp] theorem withRegions_oCh (rs : List Region) : (s.withRegions rs).oCh = s.oCh := rfl
@[simp] theorem withRegions_oGain (rs : List Region) : (s.withRegions rs).oGain = s.oGain := rfl
@[simp] theorem withRegions_f (rs : List Region) : (s.withRegions rs).f = s.f := rfl
@[simp] theorem withRegions_c (rs : List Region) : (s.withRegions rs).c = s.c := rfl
@[simp] theorem withRegions_out (rs : List Region) : (s.withRegions rs).out = s.out := rfl
@[simp] theorem withRegions_prv (rs : List Region) : (s.withRegions rs).prv = s.prv := rfl
@[simp] theorem withRegions_mem (rs : List Region) : (s.withRegions rs).mem = s.mem := rfl
@[simp] theorem withRegions_regions (rs : List Region) : (s.withRegions rs).regions = rs := rfl
@[simp] theorem withRegions_host (rs : List Region) : (s.withRegions rs).host = s.host := rfl
@[simp] theorem withRegions_responses (rs : List Region) : (s.withRegions rs).responses = s.responses := rfl
@[simp] theorem withRegions_accesses (rs : List Region) : (s.withRegions rs).accesses = s.accesses := rfl
@[simp] theorem withRegions_draws (rs : List Region) : (s.withRegions rs).draws = s.draws := rfl

end

end Sys2Proof.Machine
end

