-- ==== Sys2Proof/Laws/Memory.lean ====
section
/-! SUPPORT. The laws of sparse tables and of memory: read after write, and that every operation keeps the canonical form. -/

namespace Sys2Proof.Machine

/-! ### Sparse tables -/

section
variable {α : Type}

theorem sparseFind_put_self (k : Nat) (v : α) (l : List (Nat × α)) : sparseFind k (sparsePut k v l) = some v := by
  induction l with
  | nil => simp [sparsePut, sparseFind]
  | cons x t ih =>
    unfold sparsePut
    split
    · simp [sparseFind]
    · split
      · simp [sparseFind]
      · next h => simp [sparseFind, h, ih]

theorem sparseFind_put_other {j k : Nat} (h : j ≠ k) (v : α) (l : List (Nat × α)) :
    sparseFind j (sparsePut k v l) = sparseFind j l := by
  induction l with
  | nil => simp [sparsePut, sparseFind, h]
  | cons x t ih =>
    unfold sparsePut
    split
    · simp [sparseFind, h]
    · split
      · next hk => simp [sparseFind, h, ← hk]
      · simp [sparseFind, ih]

theorem sparseFind_eq_none_of_lt {k : Nat} {l : List (Nat × α)} (h : ∀ x ∈ l, k < x.1) : sparseFind k l = none := by
  induction l with
  | nil => rfl
  | cons x t ih =>
    have hx := h x (by simp)
    simp only [sparseFind, Nat.ne_of_lt hx, ↓reduceIte]
    exact ih fun y hy => h y (by simp [hy])

theorem sparseFind_drop_self (k : Nat) {l : List (Nat × α)} (h : SparseRising l) :
    sparseFind k (sparseDrop k l) = none := by
  induction l with
  | nil => rfl
  | cons x t ih =>
    obtain ⟨hx, ht⟩ := List.pairwise_cons.1 h
    unfold sparseDrop
    split
    · next hk => exact sparseFind_eq_none_of_lt fun y hy => hk ▸ hx y hy
    · next hk => simp [sparseFind, hk, ih ht]

theorem sparseFind_drop_other {j k : Nat} (h : j ≠ k) (l : List (Nat × α)) :
    sparseFind j (sparseDrop k l) = sparseFind j l := by
  induction l with
  | nil => rfl
  | cons x t ih =>
    unfold sparseDrop
    split
    · next hk => simp [sparseFind, ← hk, h]
    · simp [sparseFind, ih]

theorem mem_sparsePut {k : Nat} {v : α} {l : List (Nat × α)} {x : Nat × α} (h : x ∈ sparsePut k v l) :
    x = (k, v) ∨ x ∈ l := by
  induction l with
  | nil => simpa [sparsePut] using h
  | cons y t ih =>
    unfold sparsePut at h
    split at h
    · simpa using h
    · split at h
      · rcases List.mem_cons.1 h with h | h <;> simp [h]
      · rcases List.mem_cons.1 h with h | h
        · simp [h]
        · rcases ih h with h | h <;> simp [h]

theorem mem_sparseDrop {k : Nat} {l : List (Nat × α)} {x : Nat × α} (h : x ∈ sparseDrop k l) : x ∈ l := by
  induction l with
  | nil => simp [sparseDrop] at h
  | cons y t ih =>
    unfold sparseDrop at h
    split at h
    · simp [h]
    · rcases List.mem_cons.1 h with h | h
      · simp [h]
      · simp [ih h]

theorem sparseRising_put (k : Nat) (v : α) {l : List (Nat × α)} (h : SparseRising l) : SparseRising (sparsePut k v l) := by
  induction l with
  | nil => simp [sparsePut, SparseRising]
  | cons x t ih =>
    obtain ⟨hx, ht⟩ := List.pairwise_cons.1 h
    unfold sparsePut
    split
    · next hk =>
      refine List.pairwise_cons.2 ⟨fun y hy => ?_, h⟩
      rcases List.mem_cons.1 hy with rfl | hy
      · exact hk
      · exact Nat.lt_trans hk (hx y hy)
    · split
      · next hk => exact List.pairwise_cons.2 ⟨fun y hy => hk ▸ hx y hy, ht⟩
      · next h1 h2 =>
        refine List.pairwise_cons.2 ⟨fun y hy => ?_, ih ht⟩
        rcases mem_sparsePut hy with rfl | hy
        · exact Nat.lt_of_le_of_ne (Nat.not_lt.1 h1) (Ne.symm h2)
        · exact hx y hy

theorem sparseRising_drop (k : Nat) {l : List (Nat × α)} (h : SparseRising l) : SparseRising (sparseDrop k l) := by
  induction l with
  | nil => simp [sparseDrop, SparseRising]
  | cons x t ih =>
    obtain ⟨hx, ht⟩ := List.pairwise_cons.1 h
    unfold sparseDrop
    split
    · exact ht
    · exact List.pairwise_cons.2 ⟨fun y hy => hx y (mem_sparseDrop hy), ih ht⟩

end

/-! ### Bytes -/

theorem memByte_put_self {m : List Host.Cell} (h : MemWf m) (a : Nat) (b : Byte) : memByte (memPut m a b) a = b := by
  unfold memByte memPut
  split
  · next hb => simp [sparseFind_drop_self a h.1, hb]
  · simp [sparseFind_put_self]

theorem memByte_put_other {j a : Nat} (h : j ≠ a) (m : List Host.Cell) (b : Byte) :
    memByte (memPut m a b) j = memByte m j := by
  unfold memByte memPut
  split
  · rw [sparseFind_drop_other h]
  · rw [sparseFind_put_other h]

/-- A one-byte write keeps the canonical form. -/
theorem memWf_put {m : List Host.Cell} (h : MemWf m) (a : Nat) (b : Byte) : MemWf (memPut m a b) := by
  unfold memPut
  split
  · exact ⟨sparseRising_drop a h.1, fun x hx => h.2 x (mem_sparseDrop hx)⟩
  · next hb =>
    refine ⟨sparseRising_put a b h.1, fun x hx => ?_⟩
    rcases mem_sparsePut hx with rfl | hx
    · exact hb
    · exact h.2 x hx

/-- A write of bytes keeps the canonical form. -/
theorem memWf_putBytes {m : List Host.Cell} (h : MemWf m) (a : Nat) (bs : List Byte) : MemWf (memPutBytes m a bs) := by
  induction bs generalizing m a with
  | nil => exact h
  | cons b bs ih => exact ih (memWf_put h a b) (a + 1)

/-- The memory of the reset state is in canonical form. -/
theorem memWf_reset : MemWf State.reset.mem := by decide

theorem mem_memPut {m : List Host.Cell} {a : Nat} {b : Byte} {x : Host.Cell} (h : x ∈ memPut m a b) : x.1 = a ∨ x ∈ m := by
  unfold memPut at h
  split at h
  · exact .inr (mem_sparseDrop h)
  · rcases mem_sparsePut h with rfl | h
    · exact .inl rfl
    · exact .inr h

/-- A write lists no address outside the bytes written. -/
theorem mem_memPutBytes {m : List Host.Cell} {a : Nat} {bs : List Byte} {x : Host.Cell} (h : x ∈ memPutBytes m a bs) :
    (a ≤ x.1 ∧ x.1 < a + bs.length) ∨ x ∈ m := by
  induction bs generalizing m a with
  | nil => exact .inr h
  | cons b bs ih =>
    rcases ih h with ⟨h1, h2⟩ | h
    · left; simp only [List.length_cons]; omega
    · rcases mem_memPut h with h | h
      · left; simp only [List.length_cons]; omega
      · exact .inr h

/-- A write leaves every byte outside it alone. -/
theorem memByte_putBytes_other {m : List Host.Cell} {a j : Nat} {bs : List Byte} (h : j < a ∨ a + bs.length ≤ j) :
    memByte (memPutBytes m a bs) j = memByte m j := by
  induction bs generalizing m a with
  | nil => rfl
  | cons b bs ih =>
    simp only [List.length_cons] at h
    unfold memPutBytes
    rw [ih (by omega), memByte_put_other (by omega)]

/-- A byte inside a write reads as what was written there. -/
theorem memByte_putBytes_self {m : List Host.Cell} (hm : MemWf m) {a i : Nat} {bs : List Byte} (h : i < bs.length) :
    memByte (memPutBytes m a bs) (a + i) = bs[i] := by
  induction bs generalizing m a i with
  | nil => simp at h
  | cons b bs ih =>
    unfold memPutBytes
    cases i with
    | zero =>
      rw [Nat.add_zero, memByte_putBytes_other (by omega)]
      simpa using memByte_put_self hm a b
    | succ i =>
      have := ih (memWf_put hm a b) (a := a + 1) (i := i) (by simpa using h)
      rw [show a + (i + 1) = a + 1 + i by omega, this]
      simp

@[simp] theorem memBytes_length (m : List Host.Cell) (a n : Nat) : (memBytes m a n).length = n := by
  induction n generalizing a with
  | zero => rfl
  | succ n ih => simp [memBytes, ih]

theorem memBytes_getElem (m : List Host.Cell) (a n i : Nat) (h : i < (memBytes m a n).length) :
    (memBytes m a n)[i] = memByte m (a + i) := by
  induction n generalizing a i with
  | zero => simp [memBytes] at h
  | succ n ih =>
    cases i with
    | zero => simp [memBytes]
    | succ i =>
      simp only [memBytes, List.getElem_cons_succ]
      rw [ih, show a + 1 + i = a + (i + 1) by omega]

theorem memBytes_congr {m m' : List Host.Cell} {a n : Nat} (h : ∀ i, i < n → memByte m (a + i) = memByte m' (a + i)) :
    memBytes m a n = memBytes m' a n := by
  apply List.ext_getElem (by simp)
  intro i h1 h2
  rw [memBytes_getElem, memBytes_getElem]
  exact h i (by simpa using h1)

/-- Reading the bytes just written gives them back. -/
theorem memBytes_putBytes_self {m : List Host.Cell} (hm : MemWf m) (a : Nat) (bs : List Byte) :
    memBytes (memPutBytes m a bs) a bs.length = bs := by
  apply List.ext_getElem (by simp)
  intro i h1 h2
  rw [memBytes_getElem, memByte_putBytes_self hm h2]

/-- Bytes apart from a write read as before. -/
theorem memBytes_putBytes_apart {m : List Host.Cell} {a j n : Nat} {bs : List Byte}
    (h : j + n ≤ a ∨ a + bs.length ≤ j) : memBytes (memPutBytes m a bs) j n = memBytes m j n := by
  apply memBytes_congr
  intro i hi
  exact memByte_putBytes_other (by omega)

/-! ### Byte order -/

@[simp] theorem natToBytes_length (n v : Nat) : (natToBytes n v).length = n := by
  induction n generalizing v with
  | zero => rfl
  | succ n ih => simp [natToBytes, ih]

@[simp] theorem splitBytes_length (o : ByteOrder) (w : Nat) (v : Word) : (splitBytes o w v).length = w := by
  cases o <;> simp [splitBytes]

theorem bytesToNat_natToBytes (n v : Nat) : bytesToNat (natToBytes n v) = v % 2 ^ (8 * n) := by
  induction n generalizing v with
  | zero => simp [natToBytes, bytesToNat, Nat.mod_one]
  | succ n ih =>
    rw [natToBytes, bytesToNat, ih, BitVec.toNat_ofNat, show 2 ^ (8 * (n + 1)) = 256 * 2 ^ (8 * n) by
      rw [Nat.mul_add, Nat.pow_add]; omega]
    rw [Nat.mod_mul]

theorem bytesToNat_lt (bs : List Byte) : bytesToNat bs < 2 ^ (8 * bs.length) := by
  induction bs with
  | nil => simp [bytesToNat]
  | cons b bs ih =>
    have := b.isLt
    rw [bytesToNat, List.length_cons, show 2 ^ (8 * (bs.length + 1)) = 256 * 2 ^ (8 * bs.length) by
      rw [Nat.mul_add, Nat.pow_add]; omega]
    omega

theorem natToBytes_bytesToNat (bs : List Byte) : natToBytes bs.length (bytesToNat bs) = bs := by
  induction bs with
  | nil => rfl
  | cons b bs ih =>
    have hb := b.isLt
    have h1 : BitVec.ofNat 8 (b.toNat + 256 * bytesToNat bs) = b := by
      apply BitVec.eq_of_toNat_eq
      rw [BitVec.toNat_ofNat]
      omega
    have h2 : (b.toNat + 256 * bytesToNat bs) / 256 = bytesToNat bs := by omega
    simp only [List.length_cons, natToBytes, bytesToNat, h1, h2, ih]

/-- An assembled element of `w ≤ 8` bytes is a pattern of `8w` bits. -/
theorem assemble_lt (o : ByteOrder) (bs : List Byte) : (assemble o bs).toNat < 2 ^ (8 * bs.length) := by
  have h1 := bytesToNat_lt bs
  have h2 := bytesToNat_lt bs.reverse
  rw [List.length_reverse] at h2
  cases o
  · exact Nat.lt_of_le_of_lt (by simpa [assemble] using Nat.mod_le _ _) h1
  · exact Nat.lt_of_le_of_lt (by simpa [assemble] using Nat.mod_le _ _) h2

theorem elemAt_lt (s : State) (w i : Nat) : (elemAt s w i).toNat < 2 ^ (8 * w) := by
  simpa [elemAt] using assemble_lt s.cfg.order (memBytes s.mem (elemAddr s w i) w)

end Sys2Proof.Machine
end

