-- ==== Sys2Proof/Laws/PerInstr.lean ====
section
/-! SUPPORT. Statements made per instruction: every instruction stands in exactly one of the two encoded objects
(30_encoding.md R80), and that object gives it back. -/

namespace Sys2Proof.Laws.OneObject

/-- The instruction fits a command packet or a descriptor word, not both, and the encoder agrees. -/
def Statement (i : Instr) : Prop :=
  (i.fitsPacket = !i.fitsDescriptor) ∧ (encodePacket i).isSome = i.fitsPacket ∧
    (encodeDescriptor i).isSome = i.fitsDescriptor

theorem resolve (d : Descriptor) : Statement (.resolve d) := ⟨rfl, rfl, rfl⟩
theorem transform (ch : BitVec 32) (buf len gain : Word) : Statement (.transform ch buf len gain) := ⟨rfl, rfl, rfl⟩
theorem kU8 : Statement .kU8 := ⟨rfl, rfl, rfl⟩
theorem kS8 : Statement .kS8 := ⟨rfl, rfl, rfl⟩
theorem kU16 : Statement .kU16 := ⟨rfl, rfl, rfl⟩
theorem kS16 : Statement .kS16 := ⟨rfl, rfl, rfl⟩
theorem kU32 : Statement .kU32 := ⟨rfl, rfl, rfl⟩
theorem kS32 : Statement .kS32 := ⟨rfl, rfl, rfl⟩
theorem kU64 : Statement .kU64 := ⟨rfl, rfl, rfl⟩
theorem kS64 : Statement .kS64 := ⟨rfl, rfl, rfl⟩
theorem kF32 : Statement .kF32 := ⟨rfl, rfl, rfl⟩
theorem kF64 : Statement .kF64 := ⟨rfl, rfl, rfl⟩

end Sys2Proof.Laws.OneObject
end

