-- ==== Sys2Proof/Laws/Walk.lean ====
section
/-! SUPPORT. What each shared operation can do, once: element accesses, a walk step, the commands and a step of the machine. -/

namespace Sys2Proof.Machine

/-- An element read goes on with the element, ends the command with `MemFault`, or is refused. -/
theorem elemRead_next {w i : Nat} {s t : State} {k : Word → State → Host.Outcome State Fault Refusal}
    (h : elemRead w i s k = .next t) :
    (portAnswer s .read (elemAddr s w i) w = .ok ∧
      k (elemAt s w i) (s.noteAccess .read (elemAddr s w i) w) = .next t) ∨
    (portAnswer s .read (elemAddr s w i) w = .error ∧ t = s.raiseTransform .memFault) := by
  unfold elemRead at h
  split at h
  · exact .inl ⟨‹_›, h⟩
  · exact .inr ⟨‹_›, by simpa using h.symm⟩
  · simp at h

/-- An element write stores the element and goes on, ends the command with `MemFault`, or is refused. -/
theorem elemWrite_next {w i : Nat} {b : Word} {s t : State} {k : State → Host.Outcome State Fault Refusal}
    (h : elemWrite w i b s k = .next t) :
    (portAnswer s .write (elemAddr s w i) w = .ok ∧
      k ((s.storeBytes (elemAddr s w i) (splitBytes s.cfg.order w b)).noteAccess .write (elemAddr s w i) w) = .next t) ∨
    (portAnswer s .write (elemAddr s w i) w = .error ∧ t = s.raiseTransform .memFault) := by
  unfold elemWrite at h
  split at h
  · exact .inl ⟨‹_›, h⟩
  · exact .inr ⟨‹_›, by simpa using h.symm⟩
  · simp at h

theorem elemRead_of_ok {w i : Nat} {s : State} {k : Word → State → Host.Outcome State Fault Refusal}
    (h : portAnswer s .read (elemAddr s w i) w = .ok) :
    elemRead w i s k = k (elemAt s w i) (s.noteAccess .read (elemAddr s w i) w) := by
  unfold elemRead; rw [h]

theorem elemWrite_of_ok {w i : Nat} {b : Word} {s : State} {k : State → Host.Outcome State Fault Refusal}
    (h : portAnswer s .write (elemAddr s w i) w = .ok) :
    elemWrite w i b s k =
      k ((s.storeBytes (elemAddr s w i) (splitBytes s.cfg.order w b)).noteAccess .write (elemAddr s w i) w) := by
  unfold elemWrite; rw [h]

/-- The state after an answered read whose raw sample goes into `PRV[C]`. -/
abbrev afterLoad (w : Nat) (s : State) : State :=
  (s.noteAccess .read (elemAddr s w (posIndex s)) w).putPrv s.c (elemAt s w (posIndex s))

/-- The cases of a walk step that answers a next state. -/
inductive WalkNext (w : Nat) (kern : Word → Word → Word → Option Word) (s t : State) : Prop where
  /-- no `TRANSFORM` in flight -/
  | idle (hb : s.busy = false) (ht : t = s)
  /-- the waiting result is written -/
  | write (hb : s.busy = true) (out : Word) (ho : s.out = some out)
      (hw : portAnswer s .write (elemAddr s w (posIndex s)) w = .ok) (ht : t = afterWrite w out s)
  /-- the write was answered with an error -/
  | writeFault (hb : s.busy = true) (out : Word) (ho : s.out = some out)
      (hw : portAnswer s .write (elemAddr s w (posIndex s)) w = .error) (ht : t = s.raiseTransform .memFault)
  /-- the end of the command -/
  | finish (hb : s.busy = true) (ho : s.out = none) (hf : frames s w ≤ s.f) (ht : t = s.finishTransform)
  /-- a frame-0 load -/
  | load (hb : s.busy = true) (ho : s.out = none) (hf : s.f < frames s w) (h0 : s.f = 0)
      (hr : portAnswer s .read (elemAddr s w (posIndex s)) w = .ok) (ht : t = (afterLoad w s).advance)
  /-- the read was answered with an error -/
  | readFault (hb : s.busy = true) (ho : s.out = none) (hf : s.f < frames s w)
      (hr : portAnswer s .read (elemAddr s w (posIndex s)) w = .error) (ht : t = s.raiseTransform .memFault)
  /-- the gain is not finite in the compute type -/
  | badGain (hb : s.busy = true) (ho : s.out = none) (hf : s.f < frames s w) (h0 : s.f ≠ 0)
      (hr : portAnswer s .read (elemAddr s w (posIndex s)) w = .ok)
      (hk : kern s.oGain (elemAt s w (posIndex s)) (prvEntry s s.c) = none)
      (ht : t = (s.noteAccess .read (elemAddr s w (posIndex s)) w).raiseTransform .badGain)
  /-- one sample is read and its result computed -/
  | read (hb : s.busy = true) (ho : s.out = none) (hf : s.f < frames s w) (h0 : s.f ≠ 0)
      (hr : portAnswer s .read (elemAddr s w (posIndex s)) w = .ok) (out : Word)
      (hk : kern s.oGain (elemAt s w (posIndex s)) (prvEntry s s.c) = some out) (ht : t = afterRead w out s)

theorem walkStep_next {w : Nat} {kern : Word → Word → Word → Option Word} {s t : State}
    (h : walkStep w kern s = .next t) : WalkNext w kern s t := by
  unfold walkStep at h
  split at h
  · exact .idle ‹_› (by simpa using h.symm)
  · have hb : s.busy = true := by simpa using ‹¬ s.busy = false›
    split at h
    · rcases elemWrite_next h with ⟨hw, h⟩ | ⟨hw, h⟩
      · exact .write hb _ ‹_› hw (by simp only [Host.Outcome.next.injEq] at h; exact h.symm)
      · exact .writeFault hb _ ‹_› hw h
    · split at h
      · exact .finish hb ‹_› ‹_› (by simpa using h.symm)
      · have hf : s.f < frames s w := by omega
        split at h
        · rcases elemRead_next h with ⟨hr, h⟩ | ⟨hr, h⟩
          · exact .load hb ‹_› hf ‹_› hr (by simpa using h.symm)
          · exact .readFault hb ‹_› hf hr h
        · rcases elemRead_next h with ⟨hr, h⟩ | ⟨hr, h⟩
          · split at h
            · exact .badGain hb ‹_› hf ‹_› hr ‹_› (by simpa using h.symm)
            · exact .read hb ‹_› hf ‹_› hr _ ‹_› (by simp only [Host.Outcome.next.injEq] at h; exact h.symm)
          · exact .readFault hb ‹_› hf hr h

/-- Each of the cases is what a walk step does: the cases say all of it. -/
theorem walkStep_of_next {w : Nat} {kern : Word → Word → Word → Option Word} {s t : State}
    (h : WalkNext w kern s t) : walkStep w kern s = .next t := by
  unfold walkStep
  cases h with
  | idle hb ht => rw [if_pos hb, ht]
  | write hb out ho hw ht =>
    simp only [hb, ho, Bool.true_eq_false, if_false]
    rw [writePosition, elemWrite_of_ok hw, ht]
    rfl
  | writeFault hb out ho hw ht =>
    simp only [hb, ho, Bool.true_eq_false, if_false]
    rw [writePosition, elemWrite, hw, ht]
  | finish hb ho hf ht =>
    simp only [hb, ho, Bool.true_eq_false, if_false]
    rw [if_pos hf, ht]
  | load hb ho hf h0 hr ht =>
    simp only [hb, ho, Bool.true_eq_false, if_false]
    rw [if_neg (by omega), if_pos h0, loadPosition, elemRead_of_ok hr, ht]
  | readFault hb ho hf hr ht =>
    simp only [hb, ho, Bool.true_eq_false, if_false]
    rw [if_neg (by omega), loadPosition, readPosition, elemRead, elemRead, hr, ht]
    split <;> rfl
  | badGain hb ho hf h0 hr hk ht =>
    simp only [hb, ho, Bool.true_eq_false, if_false]
    rw [if_neg (by omega), if_neg h0, readPosition, elemRead_of_ok hr, ht]
    simp only [hk]
  | read hb ho hf h0 hr out hk ht =>
    simp only [hb, ho, Bool.true_eq_false, if_false]
    rw [if_neg (by omega), if_neg h0, readPosition, elemRead_of_ok hr, ht]
    simp only [hk]
    rfl

/-- A waiting result whose write is answered is written. -/
theorem walkStep_write {w : Nat} {kern : Word → Word → Word → Option Word} {s : State} {out : Word}
    (h : writeDue w out s) : walkStep w kern s = .next (afterWrite w out s) :=
  walkStep_of_next (.write h.1 out h.2.1 h.2.2 rfl)

/-- A sample whose read is answered is read, and its result waits. -/
theorem walkStep_read {w : Nat} {kern : Word → Word → Word → Option Word} {s : State} {out : Word}
    (h : readDue w s) (hk : kern s.oGain (elemAt s w (posIndex s)) (prvEntry s s.c) = some out) :
    walkStep w kern s = .next (afterRead w out s) :=
  walkStep_of_next (.read h.1 h.2.1 h.2.2.2.1 (Nat.ne_of_gt h.2.2.1) h.2.2.2.2 out hk rfl)

/-- What the outside does next plays no part in a walk step. -/
theorem walkStep_withHost {w : Nat} {kern : Word → Word → Word → Option Word} {s t : State} (es : List HostEvent)
    (h : walkStep w kern s = .next t) : walkStep w kern (s.withHost es) = .next (t.withHost es) := by
  apply walkStep_of_next
  cases walkStep_next h with
  | idle hb ht => exact .idle hb (by rw [ht])
  | write hb out ho hw ht => exact .write hb out ho hw (by rw [ht]; rfl)
  | writeFault hb out ho hw ht => exact .writeFault hb out ho hw (by rw [ht]; rfl)
  | finish hb ho hf ht => exact .finish hb ho hf (by rw [ht]; rfl)
  | load hb ho hf h0 hr ht => exact .load hb ho hf h0 hr (by rw [ht]; rfl)
  | readFault hb ho hf hr ht => exact .readFault hb ho hf hr (by rw [ht]; rfl)
  | badGain hb ho hf h0 hr hk ht => exact .badGain hb ho hf h0 hr hk (by rw [ht]; rfl)
  | read hb ho hf h0 hr out hk ht => exact .read hb ho hf h0 hr out hk (by rw [ht]; rfl)

/-- Every kernel row is a walk step with the kernel's element size and function. -/
theorem exec_instr (k : Kernel) (s : State) : exec k.instr s = walkStep (elemBytes k) (kernelFn k s.draws) s := by
  cases k <;> rfl

/-- A decoded packet is one of the two commands. -/
theorem decodePacket_cases {p : Packet} {i : Instr} (h : decodePacket p = some i) :
    (∃ d, i = .resolve d) ∨ ∃ ch buf len gain, i = .transform ch buf len gain := by
  unfold decodePacket at h
  dsimp only at h
  split at h
  · simp at h
  · split at h
    · split at h
      · exact .inl ⟨_, by simpa using h.symm⟩
      · simp at h
    · split at h
      · exact .inr ⟨_, _, _, _, by simpa using h.symm⟩
      · simp at h

/-- What `RESOLVE` does. -/
theorem execResolve_next {d : Descriptor} {s t : State} (h : execResolve d s = .next t) :
    (∃ k, sel d = some k ∧ t = (s.select (some k)).complete 1 .ok 0) ∨
    (sel d = none ∧ t = (s.select none).raise 1 .unsupportedFormat 0) := by
  unfold execResolve at h
  split at h
  · exact .inl ⟨_, ‹_›, by simpa using h.symm⟩
  · exact .inr ⟨‹_›, by simpa using h.symm⟩

/-- What `TRANSFORM` does. -/
theorem execTransform_next {ch : BitVec 32} {buf len gain : Word} {s t : State}
    (h : execTransform ch buf len gain s = .next t) :
    (∃ e, failedCheck (s.latch ch buf len gain) = some e ∧ t = (s.latch ch buf len gain).raiseTransform e) ∨
    (failedCheck (s.latch ch buf len gain) = none ∧ t = s.latch ch buf len gain) := by
  unfold execTransform at h
  dsimp only at h
  split at h
  · exact .inl ⟨_, ‹_›, by simpa using h.symm⟩
  · exact .inr ⟨‹_›, by simpa using h.symm⟩

/-- The checks leave a state whose `KSEL` names a kernel. -/
theorem ksel_of_checked {s : State} (h : failedCheck s = none) : s.ds = true ∧ ∃ k, s.ksel = some k := by
  unfold failedCheck at h
  split at h
  · simp at h
  · simp at h
  · exact ⟨‹_›, _, ‹_›⟩

/-- The checks of R111, all passed, for the kernel in `KSEL`. -/
theorem checks_of_checked {s : State} {k : Kernel} (h : failedCheck s = none) (hk : s.ksel = some k) :
    s.oCh ≠ 0 ∧ s.oCh.toNat ≤ s.cfg.maxCh ∧ gainOk k s.oGain = true ∧ s.oBuf.toNat % elemBytes k = 0 ∧
      s.oBuf.toNat + s.oLen.toNat ≤ 2 ^ s.cfg.aw := by
  unfold failedCheck at h
  rw [hk] at h
  split at h
  · simp at h
  · simp at h
  · next k' _ hk' =>
    obtain rfl : k = k' := by simpa using hk'
    split at h
    · simp at h
    split at h
    · simp at h
    split at h
    · simp at h
    split at h
    · simp at h
    split at h
    · simp at h
    exact ⟨‹_›, by omega, by simp_all, by omega, by omega⟩

/-- What the execution of an accepted packet does. -/
theorem runPacket_next {p : Packet} {s t : State} (h : runPacket p s = .next t) :
    (∃ d, decodePacket p = some (.resolve d) ∧ execResolve d s = .next t) ∨
    (∃ ch buf len gain, decodePacket p = some (.transform ch buf len gain) ∧
      execTransform ch buf len gain s = .next t) ∨
    (decodePacket p = none ∧ t = s.raise (p.w0.extractLsb' 0 4) .illegalCommand 0) := by
  unfold runPacket at h
  split at h
  · next i hi =>
    rcases decodePacket_cases hi with ⟨d, rfl⟩ | ⟨ch, buf, len, gain, rfl⟩
    · exact .inl ⟨d, hi, h⟩
    · exact .inr (.inl ⟨ch, buf, len, gain, hi, h⟩)
  · exact .inr (.inr ⟨‹_›, by simpa using h.symm⟩)

/-- The cases of a step of the core by itself. -/
inductive CoreNext (s t : State) : Prop where
  /-- an idle core -/
  | idle (hb : s.busy = false) (ht : t = s)
  /-- the accepted packet is executed -/
  | packet (hb : s.busy = true) (p : Packet) (hc : s.cmd = some p) (h : runPacket p s.takeCmd = .next t)
  /-- the kernel that `KSEL` names runs -/
  | walk (hb : s.busy = true) (hc : s.cmd = none) (k : Kernel) (hk : s.ksel = some k)
      (h : WalkNext (elemBytes k) (kernelFn k s.draws) s t)
  /-- a walk with no kernel -/
  | noKernel (hb : s.busy = true) (hc : s.cmd = none) (hk : s.ksel = none) (ht : t = s.raiseTransform .notResolved)

theorem coreStep_next {s t : State} (h : coreStep s = .next t) : CoreNext s t := by
  unfold coreStep at h
  split at h
  · split at h
    · exact .packet ‹_› _ ‹_› h
    · next k hc hk => exact .walk ‹_› hc k hk (walkStep_next (by rwa [← exec_instr]))
    · exact .noKernel ‹_› ‹_› ‹_› (by simpa using h.symm)
  · exact .idle (by simpa using ‹¬ s.busy = true›) (by simpa using h.symm)

/-- What the outside does next plays no part in a step of the core. -/
theorem coreStep_withHost {s t : State} (es : List HostEvent) (h : coreStep s = .next t) :
    coreStep (s.withHost es) = .next (t.withHost es) := by
  unfold coreStep
  rw [withHost_busy, withHost_cmd, withHost_ksel]
  cases coreStep_next h with
  | idle hb ht => simp only [hb, ht, Bool.false_eq_true, if_false]
  | packet hb p hc h =>
    simp only [hb, hc, if_true]
    unfold runPacket
    rcases runPacket_next h with ⟨d, hd, h⟩ | ⟨ch, buf, len, gain, hd, h⟩ | ⟨hd, ht⟩
    · simp only [hd, exec, execResolve]
      rcases execResolve_next h with ⟨k, hk, ht⟩ | ⟨hk, ht⟩ <;> simp only [hk, ht] <;> rfl
    · simp only [hd, exec, execTransform]
      have hw : failedCheck ((s.withHost es).takeCmd.latch ch buf len gain) =
          failedCheck (s.takeCmd.latch ch buf len gain) := rfl
      rcases execTransform_next h with ⟨e, he, ht⟩ | ⟨he, ht⟩ <;> simp only [hw, he, ht] <;> rfl
    · simp only [hd, ht]; rfl
  | walk hb hc k hk h =>
    simp only [hb, hc, hk, if_true]
    rw [exec_instr]
    exact walkStep_withHost es (walkStep_of_next h)
  | noKernel hb hc hk ht => simp only [hb, hc, hk, ht, if_true]; rfl

/-- The cases of a step of the machine that answers a next state. -/
inductive StepNext (s t : State) : Prop where
  /-- the core by itself -/
  | core (u : State) (hu : coreTurn s u) (h : coreStep u = .next t)
  /-- a packet is accepted -/
  | accept (p : Packet) (rest : List HostEvent) (hb : s.busy = false) (hh : s.host = .command p :: rest)
      (ht : t = (s.withHost rest).accept p)
  /-- reset -/
  | reset (rest : List HostEvent) (hh : s.host = .reset :: rest) (ht : t = (s.withHost rest).applyReset)
  /-- the host stores bytes outside a `TRANSFORM` in flight -/
  | store (a : Nat) (bs : List Byte) (rest : List HostEvent) (hh : s.host = .store a bs :: rest)
      (hr : touchesTransform s a bs.length = false)
      (ht : t = (s.withHost rest).storeBytes a (bs.take (2 ^ s.cfg.aw - a)))
  /-- nothing but the host's events or the platform's regions changes -/
  | quiet (es : List HostEvent) (rs : List Region) (hh : ∀ p, s.host ≠ .command p :: es)
      (ht : t = (s.withHost es).withRegions rs)

/-- Whether an access meets the region in flight does not depend on the events still to come. -/
theorem touchesTransform_withHost (s : State) (es : List HostEvent) (a n : Nat) :
    touchesTransform (s.withHost es) a n = touchesTransform s a n := by
  unfold touchesTransform inFlight
  rw [withHost_busy, withHost_cmd]
  split
  · split
    · rfl
    · split
      · next ch buf len gain _ =>
        have h1 : failedCheck ((s.withHost es).latch ch buf len gain) = failedCheck (s.latch ch buf len gain) := rfl
        rw [h1]
        split <;> rfl
      · rfl
  · rfl

theorem machineStep_next {s t : State} (h : machineStep s = .next t) : StepNext s t := by
  unfold machineStep at h
  split at h
  · next hh => exact .core s (.inl ⟨hh, rfl⟩) h
  · next p rest hh =>
    split at h
    · exact .core s (.inr (.inl ⟨‹_›, ⟨p, rest, hh⟩, rfl⟩)) h
    · exact .accept p rest (by simpa using ‹¬ s.busy = true›) hh (by simpa using h.symm)
  · next rest hh => exact .reset rest hh (by simpa using h.symm)
  · next a bs rest hh =>
    unfold hostStore at h
    split at h
    · simp at h
    · next hr => exact .store a bs rest hh (by simpa [touchesTransform_withHost] using hr) (by simpa using h.symm)
  · next a n rest hh =>
    unfold hostLoad at h
    split at h
    · simp at h
    · exact .quiet rest s.regions (by simp [hh]) (by simpa [State.withRegions, State.withHost] using h.symm)
  · next rs rest hh => exact .quiet rest rs (by simp [hh]) (by simpa using h.symm)
  · next rest hh =>
    exact .quiet rest s.regions (by simp [hh]) (by simpa [State.withRegions, State.withHost] using h.symm)
  · next n rest hh => exact .core _ (.inr (.inr ⟨n, rest, hh, rfl⟩)) h

/-- When it is the core's turn, the step is the core's. -/
theorem step_coreTurn {s u : State} (h : coreTurn s u) : step s = coreStep u := by
  unfold step machineStep
  rcases h with ⟨hh, rfl⟩ | ⟨hb, ⟨p, rest, hh⟩, rfl⟩ | ⟨n, rest, hh, rfl⟩
  · rw [hh]
  · rw [hh]; simp only [hb, if_true]
  · rw [hh]; rfl

/-- A core's turn changes at most the events still to come. -/
theorem coreTurn_withHost {s u : State} (h : coreTurn s u) : ∃ es, u = s.withHost es := by
  rcases h with ⟨-, rfl⟩ | ⟨-, -, rfl⟩ | ⟨n, rest, -, rfl⟩
  · exact ⟨u.host, rfl⟩
  · exact ⟨u.host, rfl⟩
  · exact ⟨_, rfl⟩

/-- An answered access lies inside the address space. -/
theorem inside_of_answered {s : State} {k : AccessKind} {a n : Nat} (h : portAnswer s k a n = .ok) :
    a + n ≤ 2 ^ s.cfg.aw := by
  unfold portAnswer at h
  split at h
  · simp at h
  · split at h
    · simp at h
    · next h' => simp only [Bool.or_eq_true, decide_eq_true_eq, not_or, not_lt] at h'; exact h'.1

end Sys2Proof.Machine
end

