-- ==== Sys2Proof/Laws/Run.lean ====
section
/-! SUPPORT. What proofs about a whole `TRANSFORM` use: runs of the machine, an element written and read back, accesses to a
buffer of ordinary memory, and that a kernel gives a pattern of its width on every operand. -/

namespace Sys2Proof.Machine

/-- One step of a run. -/
theorem run_succ (M : Host.Core) (m : Nat) (s t : M.State) (h : M.step s = .next t) : M.run (m + 1) s = M.run m t := by
  rw [Host.Core.run.eq_def]
  simp only [h]

/-- A run of no steps stays. -/
theorem run_zero_next {M : Host.Core} {s u : M.State} (h : M.run 0 s = .next u) : s = u := by
  simpa [Host.Core.run] using h

/-- A longer run that answers a next state begins with a step that does. -/
theorem run_succ_next {M : Host.Core} {m : Nat} {s u : M.State} (h : M.run (m + 1) s = .next u) :
    ∃ t, M.step s = .next t ∧ M.run m t = .next u := by
  rw [Host.Core.run.eq_def] at h
  simp only at h
  split at h
  · exact ⟨_, ‹_›, h⟩
  · simp at h
  · simp at h

/-- A run of `m` steps that answers a next state goes on from that state. -/
theorem run_append (M : Host.Core) {m n : Nat} {s u : M.State} (h : M.run m s = .next u) :
    M.run (m + n) s = M.run n u := by
  induction m generalizing s with
  | zero => rw [run_zero_next h, Nat.zero_add]
  | succ m ih =>
    obtain ⟨t, ht, h⟩ := run_succ_next h
    rw [show m + 1 + n = (m + n) + 1 by omega, run_succ M _ s t ht]
    exact ih h

/-- A core left to itself for `m` steps does the same while the outside waits, whatever the outside does then. -/
theorem run_wait {m j : Nat} {s u : State} {rest : List HostEvent}
    (h : Host.Core.run Sys2Proof.core m (s.withHost []) = .next u) :
    Host.Core.run Sys2Proof.core m (s.withHost (.wait (m + j) :: rest)) = .next (u.withHost (.wait j :: rest)) ∧
      u.host = [] := by
  induction m generalizing s with
  | zero =>
    obtain rfl : s.withHost [] = u := run_zero_next h
    rw [Nat.zero_add]
    exact ⟨rfl, rfl⟩
  | succ m ih =>
    obtain ⟨t, ht, h⟩ := run_succ_next h
    have hc : coreStep (s.withHost []) = .next t := ht
    have h1 := coreStep_withHost (.wait (m + j) :: rest) hc
    have h2 : step (s.withHost (.wait (m + 1 + j) :: rest)) = .next (t.withHost (.wait (m + j) :: rest)) := by
      rw [show m + 1 + j = m + j + 1 by omega]
      exact h1
    have h3 : t.withHost [] = t := (Host.Outcome.next.inj (hc.symm.trans (coreStep_withHost (s := s.withHost []) [] hc))).symm
    obtain ⟨h4, h5⟩ := ih (s := t) (by rw [h3]; exact h)
    exact ⟨(run_succ Sys2Proof.core m _ _ h2).trans h4, h5⟩

/-- A pattern of `8w` bits split into bytes and assembled. -/
theorem assemble_splitBytes (o : ByteOrder) (w : Nat) (v : Word) (hv : v.toNat < 2 ^ (8 * w)) :
    assemble o (splitBytes o w v) = v := by
  apply BitVec.eq_of_toNat_eq
  have := v.isLt
  cases o <;> simp only [assemble, splitBytes, List.reverse_reverse, BitVec.toNat_ofNat, bytesToNat_natToBytes] <;>
    rw [Nat.mod_eq_of_lt hv] <;> omega

/-- Storing element `j` leaves the other elements. -/
theorem elemAt_other {s t : State} {w i j : Nat} {bs : List Byte} (hl : bs.length = w) (hij : i ≠ j) (hcfg : t.cfg = s.cfg)
    (hb : t.oBuf = s.oBuf) (hm : t.mem = memPutBytes s.mem (s.oBuf.toNat + j * w) bs) : elemAt t w i = elemAt s w i := by
  unfold elemAt elemAddr
  rw [hcfg, hb, hm, memBytes_putBytes_apart]
  rw [hl]
  rcases lt_or_gt_of_ne hij with h | h
  · left
    have : (i + 1) * w ≤ j * w := Nat.mul_le_mul_right _ h
    rw [Nat.add_mul] at this; omega
  · right
    have : (j + 1) * w ≤ i * w := Nat.mul_le_mul_right _ h
    rw [Nat.add_mul] at this; omega

/-- An access inside a buffer of ordinary memory is answered. -/
theorem portAnswer_ok {s : State} (k : AccessKind) {a n : Nat} (hb : bufferOrdinary s s.oBuf s.oLen) (h1 : s.oBuf.toNat ≤ a)
    (h2 : a + n ≤ s.oBuf.toNat + s.oLen.toNat) (h3 : s.oBuf.toNat + s.oLen.toNat ≤ 2 ^ s.cfg.aw) :
    portAnswer s k a n = .ok := by
  have hm : ∀ r ∈ s.regions, r.meets a n = false := by
    intro r hr
    have := hb r hr
    unfold Region.meets at *
    simp only [decide_eq_false_iff_not, not_and] at *
    omega
  unfold portAnswer
  rw [if_neg, if_neg]
  · simp only [Bool.or_eq_true, not_or, decide_eq_true_eq, Bool.not_eq_true, List.any_eq_false, Bool.and_eq_true, not_and]
    refine ⟨by omega, fun r hr _ => ?_⟩
    rw [hm r hr]
  · simp only [Bool.not_eq_true, List.any_eq_false, Bool.and_eq_true, not_and]
    intro r hr _
    simp [hm r hr]

theorem patternOf_lt {t : Fmt} (ht : IeeeFmt t) (sg : Bool) {ex fr : Nat} (he : ex < 2 ^ t.ew) (hf : fr < 2 ^ t.fw) :
    (patternOf t sg ex fr).toNat < 2 ^ (1 + t.ew + t.fw) := by
  rw [patternOf_toNat ht sg he hf]
  have hs := Bool.toNat_le sg
  rcases ht with rfl | rfl <;> simp only [binary32, binary64] at * <;> omega

theorem fencode_lt {t : Fmt} (ht : IeeeFmt t) (free : Word) {v : FVal} (h : fvalNormal t v) :
    (fencode t free v).toNat < 2 ^ (1 + t.ew + t.fw) := by
  have hx := fmtExpMax_lt ht
  cases v with
  | nan =>
    obtain ⟨sg, fr, h0, hfr, he⟩ := nanPattern_form ht free
    change (nanPattern t free).toNat < _
    rw [he]; exact patternOf_lt ht _ hx.2 hfr
  | inf sg => exact patternOf_lt ht _ hx.2 (by positivity)
  | fin sg m e =>
    rw [fencode_fin]
    rcases h with ⟨he, hm⟩ | ⟨h1, h2, h3, h4⟩
    · rw [if_pos hm]; exact patternOf_lt ht _ (by positivity) hm
    · rw [fmtPrec, pow_succ] at h2
      have hx' : (e + t.fw + fmtBias t).toNat < fmtExpMax t := by
        rcases ht with rfl | rfl <;> simp only [binary32, binary64, fmtEmin, fmtEmax, fmtBias, fmtExpMax] at * <;> omega
      rw [if_neg (by omega)]; exact patternOf_lt ht _ (by omega) (by omega)

/-- With an accepted gain a kernel gives a pattern of its width, whatever the samples are. -/
theorem kernelFn_some (k : Kernel) (d : Nat) (g raw prv : Word) (h : gainOk k g = true) :
    ∃ out, kernelFn k d g raw prv = some out ∧ out.toNat < 2 ^ (8 * elemBytes k) := by
  have hint : ∀ n sg, n ≤ 64 → (gainExact g).isSome = true → ∃ out, kernInt n sg g raw prv = some out ∧ out.toNat < 2 ^ n := by
    intro n sg hn h
    obtain ⟨x, hx⟩ := Option.isSome_iff_exists.1 h
    refine ⟨_, by simp only [kernInt, hx, Option.map_some]; rfl, ?_⟩
    rw [BitVec.toNat_setWidth]
    exact lt_of_le_of_lt (Nat.mod_le _ _) (BitVec.isLt _)
  cases k
  case f32 =>
    obtain ⟨x, hx⟩ := Option.isSome_iff_exists.1 h
    refine ⟨_, by simp only [kernelFn, kernF32, hx, Option.map_some]; rfl, ?_⟩
    exact fencode_lt (.inl rfl) _ (fclamp_normal (.inl rfl) (floatSum_normal _ _ _ _))
  case f64 =>
    obtain ⟨x, hx⟩ := Option.isSome_iff_exists.1 h
    refine ⟨_, by simp only [kernelFn, kernF64, hx, Option.map_some]; rfl, ?_⟩
    exact fencode_lt (.inr rfl) _ (fclamp_normal (.inr rfl) (floatSum_normal _ _ _ _))
  all_goals exact hint _ _ (by decide) h

end Sys2Proof.Machine
end

