-- ==== Sys2Proof/Tests/Slice0.lean ====
section
/-! SUPPORT. The model's own tests. Expected values are those of spec/95_test_vectors.md and of the encodings written out in
spec/30_encoding.md; the section is named at each group. The second half holds a witness for the hypotheses of every
obligation that has some. -/

open Sys2Proof Sys2Proof.Machine

namespace Sys2Proof.Tests

/-! ### WellFormed: an instruction in the wrong object is refused -/

theorem test_kernel_row_is_no_packet : Instr.fitsPacket .kU8 = false ∧ Instr.fitsPacket .kF64 = false := by decide
theorem test_command_is_no_descriptor :
    Instr.fitsDescriptor (.transform 1 0 0 0) = false ∧ Instr.fitsDescriptor (.resolve ⟨8, true, false, false, 0, 1⟩) = false := by
  decide
theorem test_no_packet_for_kernel_row : encodePacket .kS16 = none ∧ encodeDescriptor (.transform 1 0 0 0) = none := by decide

/-! ### Decoding: words written out from the rows of 30_encoding.md R82, R83, R88 and R105 -/

/-- `OP = 1`, `FD`: `CH = 2`, `BE`, `SGN`, `INT` set, `BW = 16` (R105). -/
theorem test_decode_resolve :
    decodePacket ⟨0b0001, 0x0000000200000710, 0, 0⟩ = some (.resolve ⟨16, true, true, true, 0, 2⟩) := by decide
/-- `OP = 2`, `CH` in `W0[63:32]` (R105). -/
theorem test_decode_transform :
    decodePacket ⟨0x0000000200000002, 0x2000, 0x10, 0x3FF8000000000000⟩ =
      some (.transform 2 0x2000 0x10 0x3FF8000000000000) := by decide
theorem test_decode_kU8 : decodeTableWord 32 0x00000108 = some .kU8 := by decide
theorem test_decode_kS8 : decodeTableWord 32 0x00000308 = some .kS8 := by decide
theorem test_decode_kU16 : decodeTableWord 32 0x00000110 = some .kU16 := by decide
theorem test_decode_kS16 : decodeTableWord 32 0x00000310 = some .kS16 := by decide
theorem test_decode_kU32 : decodeTableWord 32 0x00000120 = some .kU32 := by decide
theorem test_decode_kS32 : decodeTableWord 32 0x00000320 = some .kS32 := by decide
theorem test_decode_kU64 : decodeTableWord 32 0x00000140 = some .kU64 := by decide
theorem test_decode_kS64 : decodeTableWord 32 0x00000340 = some .kS64 := by decide
/-- `SGN` is ignored by the floating-point rows (R88). -/
theorem test_decode_kF32 : decodeTableWord 32 0x00000020 = some .kF32 ∧ decodeTableWord 32 0x00000220 = some .kF32 := by
  decide
theorem test_decode_kF64 : decodeTableWord 32 0x00000040 = some .kF64 ∧ decodeTableWord 32 0x00000240 = some .kF64 := by
  decide
/-- `BE` is ignored, a reserved bit or a width of 24 is not (R88). -/
theorem test_descriptor_edges :
    decodeDescriptor 0x0000000100000508 = some .kU8 ∧ decodeDescriptor 0x0000000100000908 = none ∧
      decodeDescriptor 0x0000000100000318 = none := by decide
/-- A table word placed for the step runs as the first instruction after reset. -/
theorem test_table_word_runs :
    step (State.reset.withFetchWord 64 1) =
        exec (.resolve ⟨0, false, false, false, 0, 0⟩) { State.reset with busy := true } ∧
      step (State.reset.withFetchWord 32 0x108) = exec .kU8 (State.reset.withFetchWord 32 0x108) := by
  constructor <;> rfl

/-! ### One command (95_test_vectors.md L2.2 to L2.5) -/

/-- An idle core with the kernel resolved. -/
def idle (k : Option Kernel) : State := { State.reset with ds := k.isSome, ksel := k }

/-- The next state, as an option. -/
def after (o : Host.Outcome State Fault Refusal) : Option State :=
  match o with
  | .next t => some t
  | .fault _ => none
  | .refused _ => none

/-- L2.4: an unsupported format discards the selection and answers `0xF011`. -/
theorem test_resolve_fails :
    (after (exec (.resolve ⟨24, true, false, false, 0, 1⟩) (idle (some .f64)))).map
      (fun t => (t.ds, t.ksel, t.responses)) = some (false, none, [⟨0xF011, 0⟩]) := by decide
/-- L2.4: `RESOLVE.F64` on a core resolved to `K_S16` answers `0xB101`. -/
theorem test_resolve_replaces :
    (after (exec (.resolve ⟨64, false, false, false, 0, 1⟩) (idle (some .s16)))).map
      (fun t => (t.ds, t.ksel, t.responses)) = some (true, some .f64, [⟨0xB101, 0⟩]) := by decide
/-- L2.5: the gain whose binary32 form is an infinity is refused by `K_F32` with `0xA162` only. -/
theorem test_transform_bad_gain :
    (after (exec (.transform 2 0x1000 8 0x47EFFFFFF0000000) (idle (some .f32)))).map
        (fun t => (t.busy, t.responses)) = some (false, [⟨0xA162, 0x1000⟩]) ∧
      (after (exec (.transform 2 0x1000 8 0x47EFFFFFEFFFFFFF) (idle (some .f32)))).map (·.busy) = some true ∧
      (after (exec (.transform 2 0x1000 8 0x47EFFFFFF0000000) (idle (some .f64)))).map (·.busy) = some true := by
  decide
/-- L2.5: `K_F64` at `0x1004` is unaligned, `0xB172`. -/
theorem test_transform_unaligned :
    (after (exec (.transform 1 0x1004 16 0x3FF0000000000000) (idle (some .f64)))).map (·.responses) =
      some [⟨0xB172, 0x1004⟩] := by decide

/-! ### One position of each kernel (95_test_vectors.md L2.6, L2.7) -/

/-- A `TRANSFORM` of kernel `k` over two elements at `0x1000`, standing at the second one: `raw` there, `prv` before it. -/
def walking (k : Kernel) (gain raw prv : Word) : State :=
  { idle (some k) with
    busy := true
    oBuf := 0x1000
    oLen := BitVec.ofNat 64 (2 * elemBytes k)
    oCh := 1
    oGain := gain
    f := 1
    c := 0
    out := none
    prv := [(0, prv)]
    mem := memPutBytes (memPutBytes [] 0x1000 (splitBytes .le (elemBytes k) prv)) (0x1000 + elemBytes k)
      (splitBytes .le (elemBytes k) raw) }

/-- The read of the position, then its write: the element written, the raw sample kept for the channel, and the frame reached. -/
def position (k : Kernel) (gain raw prv : Word) : Option (Word × Option Word × Nat) :=
  ((after (step (walking k gain raw prv))).bind fun t => after (step t)).map fun t =>
    (elemAt t (elemBytes k) 1, sparseFind 0 t.prv, t.f)

theorem test_kU8_truncates : position .u8 0x3FE0000000000000 0x07 0x04 = some (0x08, some 0x07, 2) := by decide
theorem test_kU8_saturates : position .u8 0x3FF0000000000000 0x80 0x00 = some (0xFF, some 0x80, 2) := by decide
theorem test_kS8_truncates_to_zero : position .s8 0x3FE0000000000000 0xFD 0x00 = some (0xFC, some 0xFD, 2) := by
  decide
theorem test_kS8_saturates : position .s8 0x4000000000000000 0x80 0x7F = some (0x80, some 0x80, 2) := by decide
theorem test_kU16_half : position .u16 0x3FF8000000000000 0x03E9 0x03E8 = some (0x03EA, some 0x03E9, 2) := by decide
theorem test_kS16_negative : position .s16 0x3FF0000000000000 0x0000 0x0064 = some (0xFF9C, some 0x0000, 2) := by
  decide
theorem test_kU32_tiny_gain :
    position .u32 0x3870000000000000 0x80000000 0xFFFFFFFF = some (0x80000000, some 0x80000000, 2) := by decide
theorem test_kS32_inexact_gain :
    position .s32 0x3FB999999999999A 0xC46535F9 0x3B9AC9C1 = some (0xB87973FF, some 0xC46535F9, 2) := by decide
theorem test_kU64_inexact_gain :
    position .u64 0x3FB999999999999A 0x803FFFFFFFFFFFFB 0 = some (0x8D13333333333361, some 0x803FFFFFFFFFFFFB, 2) := by
  decide
theorem test_kS64_large :
    position .s64 0x3FE0000000000000 0xFFFFFFFFFFFFFFFB 0x8000000000000000 =
      some (0x3FFFFFFFFFFFFFF8, some 0xFFFFFFFFFFFFFFFB, 2) := by decide
theorem test_kF32_rounds_three_times :
    position .f32 0x3FB999999999999A 0x3F800000 0x3F666666 = some (0x3F8147AE, some 0x3F800000, 2) := by decide
theorem test_kF32_clamps_infinity :
    position .f32 0x3FF0000000000000 0x3F800000 0x7F800000 = some (0xFF7FFFFF, some 0x3F800000, 2) := by decide
theorem test_kF64_rounds_three_times :
    position .f64 0x3FB999999999999A 0x3FF0000000000000 0x3FECCCCCCCCCCCCD =
      some (0x3FF028F5C28F5C29, some 0x3FF0000000000000, 2) := by decide +kernel
theorem test_kF64_subnormal : position .f64 0x3FF8000000000000 1 0 = some (3, some 1, 2) := by decide +kernel
/-- L2.7: infinity minus infinity is a NaN, whichever one (R182). -/
theorem test_kF32_nan (free : Word) :
    fdecode binary32 ((kernF32 free 0x3FF0000000000000 0x7F800000 0x7F800000).getD 0) = .nan := by
  have h : floatSum binary32 (.fin false 8388608 (-23)) (fdecode binary32 0x7F800000) (fdecode binary32 0x7F800000) = .nan := by
    decide
  have hg : gainF32 0x3FF0000000000000 = some (.fin false 8388608 (-23)) := by decide
  simp only [kernF32, hg, Option.map_some, Option.getD_some, fkern, h]
  simp only [fclamp, flt, fmaxFinite, Bool.false_eq_true, if_false]
  exact fdecode_fencode (.inl rfl) free trivial

/-! ### Byte order, frame 0 and reset -/

/-- 20_memory.md R55: the bytes `12 34` read `0x3412` in `LE` and `0x1234` in `BE`. -/
theorem test_byte_orders :
    assemble .le [0x12, 0x34] = 0x3412 ∧ assemble .be [0x12, 0x34] = 0x1234 ∧
      splitBytes .be 4 0x3F800000 = [0x3F, 0x80, 0x00, 0x00] := by decide
/-- 40_transform.md R117: frame 0 is loaded, with one read and no write. -/
theorem test_frame_zero :
    (after (step { walking .u8 0 0x07 0x04 with f := 0, prv := [] })).map (fun t => (t.f, t.c, t.prv, t.accesses)) =
      some (1, 0, [(0, 0x04)], [⟨.read, 0x1000, 1⟩]) := by decide
/-- 40_transform.md R121: one access a step; the result waits between the read and the write. -/
theorem test_one_access :
    (after (step (walking .u8 0x3FE0000000000000 0x07 0x04))).map (fun t => (t.out, t.f, t.accesses)) =
        some (some 0x08, 1, [⟨.read, 0x1001, 1⟩]) ∧
      (after (step { walking .u8 0x3FE0000000000000 0x07 0x04 with out := some 0x08 })).map
        (fun t => (t.out, t.f, t.accesses)) = some (none, 2, [⟨.write, 0x1001, 1⟩]) := by decide
/-- 70_reset_and_hazards.md R242: reset between a read and its write. -/
theorem test_reset_inside :
    (after (step { walking .u8 0 0x07 0x04 with out := some 0x08, host := [.reset] })).map
      (fun t => (t.ksel, t.busy, t.out, t.prv)) = some (none, false, none, []) := by decide
theorem test_reset_keeps_memory :
    (after (step { walking .u8 0 0x07 0x04 with out := some 0x08, host := [.reset] })).map (fun t => (t.mem, t.responses)) =
      some ((walking .u8 0 0x07 0x04).mem, []) := by decide
/-- 70_reset_and_hazards.md R242: a `RESOLVE` abandoned by reset is not answered. -/
theorem test_reset_abandons_resolve :
    (after (step { idle (some .f64) with busy := true, cmd := some ⟨1, 0x108, 0, 0⟩, host := [.reset] })).map
      (fun t => (t.ksel, t.busy, t.cmd, t.responses)) = some (none, false, none, []) := by decide
/-- 10_state.md R31: the acceptance of a packet sets `BUSY` and answers nothing yet. -/
theorem test_accept :
    (after (step { idle none with host := [.command ⟨1, 0x108, 0, 0⟩] })).map (fun t => (t.busy, t.cmd, t.host, t.responses)) =
      some (true, some ⟨1, 0x108, 0, 0⟩, [], []) := by decide

/-! ### Witnesses: for every obligation with hypotheses, operands and a state that meet them together -/

/-- A next state that passes a check. -/
theorem exists_next {o : Host.Outcome State Fault Refusal} {P : State → Bool} (h : (after o).any P = true) :
    ∃ t, o = .next t ∧ P t = true := by
  unfold after at h
  split at h
  · exact ⟨_, rfl, by simpa using h⟩
  · simp at h
  · simp at h

/-- An idle state in the invariant. -/
theorem idle_inv (k : Option Kernel) (m : List Host.Cell) (es : List HostEvent) (rs : List Region) (hm : MemWf m)
    (hi : ∀ x ∈ m, x.1 < 2 ^ 64) : State.Inv { idle k with mem := m, host := es, regions := rs } where
  config := (by decide : Config.suggested.Ok)
  memory := hm
  memoryInside := hi
  selection := rfl
  prvForm := List.Pairwise.nil
  idle := fun _ => ⟨rfl, rfl⟩
  outside := fun _ => ⟨rfl, rfl⟩
  checked := fun h => by simp [State.inWalk, idle, State.reset] at h
  position := fun _ h => by simp [State.inWalk, idle, State.reset] at h
  prvValid := fun h => by simp [State.inWalk, idle, State.reset] at h
  prvNarrow := fun _ h => by simp [State.inWalk, idle, State.reset] at h
  waiting := fun _ _ h => by simp [State.inWalk, idle, State.reset] at h

/-- A core that has accepted a packet and not executed it. -/
def pending (k : Option Kernel) (p : Packet) : State := { idle k with busy := true, cmd := some p }

theorem pending_inv (k : Option Kernel) (p : Packet) : (pending k p).Inv where
  config := (by decide : Config.suggested.Ok)
  memory := memWf_reset
  memoryInside := fun x h => by simp [pending, idle, State.reset] at h
  selection := rfl
  prvForm := List.Pairwise.nil
  idle := fun h => by simp [pending] at h
  outside := fun _ => ⟨rfl, rfl⟩
  checked := fun h => by simp [State.inWalk, pending] at h
  position := fun _ h => by simp [State.inWalk, pending] at h
  prvValid := fun h => by simp [State.inWalk, pending] at h
  prvNarrow := fun _ h => by simp [State.inWalk, pending] at h
  waiting := fun _ _ h => by simp [State.inWalk, pending] at h

/-- A `TRANSFORM` in flight, in the invariant: at a read, and with its result waiting. -/
def inFlightAt (out : Option Word) : State := { walking .u8 0x3FF0000000000000 0x80 1 with out := out }

theorem inFlightAt_frames (out : Option Word) : frames (inFlightAt out) (elemBytes .u8) = 2 :=
  (by decide : frames (walking .u8 0x3FF0000000000000 0x80 1) (elemBytes .u8) = 2)

theorem inFlightAt_inv (out : Option Word) (h : ∀ v, out = some v → v.toNat < 2 ^ 8) : (inFlightAt out).Inv where
  config := (by decide : Config.suggested.Ok)
  memory := (by decide : MemWf (walking .u8 0x3FF0000000000000 0x80 1).mem)
  memoryInside := (by decide : ∀ x ∈ (walking .u8 0x3FF0000000000000 0x80 1).mem, x.1 < 2 ^ 64)
  selection := rfl
  prvForm := (by decide : SparseRising (walking .u8 0x3FF0000000000000 0x80 1).prv)
  idle := fun h => by simp [inFlightAt, walking] at h
  outside := fun h => absurd ⟨rfl, rfl⟩ h
  checked := fun _ => (by decide : failedCheck (walking .u8 0x3FF0000000000000 0x80 1) = none)
  position := fun k _ hk => by
    obtain rfl : Kernel.u8 = k := by simpa [inFlightAt, walking, Tests.idle] using hk
    rw [inFlightAt_frames]
    exact ⟨(by decide : 1 ≤ 2), (by decide : 0 < 1), fun _ => rfl⟩
  prvValid := fun _ ch => by
    by_cases h : ch = 0 <;> simp [inFlightAt, walking, validChannels, sparseFind, h]
  prvNarrow := fun k _ hk => by
    obtain rfl : Kernel.u8 = k := by simpa [inFlightAt, walking, Tests.idle] using hk
    exact (by decide : ∀ x ∈ (walking .u8 0x3FF0000000000000 0x80 1).prv, x.2.toNat < 2 ^ (8 * elemBytes .u8))
  waiting := fun k v _ hk hv => by
    obtain rfl : Kernel.u8 = k := by simpa [inFlightAt, walking, Tests.idle] using hk
    rw [inFlightAt_frames]
    exact ⟨Nat.le_refl _, (by decide : 1 < 2), h v hv⟩

/-- At a read. -/
abbrev reading : State := inFlightAt none

/-- With the result `0xFF` waiting. -/
abbrev writing : State := inFlightAt (some 0xFF)

theorem reading_inv : reading.Inv := inFlightAt_inv none (by simp)
theorem writing_inv : writing.Inv := inFlightAt_inv _ (by simp)

/-- A walk of kernel `k` whose result 9 waits. -/
def waiting (k : Kernel) : State := { walking k 0 5 1 with out := some 9 }

theorem witness_CommandsDecodeBack :
    encodePacket (.transform 0xFFFFFFFF 0x1000 4 0x3FF0000000000000) =
        some ⟨0xFFFFFFFF00000002, 0x1000, 4, 0x3FF0000000000000⟩ ∧
      decodePacket ⟨1, 0x0000000100000108, 0, 0⟩ = some (.resolve ⟨8, true, false, false, 0, 1⟩) := by decide

theorem witness_KernelRowsDecodeBack :
    encodeDescriptor .kS16 = some 0x0000000000000310 ∧ decodeDescriptor 0x0000000200000710 = some .kS16 := by decide

/-- Illegal at the edges: opcodes 0, 3 and 15, the lowest and the highest reserved bit, `CH`, `W2` and `W3` of a `RESOLVE`. -/
def illegalEdges : List Packet :=
  [⟨0, 0, 0, 0⟩, ⟨3, 0, 0, 0⟩, ⟨15, 0, 0, 0⟩, ⟨0x12, 0, 0, 0⟩, ⟨0x80000002, 0, 0, 0⟩, ⟨0x100000001, 0x108, 0, 0⟩,
    ⟨1, 0x108, 1, 0⟩, ⟨1, 0x108, 0, 0x8000000000000000⟩]

theorem witness_IllegalPacketsExactly :
    (∀ p ∈ illegalEdges, decodePacket p = none) ∧
      ((pending none ⟨3, 0, 0, 0⟩).Inv ∧ coreTurn (pending none ⟨3, 0, 0, 0⟩) (pending none ⟨3, 0, 0, 0⟩) ∧
        (pending none ⟨3, 0, 0, 0⟩).busy = true ∧ (pending none ⟨3, 0, 0, 0⟩).cmd = some ⟨3, 0, 0, 0⟩) ∧
      State.Inv { idle none with mem := [], host := [.command ⟨3, 0, 0, 0⟩], regions := [] } :=
  ⟨by decide, ⟨pending_inv _ _, .inl ⟨rfl, rfl⟩, rfl, rfl⟩, idle_inv _ _ _ _ (by decide) (by decide)⟩

theorem witness_SelectionIsTheMaskTable :
    (⟨.u8, 0x108, 0xFFFFFBFF⟩ : KernelRow) ∈ kernelTable ∧
      (⟨.u8, 0x108, 0xFFFFFBFF⟩ : KernelRow).hits ((0x0000000100000508 : Word).setWidth 32) = true ∧
      ∀ r ∈ kernelTable, r.hits ((0x0000000100000808 : Word).setWidth 32) = false := by decide

theorem witness_ResolvableDescriptors :
    (0x0000000000000908 : Word).toNat / 2 ^ 11 % 2 ^ 21 ≠ 0 ∧ (0x0000000080000108 : Word).toNat / 2 ^ 11 % 2 ^ 21 ≠ 0 ∧
      (0x0000000100000108 : Word).toNat % 2 ^ 32 = (0xFFFFFFFF00000108 : Word).toNat % 2 ^ 32 := by decide

theorem witness_KernelCodeBits :
    sel ⟨64, false, true, false, 0, 0⟩ = some .f64 ∧ sel ⟨64, true, true, false, 0, 0⟩ = some .s64 ∧
      kselCode (some .u8) = kselCode (some .u8) := by decide

theorem witness_ResolveCachesKernel : sel ⟨16, true, true, true, 0, 2⟩ = some .s16 := by decide

/-- No format: a width of 24, an 8-bit float, a reserved bit. -/
theorem witness_ResolveFailureDiscardsSelection :
    sel ⟨24, true, true, false, 0, 1⟩ = none ∧ sel ⟨8, false, false, false, 0, 1⟩ = none ∧
      sel ⟨8, true, false, false, 1, 1⟩ = none := by decide

theorem witness_ResolveIsIdempotent :
    ∃ t, exec (.resolve ⟨8, true, false, false, 0, 1⟩) (idle none) = .next t ∧
      (after (exec (.resolve ⟨8, true, false, false, 0, 1⟩) t)).isSome = true :=
  exists_next (P := fun t => (after (exec (.resolve ⟨8, true, false, false, 0, 1⟩) t)).isSome) (by decide)

theorem witness_ResolveIgnoresFields : (⟨32, false, true, true, 0, 5⟩ : Descriptor).int = false := rfl

theorem witness_TransformNeedsResolve : (idle none).ds = false := rfl

/-- One operand set for each check, in the order of 40_transform.md R111; the address space is cut to 16 bits for the last. -/
theorem witness_TransformChecksInOrder :
    (idle (some .u16)).ds = true ∧ (idle (some .u16)).ksel = some .u16 ∧
      ({ idle (some .u16) with cfg := ⟨16, 2, .le⟩ } : State).cfg.maxCh < (3 : BitVec 32).toNat ∧
      gainOk .u16 0x7FF0000000000000 = false ∧ gainOk .u16 0x3FF0000000000000 = true ∧
      (0x1001 : Word).toNat % elemBytes .u16 ≠ 0 ∧ (0xFFFE : Word).toNat % elemBytes .u16 = 0 ∧
      2 ^ ({ idle (some .u16) with cfg := ⟨16, 2, .le⟩ } : State).cfg.aw < (0xFFFE : Word).toNat + (3 : Word).toNat ∧
      (idle (some .u16)).cfg.maxCh = 2 ^ 32 - 1 := by decide

/-- At the end of the address space and at the largest channel count. -/
theorem witness_TransformStartsWalk :
    (idle (some .u16)).ds = true ∧ (idle (some .u16)).ksel = some .u16 ∧ (0xFFFFFFFF : BitVec 32) ≠ 0 ∧
      (0xFFFFFFFF : BitVec 32).toNat ≤ (idle (some .u16)).cfg.maxCh ∧ gainOk .u16 0xC008000000000000 = true ∧
      (0xFFFFFFFFFFFFFFFE : Word).toNat % elemBytes .u16 = 0 ∧
      (0xFFFFFFFFFFFFFFFE : Word).toNat + (2 : Word).toNat ≤ 2 ^ (idle (some .u16)).cfg.aw := by decide

theorem witness_BadGainPatterns :
    gainOk .f32 0x47EFFFFFEFFFFFFF = true ∧ gainOk .f32 0xC7EFFFFFF0000000 = false ∧
      gainOk .u8 0x7FEFFFFFFFFFFFFF = true ∧ gainOk .f64 0xFFF0000000000000 = false := by decide

/-- Frame 0 of a one-channel walk, and a buffer with no full frame. -/
theorem witness_FrameZeroIsLoaded :
    ({ walking .u16 0 7 4 with f := 0 } : State).busy = true ∧
      1 ≤ frames { walking .u16 0 7 4 with f := 0 } (elemBytes .u16) ∧
      portAnswer { walking .u16 0 7 4 with f := 0 } .read 0x1000 (elemBytes .u16) = .ok ∧
      ({ walking .u16 0 7 4 with f := 0 } : State).out = none ∧
      frames { walking .u16 0 7 4 with f := 0, oLen := 1 } (elemBytes .u16) = 0 := by decide

theorem witness_EightBitPosition :
    readDue 1 (walking .u8 0x3FF0000000000000 0x80 1) ∧
      gainExact (walking .u8 0x3FF0000000000000 0x80 1).oGain = some ⟨4503599627370496, -52⟩ ∧
      sparseFind 0 (walking .u8 0x3FF0000000000000 0x80 1).prv = some 1 ∧
      writeDue 1 9 (waiting .u8) := by unfold readDue writeDue; decide

theorem witness_SixteenBitPosition :
    readDue 2 (walking .s16 0xBFF0000000000000 0x8000 1) ∧
      gainExact (walking .s16 0xBFF0000000000000 0x8000 1).oGain = some ⟨-4503599627370496, -52⟩ ∧
      sparseFind 0 (walking .s16 0xBFF0000000000000 0x8000 1).prv = some 1 ∧
      writeDue 2 9 (waiting .s16) := by unfold readDue writeDue; decide

theorem witness_ThirtyTwoBitPosition :
    readDue 4 (walking .u32 0 5 1) ∧ gainExact (walking .u32 0 5 1).oGain = some ⟨0, -1074⟩ ∧
      sparseFind 0 (walking .u32 0 5 1).prv = some 1 ∧
      writeDue 4 9 (waiting .u32) := by unfold readDue writeDue; decide

theorem witness_SixtyFourBitPosition :
    readDue 8 (walking .s64 0 5 1) ∧ gainExact (walking .s64 0 5 1).oGain = some ⟨0, -1074⟩ ∧
      sparseFind 0 (walking .s64 0 5 1).prv = some 1 ∧
      writeDue 8 9 (waiting .s64) := by unfold readDue writeDue; decide

theorem witness_FloatPosition :
    (sparseFind 0 (walking .f32 0x3FF0000000000000 0x3F000000 1).prv = some 1 ∧
      readDue 4 (walking .f32 0x3FF0000000000000 0x3F000000 1) ∧
      gainF32 0x3FF0000000000000 = some (.fin false 8388608 (-23))) ∧
    sparseFind 0 (walking .f64 0x3FF0000000000000 1 1).prv = some 1 ∧
      readDue 8 (walking .f64 0x3FF0000000000000 1 1) ∧
      gainF64 0x3FF0000000000000 = some (.fin false 4503599627370496 (-52)) ∧
      writeDue 4 9 (waiting .f32) ∧ writeDue 8 9 (waiting .f64) := by unfold readDue writeDue; decide

/-- The walk past its last frame. -/
def ended : State := { walking .u8 0 7 4 with f := 2 }

theorem witness_WalkEndsCommand : ended.busy = true ∧ ended.out = none ∧ frames ended (elemBytes .u8) ≤ ended.f := by decide

/-- A walk whose second element cannot be read, or cannot be written. -/
def guarded (kind : RegionKind) : State := { walking .u8 0 7 4 with regions := [⟨0x1001, 1, kind⟩] }

theorem witness_MemoryErrorEndsCommand :
    (guarded .noRead).busy = true ∧ (guarded .noRead).out = none ∧
      (guarded .noRead).f < frames (guarded .noRead) (elemBytes .u8) ∧
      portAnswer (guarded .noRead) .read 0x1001 (elemBytes .u8) = .error ∧
      portAnswer { guarded .noWrite with out := some 9 } .read 0x1001 (elemBytes .u8) = .ok ∧
      portAnswer { guarded .noWrite with out := some 9 } .write 0x1001 (elemBytes .u8) = .error := by decide

theorem witness_KernelStepFrame :
    (∃ t, exec (Kernel.instr .u8) reading = .next t ∧ t.busy = true) ∧
      (∃ t, exec (Kernel.instr .u8) writing = .next t ∧ t.busy = true) ∧
      ∃ t, exec (Kernel.instr .u8) { walking .u8 0 7 4 with f := 0 } = .next t ∧ t.busy = true :=
  ⟨exists_next (P := (·.busy)) (by decide), exists_next (P := (·.busy)) (by decide),
    exists_next (P := (·.busy)) (by decide)⟩

theorem witness_CommandFrame :
    (∃ t, exec (.resolve ⟨8, true, false, false, 0, 1⟩) (idle none) = .next t ∧ t.ds = true) ∧
      ∃ t, exec (.transform 1 0x1000 4 0) (idle (some .u8)) = .next t ∧ t.busy = true :=
  ⟨exists_next (P := (·.ds)) (by decide), exists_next (P := (·.busy)) (by decide)⟩

/-! The numeric statements -/

theorem witness_ZeroGainKeepsIntegerSamples :
    (8 : Nat) ∈ [8, 16, 32, 64] ∧ ((0x8000000000000000 : Word) = 0 ∨ (0x8000000000000000 : Word) = 0x8000000000000000) := by
  decide

theorem witness_NoEdgeKeepsIntegerSamples : (64 : Nat) ∈ [8, 16, 32, 64] := by decide

theorem witness_NarrowingTruncatesInRange : (16 : Nat) ∈ [8, 16, 32, 64] := by decide

theorem witness_IntegerKernelInRationals :
    (32 : Nat) ∈ [8, 16, 32, 64] ∧ gainExact 0xBFF0000000000000 = some ⟨-4503599627370496, -52⟩ := by decide

theorem witness_IntegerKernelDirection :
    (0 ≤ dyadRat ⟨1, -1⟩ ∧ sampleVal true (-128 : BitVec 8) < sampleVal true (127 : BitVec 8)) ∧
      dyadRat ⟨1, 0⟩ = 1 ∧ dyadRat ⟨-1, 0⟩ = -1 := by
  refine ⟨⟨?_, by decide⟩, ?_, ?_⟩ <;> norm_num [dyadRat]

/-- Clause (a) at its least gain, and clause (b) at its widest significand and least exponent. -/
theorem witness_WideRoundingInvisible :
    (gainExact 0x3E40000000000000 = some ⟨4503599627370496, -79⟩ ∧ (1 : ℚ) / 2 ^ 27 ≤ |dyadRat ⟨4503599627370496, -79⟩|) ∧
      gainExact 0x3FEFFFFFFFFFFFE0 = some ⟨9007199254740960, -53⟩ ∧
      dyadRat ⟨9007199254740960, -53⟩ = (2 ^ 48 - 1 : Int) * (2 : ℚ) ^ (-48 : Int) ∧ |(2 ^ 48 - 1 : Int)| < 2 ^ 48 := by
  refine ⟨⟨by decide, ?_⟩, by decide, ?_, by decide⟩ <;> norm_num [dyadRat]

theorem witness_FloatRoundingInRationals : binary32 ∈ [binary32, binary64] := by decide

theorem witness_FloatOperationsInRationals : binary64 ∈ [binary32, binary64] := by decide

/-- A finite gain for each format, and one that `K_F32` converts to no finite number. -/
theorem witness_FloatKernelInRationals :
    fdecode binary64 0x3FF0000000000000 = .fin false 4503599627370496 (-52) ∧
      gainF32 0x3FF0000000000000 = some (.fin false 8388608 (-23)) ∧
      gainF64 0x3FF0000000000000 = some (.fin false 4503599627370496 (-52)) ∧ gainF32 0x47EFFFFFF0000000 = none := by decide

theorem witness_FloatOutputNeverInfinite :
    (floatSum binary32 (.fin false 1 0) (fdecode binary32 0x3F800000) (fdecode binary32 0x3F000000)).isFin = true := by
  decide

theorem witness_NaNResults :
    (FVal.fin false 0 0).isFin = true ∧
      floatSum binary32 (.fin false 1 0) (fdecode binary32 0x7F800000) (fdecode binary32 0x7F800000) = .nan ∧
      (0xFFFFFFFF : Word).toNat < 2 ^ (1 + binary32.ew + binary32.fw) ∧ fdecode binary32 0xFFFFFFFF = .nan := by
  decide

/-- `-0` with a product `+0`, a finite sample with a finite difference, and an infinite difference (R181). -/
theorem witness_FloatZeroGain :
    ((0x80000000 : Word).toNat < 2 ^ (1 + binary32.ew + binary32.fw) ∧ (fdecode binary32 0x80000000).isFin = true ∧
      (fsub binary32 (fdecode binary32 0x80000000) (fdecode binary32 0xBF800000)).isFin = true ∧
      (0x80000000 : Word) = patternOf binary32 true 0 0) ∧
    fsub binary32 (fdecode binary32 0x7F7FFFFF) (fdecode binary32 0xFF7FFFFF) = .inf false ∧
    fdecode binary32 0x7FC00000 = .nan := by decide

theorem witness_FloatNoEdge :
    ((0x3FC00000 : Word).toNat < 2 ^ (1 + binary32.ew + binary32.fw) ∧ (fdecode binary32 0x3FC00000).isFin = true ∧
      (0x3FC00000 : Word) ≠ patternOf binary32 true 0 0) ∧
    (fdecode binary64 0x8000000000000000).isFin = true ∧ (0x8000000000000000 : Word) = patternOf binary64 true 0 0 ∧
    (fdecode binary64 0x7FF0000000000000).isFin = false := by decide

/-! Memory and the machine -/

/-- The last byte of an eight-byte element, and one byte. -/
theorem witness_ByteOrderRoundTrip :
    (7 : Nat) < ([1, 2, 3, 4, 5, 6, 7, 8] : List Byte).length ∧ ([1, 2, 3, 4, 5, 6, 7, 8] : List Byte).length ≤ 8 ∧
      (0 : Nat) < ([0x12] : List Byte).length ∧ (8 : Nat) ≤ 8 := by decide

theorem witness_WrittenElementReadsBack : MemWf (walking .u16 0 7 4).mem ∧ (0 : Nat) ≠ posIndex (walking .u16 0 7 4) := by
  decide

theorem witness_StepKeepsInvariant :
    (reading.Inv ∧ ∃ t, step reading = .next t ∧ t.busy = true) ∧
      writing.Inv ∧ ∃ t, step writing = .next t ∧ t.busy = true :=
  ⟨⟨reading_inv, exists_next (P := (·.busy)) (by decide)⟩, writing_inv, exists_next (P := (·.busy)) (by decide)⟩

theorem witness_ResetMeetsInvariant : (⟨1, 1, .be⟩ : Config).Ok ∧ (⟨64, 2 ^ 32 - 1, .le⟩ : Config).Ok := by decide

/-- The packet of a `TRANSFORM` of four bytes at `0x1000` in two channels, with gain 1. -/
def issued : Packet := ⟨0x0000000200000002, 0x1000, 4, 0x3FF0000000000000⟩

/-- An idle core with that packet at its port, and events after it. -/
def readyWith (m : List Host.Cell) (es : List HostEvent) : State :=
  { idle (some .u8) with mem := m, host := .command issued :: es, regions := [⟨0xFF0, 0x10, .absent⟩] }

/-- An idle core with only that packet at its port. -/
abbrev ready (m : List Host.Cell) : State := readyWith m []

theorem witness_StepRunsWhatIsNext :
    ((ready []).busy = false ∧ (ready []).host = .command issued :: []) ∧
    (coreTurn (pending (some .u8) issued) (pending (some .u8) issued) ∧ (pending (some .u8) issued).cmd = some issued ∧
      decodePacket issued = some (.transform 2 0x1000 4 0x3FF0000000000000)) ∧
    (coreTurn { reading with host := [.wait 1] } { reading with host := [.wait 0] } ∧
      ({ reading with host := [.wait 1] } : State).inWalk ∧ reading.ksel = some .u8) ∧ (idle none).host = [] :=
  ⟨by decide, ⟨.inl ⟨rfl, rfl⟩, rfl, by decide⟩, ⟨.inr (.inr ⟨0, [], rfl, rfl⟩), ⟨rfl, rfl⟩, rfl⟩, rfl⟩

theorem witness_ResetInput : ({ writing with host := [.reset] } : State).host = .reset :: [] := rfl

theorem witness_SelectionChangesOnlyByResolveOrReset :
    ∃ t, step (pending none ⟨1, 0x108, 0, 0⟩) = .next t ∧ (t.ds != (pending none ⟨1, 0x108, 0, 0⟩).ds) = true :=
  exists_next (P := fun t => t.ds != (pending none ⟨1, 0x108, 0, 0⟩).ds) (by decide)

theorem witness_CoreWritesOnlyLaterFrames :
    writing.Inv ∧ (∀ a bs rest, writing.host ≠ .store a bs :: rest) ∧
      ∃ t, step writing = .next t ∧ (memByte t.mem 0x1001 != memByte writing.mem 0x1001) = true :=
  ⟨writing_inv, fun _ _ _ h => by simp [inFlightAt, walking, idle, State.reset] at h,
    exists_next (P := fun t => memByte t.mem 0x1001 != memByte writing.mem 0x1001) (by decide)⟩

theorem witness_OneResponsePerCommand :
    (∃ t, step (ready []) = .next t ∧ t.busy = true) ∧ ∃ t, step ended = .next t ∧ (!t.busy) = true :=
  ⟨exists_next (P := (·.busy)) (by decide), exists_next (P := fun t => !t.busy) (by decide)⟩

/-- The hypotheses that the statements about a whole `TRANSFORM` share. -/
theorem ready_meets (m : List Host.Cell) (es : List HostEvent) (hm : MemWf m) (hi : ∀ x ∈ m, x.1 < 2 ^ 64) :
    (readyWith m es).Inv ∧ (readyWith m es).busy = false ∧ (readyWith m es).host = .command issued :: es ∧
      decodePacket issued = some (.transform 2 0x1000 4 0x3FF0000000000000) ∧ (readyWith m es).ksel = some .u8 ∧
      failedCheck ((readyWith m es).latch 2 0x1000 4 0x3FF0000000000000) = none ∧
      bufferOrdinary (readyWith m es) 0x1000 4 := by
  refine ⟨idle_inv _ _ _ _ hm hi, rfl, rfl, by decide, rfl, ?_, ?_⟩
  · have : failedCheck ((ready []).latch 2 0x1000 4 0x3FF0000000000000) = none := by decide
    exact this
  · intro r hr
    obtain rfl : r = ⟨0xFF0, 0x10, .absent⟩ := by simpa [readyWith] using hr
    decide

theorem witness_TransformIsTheSharpeningFunction : (ready [(0x1000, 5), (0x1002, 9)]).Inv :=
  (ready_meets _ [] (by decide) (by decide)).1

theorem witness_TransformAccessSequence : bufferOrdinary (ready [(0x1001, 5)]) 0x1000 4 :=
  (ready_meets [(0x1001, 5)] [] (by decide) (by decide)).2.2.2.2.2.2

/-- Two memories that agree on channel 0 and differ on channel 1. -/
theorem witness_ChannelsAreIndependent :
    (ready [(0x1000, 5), (0x1001, 1), (0x1002, 9)]).Inv ∧ (ready [(0x1000, 5), (0x1002, 9), (0x1003, 7)]).Inv ∧
      ∀ i, i < 4 → i % 2 = 0 →
        assemble .le (memBytes [(0x1000, 5), (0x1001, 1), (0x1002, 9)] (0x1000 + i * 1) 1) =
          assemble .le (memBytes [(0x1000, 5), (0x1002, 9), (0x1003, 7)] (0x1000 + i * 1) 1) :=
  ⟨(ready_meets _ [] (by decide) (by decide)).1, (ready_meets _ [] (by decide) (by decide)).1, by decide⟩

theorem witness_ResetInsideCommandLeavesPrefix :
    reading.busy = true ∧ ∃ u, Host.Core.run Sys2Proof.core 1 { reading with host := [] } = .next u ∧ u.out.isSome = true :=
  ⟨rfl, exists_next (P := (·.out.isSome)) (by decide)⟩

theorem witness_AbandonedCommandHasNoResponse :
    (readyWith [] [.reset]).busy = false ∧ (readyWith [] [.reset]).host = [.command issued, .reset] := ⟨rfl, rfl⟩

/-- Reset after the third of the six accesses: between the read of element 2 and its write. -/
theorem witness_ResetLeavesAccessPrefix :
    (readyWith [(0x1000, 5)] [.wait (3 + 1), .reset]).Inv ∧
      (readyWith [(0x1000, 5)] [.wait (3 + 1), .reset]).host = [.command issued, .wait (3 + 1), .reset] ∧
      3 ≤ (accessSequence (0x1000 : Word).toNat (elemBytes .u8) (2 : BitVec 32).toNat 2).length :=
  ⟨(ready_meets _ _ (by decide) (by decide)).1, rfl, by decide⟩

/-- The buffer of `reading` is `0x1000` and `0x1001`: accesses that meet its first and last byte, and neighbours. A pending
`TRANSFORM` has its buffer too; an idle core and a pending `RESOLVE` have none. -/
theorem witness_HostAccessWhileInFlight :
    (reading.inWalk ∧ reading.ksel = some .u8 ∧ reading.oBuf.toNat = 0x1000 ∧
      reading.oBuf.toNat + frames reading (elemBytes .u8) * reading.oCh.toNat * elemBytes .u8 = 0x1002 ∧
      (0x1000 < 0x0FFF + ([1, 2] : List Byte).length ∧ 0x0FFF < 0x1002) ∧ (0x1000 < 0x1001 + 1 ∧ 0x1001 < 0x1002) ∧
      0x0FFF + ([1] : List Byte).length ≤ 0x1000 ∧ 0x1002 ≤ 0x1002) ∧
    failedCheck ((pending (some .u8) issued).latch 2 0x1000 4 0x3FF0000000000000) = none ∧ (idle none).busy = false ∧
      decodePacket ⟨1, 0x108, 0, 0⟩ = some (.resolve ⟨8, true, false, false, 0, 0⟩) := by
  refine ⟨⟨⟨rfl, rfl⟩, rfl, ?_⟩, ?_⟩ <;> decide

theorem witness_DeviceBufferRefused :
    (guarded .device).busy = true ∧ (guarded .device).f < frames (guarded .device) (elemBytes .u8) ∧
      (⟨0x1001, 1, .device⟩ : Region) ∈ (guarded .device).regions ∧
      (⟨0x1001, 1, .device⟩ : Region).meets (elemAddr (guarded .device) (elemBytes .u8) (posIndex (guarded .device)))
        (elemBytes .u8) = true ∧ ({ guarded .device with out := some 9 } : State).out.isSome = true := by decide

end Sys2Proof.Tests
end

section
namespace Sys2Proof.Machine

/-- 20_memory.md R54, 30_encoding.md R90: the element size read off the low two bits of the kernel code. -/
theorem elemBytes_eq_two_pow_kernelCode (k : Kernel) : elemBytes k = 2 ^ ((kernelCode k).toNat % 4) := by
  cases k <;> rfl

/-- Settles O9: the table of R54 is `elemBytes` row by row, and the form in the kernel code is
`elemBytes_eq_two_pow_kernelCode`. -/
theorem elementSizes : Obligations.ElementSizes :=
  ⟨rfl, rfl, rfl, rfl, rfl, rfl, rfl, rfl, rfl, rfl, elemBytes_eq_two_pow_kernelCode⟩

end Sys2Proof.Machine
end

section
namespace Sys2Proof

/-- 30_encoding.md R87: the bit width is the low byte of the word. -/
theorem ofWord_bw_toNat (fd : Word) : (Descriptor.ofWord fd).bw.toNat = fd.toNat % 256 := by
  simp [Descriptor.ofWord]

/-- 30_encoding.md R87: the channel count is the high half of the word. -/
theorem ofWord_ch_toNat (fd : Word) : (Descriptor.ofWord fd).ch.toNat = fd.toNat / 2 ^ 32 := by
  have hlt := fd.isLt
  simp only [Descriptor.ofWord, BitVec.extractLsb'_toNat, Nat.shiftRight_eq_div_pow]
  omega

/-- Decoding the word of a descriptor gives the descriptor: no field is dropped (30_encoding.md R86). -/
theorem ofWord_toWord (d : Descriptor) : Descriptor.ofWord d.toWord = d := by
  obtain ⟨hbw, hint, hsgn, hbe, hrsvd, hch⟩ := descriptor_fields d.bw.isLt (Bool.toNat_le d.int)
    (Bool.toNat_le d.sgn) (Bool.toNat_le d.be) d.rsvd.isLt d.ch.isLt (BitVec.toNat_ofNat _ 64)
  have hbw' : d.toWord.toNat / 2 ^ 0 % 2 ^ 8 = d.bw.toNat := by rwa [pow_zero, Nat.div_one]
  rw [Descriptor.ofWord, Descriptor.mk.injEq]
  exact ⟨(field_eq_iff _ 0 8 d.bw).2 hbw', getLsbD_of_toNat hint, getLsbD_of_toNat hsgn, getLsbD_of_toNat hbe,
    (field_eq_iff _ 11 21 d.rsvd).2 hrsvd, (field_eq_iff _ 32 32 d.ch).2 hch⟩

end Sys2Proof

namespace Sys2Proof.Machine

/-- What a descriptor that selects a kernel holds: the inversion of `sel` (30_encoding.md R88). -/
theorem sel_eq_some {d : Descriptor} {k : Kernel} (h : sel d = some k) :
    d.rsvd = 0 ∧
      ((d.int = false ∧ (d.bw = 32 ∧ k = .f32 ∨ d.bw = 64 ∧ k = .f64)) ∨
        (d.int = true ∧
          (d.bw = 8 ∧ k = (if d.sgn then .s8 else .u8) ∨ d.bw = 16 ∧ k = (if d.sgn then .s16 else .u16) ∨
            d.bw = 32 ∧ k = (if d.sgn then .s32 else .u32) ∨ d.bw = 64 ∧ k = (if d.sgn then .s64 else .u64)))) := by
  unfold sel at h
  split_ifs at h with hr hi <;> simp_all

/-- 30_encoding.md R90: the bits of the kernel code that the descriptor fixes, row by row of R88. -/
theorem kernelCode_of_sel {d : Descriptor} {k : Kernel} (h : sel d = some k) :
    (kernelCode k).getLsbD 3 = !d.int ∧ (kernelCode k).getLsbD 2 = (d.sgn && d.int) ∧
      8 * 2 ^ ((kernelCode k).toNat % 4) = d.bw.toNat := by
  obtain ⟨-, ⟨hi, hrow⟩ | ⟨hi, hrow⟩⟩ := sel_eq_some h
  · obtain ⟨hb, rfl⟩ | ⟨hb, rfl⟩ := hrow <;> rw [hi, hb, Bool.and_false] <;> decide
  · obtain ⟨hb, rfl⟩ | ⟨hb, rfl⟩ | ⟨hb, rfl⟩ | ⟨hb, rfl⟩ := hrow <;> rw [hi, hb] <;> cases d.sgn <;> decide

/-- The kernel that the four bits of `KSEL` name, if they name one. -/
def kernelOfCode (c : BitVec 4) : Option Kernel := Kernel.all.find? fun k => kernelCode k == c

/-- The four bits of `KSEL` name exactly the kernel they were made from. -/
theorem kernelOfCode_kselCode (a : Option Kernel) : kernelOfCode (kselCode a) = a := by
  rcases a with _ | k
  · rfl
  · cases k <;> rfl

/-- The kernel codes and `NONE` are distinct (10_state.md R26, 30_encoding.md R90). -/
theorem kselCode_injective : Function.Injective kselCode :=
  Function.LeftInverse.injective kernelOfCode_kselCode

/-- Settles O8: the bits of the code are `kernelCode_of_sel`, the element size `elemBytes_eq_two_pow_kernelCode`, and
the codes are distinct by `kselCode_injective`. -/
theorem kernelCodeBits : Obligations.KernelCodeBits := by
  refine ⟨fun d k h => ?_, rfl, fun _ _ h => kselCode_injective h⟩
  obtain ⟨hint, hsgn, hbw⟩ := kernelCode_of_sel h
  exact ⟨hint, hsgn, hbw, elemBytes_eq_two_pow_kernelCode k⟩

/-- Settles O1: the rows of the two tables of R105, each a closed evaluation of the encoder, the decoder or the
response word. -/
theorem workedEncodings : Obligations.WorkedEncodings :=
  ⟨by decide, rfl, rfl, rfl, rfl, rfl, rfl, rfl⟩

/-- Settles O4: the three flags are the word's bits by definition, the two numbers are `ofWord_bw_toNat` and
`ofWord_ch_toNat`, and the round trips are `toWord_ofWord` and `ofWord_toWord`. -/
theorem descriptorFields : Obligations.DescriptorFields :=
  ⟨fun fd => ⟨ofWord_bw_toNat fd, Iff.rfl, Iff.rfl, Iff.rfl, ofWord_ch_toNat fd⟩, toWord_ofWord, ofWord_toWord⟩

end Sys2Proof.Machine
end

section
namespace Sys2Proof.Machine

/-! ### Integer kernels: the rounded operations and the narrowing, in rationals (41_int_kernels.md R142, R145) -/

/-- Every integer kernel (41_int_kernels.md R146 to R153) has a width of at least 1 and at most 64 bits. -/
theorem sampleWidth_bounds {n : Nat} (hn : n ∈ [8, 16, 32, 64]) : 1 ≤ n ∧ n ≤ 64 := by
  simp only [List.mem_cons, List.not_mem_nil, or_false] at hn
  omega

/-- Two samples differ by at most `2^N - 1` (41_int_kernels.md R142): the two bounds of the type are that far apart. -/
theorem abs_sampleVal_sub_le {n : Nat} (hn : 1 ≤ n) (signed : Bool) (raw prv : BitVec n) :
    |sampleVal signed raw - sampleVal signed prv| ≤ 2 ^ n - 1 := by
  have hspan : maxSample n signed - minSample n signed = 2 ^ n - 1 := by
    have hpow : (2 : Int) ^ n = 2 * 2 ^ (n - 1) := by rw [← pow_succ', Nat.sub_add_cancel hn]
    cases signed <;> simp only [maxSample, minSample, Bool.false_eq_true, if_true, if_false] <;> omega
  have hraw := sampleVal_range signed raw
  have hprv := sampleVal_range signed prv
  rw [abs_le]
  omega

/-- A number between the bounds passes the clamp. -/
theorem ratClamp_of_mem {x lo hi : ℚ} (hlo : lo ≤ x) (hhi : x ≤ hi) : ratClamp x lo hi = x := by
  rw [ratClamp, if_neg hlo.not_gt, if_neg hhi.not_gt]

/-- The rounding to 113 bits keeps a sample's value. -/
theorem ratRne_sampleVal {n : Nat} (h64 : n ≤ 64) (signed : Bool) (raw : BitVec n) :
    ratRne 113 (sampleVal signed raw : ℚ) = sampleVal signed raw := by
  have hlt := sampleVal_lt h64 signed raw
  refine ratRne_exact (k := sampleVal signed raw) (j := 0) (by simp) (abs_lt.2 ?_)
  omega

/-- The product of R142 is the rational product, rounded once. -/
theorem dyadRat_intProduct (g : Dyad) (cur pv : Int) :
    dyadRat (intProduct g cur pv) = ratRne 113 (dyadRat g * ((cur - pv : Int) : ℚ)) := by
  rw [intProduct, rne_rat, dyadRat_mul, dyadRat_ofInt]

/-- The sum of R142 is the rational sum with the rounded product, rounded once. -/
theorem dyadRat_intSum (g : Dyad) (cur pv : Int) :
    dyadRat (intSum g cur pv) = ratRne 113 (cur + dyadRat (intProduct g cur pv)) := by
  rw [intSum, rne_rat, dyadRat_add, dyadRat_ofInt]

/-- The clamp to the bounds of a sample, in rationals. -/
theorem dyadRat_sampleClamp (n : Nat) (signed : Bool) (r : Dyad) :
    dyadRat (clampQ r (dyadOfInt (minSample n signed)) (dyadOfInt (maxSample n signed))) =
      ratClamp (dyadRat r) (minSample n signed) (maxSample n signed) := by
  rw [dyadRat_clamp, dyadRat_ofInt, dyadRat_ofInt]

/-- The narrowing is the pattern of the truncated rational clamp (41_int_kernels.md R142). -/
theorem narrow_eq_ofInt_ratTrunc (n : Nat) (signed : Bool) (r : Dyad) :
    narrow n signed r =
      BitVec.ofInt n (ratTrunc (ratClamp (dyadRat r) (minSample n signed) (maxSample n signed))) := by
  rw [narrow, dyadTrunc_rat, dyadRat_sampleClamp]

/-- The clamped number lies within the bounds of a sample. -/
theorem sampleClamp_bounds (n : Nat) (signed : Bool) (x : ℚ) :
    (minSample n signed : ℚ) ≤ ratClamp x (minSample n signed) (maxSample n signed) ∧
      ratClamp x (minSample n signed) (maxSample n signed) ≤ (maxSample n signed : ℚ) :=
  ratClamp_bounds (by exact_mod_cast minSample_le_maxSample n signed) x

/-- No conversion overflows: the pattern written has the value of the truncated clamp (41_int_kernels.md R145). -/
theorem sampleVal_narrow {n : Nat} (hn : 1 ≤ n) (signed : Bool) (r : Dyad) :
    sampleVal signed (narrow n signed r) =
      ratTrunc (ratClamp (dyadRat r) (minSample n signed) (maxSample n signed)) := by
  obtain ⟨hlo, hhi⟩ := sampleClamp_bounds n signed (dyadRat r)
  obtain ⟨htlo, hthi⟩ := ratTrunc_bounds hlo hhi
  rw [narrow_eq_ofInt_ratTrunc, sampleVal_ofInt hn signed htlo hthi]

/-- A number that is a sample's value narrows to that sample: the clamp and the truncation do nothing. -/
theorem narrow_of_eq_sampleVal {n : Nat} (hn : 1 ≤ n) {signed : Bool} {raw : BitVec n} {r : Dyad}
    (hr : dyadRat r = sampleVal signed raw) : narrow n signed r = raw := by
  obtain ⟨hlo, hhi⟩ := sampleVal_range signed raw
  apply sampleVal_injective signed
  rw [sampleVal_narrow hn, hr, ratClamp_of_mem (by exact_mod_cast hlo) (by exact_mod_cast hhi), ratTrunc_int]

/-- Settles O32: the clamp is bounded by `sampleClamp_bounds`, its truncation by `ratTrunc_bounds`, and the value
written is `sampleVal_narrow`. -/
theorem narrowingTruncatesInRange : Obligations.NarrowingTruncatesInRange := by
  refine ⟨fun n hn signed r => ?_, by decide, by decide, by decide, by decide, ?_⟩
  · obtain ⟨hlo, hhi⟩ := sampleClamp_bounds n signed (dyadRat r)
    obtain ⟨htlo, hthi⟩ := ratTrunc_bounds hlo hhi
    simp only [dyadTrunc_rat, dyadRat_sampleClamp, true_and]
    exact ⟨hlo, hhi, htlo, hthi, narrow_eq_ofInt_ratTrunc n signed r,
      sampleVal_narrow (sampleWidth_bounds hn).1 signed r⟩
  · norm_num [ratTrunc]

/-! ### Samples that an integer kernel keeps (41_int_kernels.md R155, R156) -/

/-- When gain times difference is 0, the product is 0, the sum is the sample's value and the output is the sample. -/
theorem ikern_of_mul_eq_zero {n : Nat} (hn : n ∈ [8, 16, 32, 64]) (signed : Bool) (raw prv : BitVec n) {g : Dyad}
    (h0 : dyadRat g * ((sampleVal signed raw - sampleVal signed prv : Int) : ℚ) = 0) :
    dyadRat (intProduct g (sampleVal signed raw) (sampleVal signed prv)) = 0 ∧
      dyadRat (intSum g (sampleVal signed raw) (sampleVal signed prv)) = sampleVal signed raw ∧
      ikern n signed g raw prv = raw := by
  obtain ⟨hpos, h64⟩ := sampleWidth_bounds hn
  have hp : dyadRat (intProduct g (sampleVal signed raw) (sampleVal signed prv)) = 0 := by
    rw [dyadRat_intProduct, h0, ratRne, if_pos rfl]
  have hr : dyadRat (intSum g (sampleVal signed raw) (sampleVal signed prv)) = sampleVal signed raw := by
    rw [dyadRat_intSum, hp, add_zero, ratRne_sampleVal h64]
  exact ⟨hp, hr, narrow_of_eq_sampleVal hpos hr⟩

/-- Both zero patterns are finite gains of value 0 (41_int_kernels.md R142). -/
theorem gainExact_of_zero_pattern {gain : Word} (h : gain = 0x0000000000000000 ∨ gain = 0x8000000000000000) :
    ∃ g, gainExact gain = some g ∧ dyadRat g = 0 := by
  refine ⟨⟨0, -1074⟩, ?_, by simp [dyadRat]⟩
  obtain rfl | rfl := h <;> decide

/-- Settles O29: with a gain of value 0, gain times difference is 0. -/
theorem zeroGainKeepsIntegerSamples : Obligations.ZeroGainKeepsIntegerSamples := by
  intro n hn signed raw prv gain hgain
  obtain ⟨g, hg, hg0⟩ := gainExact_of_zero_pattern hgain
  exact ⟨g, hg, ikern_of_mul_eq_zero hn signed raw prv (by rw [hg0, zero_mul])⟩

/-- Settles O30: with equal samples the difference is 0. -/
theorem noEdgeKeepsIntegerSamples : Obligations.NoEdgeKeepsIntegerSamples :=
  fun _ hn signed raw _ => ikern_of_mul_eq_zero hn signed raw raw (by rw [sub_self, Int.cast_zero, mul_zero])

/-! ### The integer kernels as functions of rationals (41_int_kernels.md R142) -/

/-- The kernel on dyadic numbers is the rational function of R142 at the gain's value. -/
theorem ikern_eq_ratKernel (n : Nat) (signed : Bool) (g : Dyad) (raw prv : BitVec n) :
    ikern n signed g raw prv = ratKernel n signed (dyadRat g) raw prv := by
  rw [ikern, narrow_eq_ofInt_ratTrunc, dyadRat_intSum, dyadRat_intProduct, ratKernel]

/-- On words, with a finite gain, a kernel is `ikern` of the low bits, zero-extended (10_state.md R28). -/
theorem kernInt_of_gainExact (n : Nat) (signed : Bool) {gain : Word} {g : Dyad} (hg : gainExact gain = some g)
    (raw prv : Word) :
    kernInt n signed gain raw prv = some ((ikern n signed g (raw.setWidth n) (prv.setWidth n)).setWidth 64) := by
  rw [kernInt, hg, Option.map_some]

/-- Settles O33: the kernel in rationals is `ikern_eq_ratKernel`, on words `kernInt_of_gainExact`; the difference is
bounded by `abs_sampleVal_sub_le` and the zero gains are `gainExact_of_zero_pattern`. -/
theorem integerKernelInRationals : Obligations.IntegerKernelInRationals := by
  refine ⟨fun n hn signed => ⟨ikern_eq_ratKernel n signed,
    abs_sampleVal_sub_le (sampleWidth_bounds hn).1 signed, fun gain raw prv g hg => ?_⟩,
    fun gain h => gainExact_of_zero_pattern h⟩
  rw [kernInt_of_gainExact n signed hg, ikern_eq_ratKernel]

end Sys2Proof.Machine
end

section
namespace Sys2Proof.Machine

/-! ### The floating-point operations in rationals (42_float_kernels.md R173 to R177) -/

/-- The formats an obligation ranges over are the two of R171. -/
theorem ieeeFmt_of_mem {t : Fmt} (ht : t ∈ [binary32, binary64]) : IeeeFmt t := by simpa using ht

theorem isFin_eq_true_iff {v : FVal} : v.isFin = true ↔ ∃ sg m e, v = .fin sg m e := by
  cases v <;> simp [FVal.isFin]

/-- Flipping the sign of a finite datum negates its value. -/
theorem finRat_not (sg : Bool) (m : Nat) (e : Int) : finRat (!sg) m e = -finRat sg m e := by
  cases sg <;> simp [finRat, finDyad, dyadRat]

theorem finRat_nonneg (m : Nat) (e : Int) : 0 ≤ finRat false m e := (dyadRat_nonneg_iff _).2 (Int.natCast_nonneg m)

theorem finRat_eq_zero_iff {sg : Bool} {m : Nat} {e : Int} : finRat sg m e = 0 ↔ m = 0 := by
  have hpow : (2 : ℚ) ^ e ≠ 0 := zpow_ne_zero e two_ne_zero
  cases sg <;> simp [finRat, finDyad, dyadRat, hpow]

/-- Data of one sign cancel only when both are zeros (42_float_kernels.md R174). -/
theorem eq_zero_of_finRat_add_eq_zero {sg : Bool} {ma mb : Nat} {ea eb : Int}
    (h : finRat sg ma ea + finRat sg mb eb = 0) : ma = 0 ∧ mb = 0 := by
  have hpos : finRat false ma ea + finRat false mb eb = 0 := by
    cases sg with
    | false => exact h
    | true => rwa [← Bool.not_false, finRat_not, finRat_not, ← neg_add, neg_eq_zero] at h
  rwa [add_eq_zero_iff_of_nonneg (finRat_nonneg ma ea) (finRat_nonneg mb eb), finRat_eq_zero_iff,
    finRat_eq_zero_iff] at hpos

theorem ratRound_zero (t : Fmt) (zs : Bool) : ratRound t 0 zs = zeroOf t zs := by rw [ratRound, if_pos rfl, zeroOf]

/-- The sign for a zero matters for a zero only. -/
theorem ratRound_of_ne_zero (t : Fmt) {x : ℚ} (hx : x ≠ 0) (zs zs' : Bool) : ratRound t x zs = ratRound t x zs' := by
  rw [ratRound, ratRound, if_neg hx, if_neg hx]

/-- The sum of finite data is the exact rational sum, rounded once. -/
theorem fadd_fin (t : Fmt) (sa sb : Bool) (ma mb : Nat) (ea eb : Int) :
    fadd t (.fin sa ma ea) (.fin sb mb eb) = ratRound t (finRat sa ma ea + finRat sb mb eb) (sa && sb) := by
  rw [fadd, fround_rat, dyadRat_add, finRat, finRat]

/-- The product of finite data is the exact rational product, rounded once. -/
theorem fmul_fin (t : Fmt) (sa sb : Bool) (ma mb : Nat) (ea eb : Int) :
    fmul t (.fin sa ma ea) (.fin sb mb eb) = ratRound t (finRat sa ma ea * finRat sb mb eb) (sa ^^ sb) := by
  rw [fmul, fround_rat, dyadRat_mul, finRat, finRat]

/-- On finite data the sign `sa && sb` that the model passes for a zero sum is the one of R174. -/
theorem fadd_fin_eq_ratFadd (t : Fmt) (sa sb : Bool) (ma mb : Nat) (ea eb : Int) :
    fadd t (.fin sa ma ea) (.fin sb mb eb) = ratFadd t (.fin sa ma ea) (.fin sb mb eb) := by
  rw [fadd_fin, ratFadd]
  split
  · next hx => exact ratRound_of_ne_zero t hx _ _
  · next hx =>
    rw [not_not] at hx
    rw [hx, ratRound_zero]
    split
    · next hz => rw [hz.2.2, Bool.and_self]
    · next hz =>
      have hne : sa ≠ sb := by
        rintro rfl
        obtain ⟨ha, hb⟩ := eq_zero_of_finRat_add_eq_zero hx
        exact hz ⟨ha, hb, rfl⟩
      have hand : (sa && sb) = false := by revert hne; cases sa <;> cases sb <;> decide
      rw [hand]

theorem fadd_eq_ratFadd (t : Fmt) (a b : FVal) : fadd t a b = ratFadd t a b := by
  cases a with
  | nan => cases b <;> rfl
  | inf sa => cases b <;> rfl
  | fin sa ma ea =>
    cases b with
    | nan => rfl
    | inf sb => rfl
    | fin sb mb eb => exact fadd_fin_eq_ratFadd t sa sb ma mb ea eb

theorem fsub_eq_ratFsub (t : Fmt) (a b : FVal) : fsub t a b = ratFsub t a b := fadd_eq_ratFadd t a (fneg b)

theorem fmul_eq_ratFmul (t : Fmt) (a b : FVal) : fmul t a b = ratFmul t a b := by
  cases a with
  | nan => cases b <;> rfl
  | inf sa =>
    cases b with
    | nan => rfl
    | inf sb => rfl
    | fin sb mb eb => simp only [fmul, ratFmul, finRat_eq_zero_iff]
  | fin sa ma ea =>
    cases b with
    | nan => rfl
    | inf sb => simp only [fmul, ratFmul, finRat_eq_zero_iff]
    | fin sb mb eb => exact fmul_fin t sa sb ma mb ea eb

theorem floatSum_eq_ratFloatSum (t : Fmt) (gk raw prv : FVal) : floatSum t gk raw prv = ratFloatSum t gk raw prv := by
  rw [floatSum, fadd_eq_ratFadd, fmul_eq_ratFmul, fsub_eq_ratFsub, ratFloatSum]

/-- The clamp compares rational numbers with `maxFinite` and its negative (42_float_kernels.md R176). -/
theorem fclamp_eq_ratFclamp (t : Fmt) (v : FVal) : fclamp t v = ratFclamp t v := by
  cases v with
  | nan => exact fclamp_nan t
  | inf sg => exact fclamp_inf t sg
  | fin sg m e =>
    simp only [fclamp, fmaxFinite, flt, dyadLt_iff, ratFclamp, ← finRat_not, Bool.not_false]
    rfl

/-- Settles O36, by `fround_rat`. -/
theorem floatRoundingInRationals : Obligations.FloatRoundingInRationals := fun t _ x zs => fround_rat t x zs

/-- Settles O37: addition is `fadd_eq_ratFadd`, subtraction adds the negated operand, multiplication is
`fmul_eq_ratFmul`. -/
theorem floatOperationsInRationals : Obligations.FloatOperationsInRationals :=
  fun t _ a b => ⟨fadd_eq_ratFadd t a b, fsub_eq_ratFsub t a b, fmul_eq_ratFmul t a b⟩

/-! ### The output of a floating-point kernel (42_float_kernels.md R177, R180) -/

theorem fkern_toNat_lt {t : Fmt} (ht : IeeeFmt t) (free : Word) (gk : FVal) (raw prv : Word) :
    (fkern t free gk raw prv).toNat < 2 ^ (1 + t.ew + t.fw) :=
  fencode_lt ht free (fclamp_normal ht (floatSum_normal t _ _ _))

/-- The clamp makes every datum in normal form but a NaN finite. -/
theorem fclamp_isFin {t : Fmt} (ht : IeeeFmt t) {v : FVal} (h : fvalNormal t v) (hn : v ≠ .nan) :
    (fclamp t v).isFin = true := by
  cases v with
  | nan => exact absurd rfl hn
  | inf sg => rw [fclamp_inf]; rfl
  | fin sg m e => rw [fclamp_fin ht h]; rfl

/-- Unless the sum is a NaN the output is finite. -/
theorem fdecode_fkern_isFin {t : Fmt} (ht : IeeeFmt t) (free : Word) {gk : FVal} {raw prv : Word}
    (hn : floatSum t gk (fdecode t raw) (fdecode t prv) ≠ .nan) :
    (fdecode t (fkern t free gk raw prv)).isFin = true := by
  rw [fdecode_fkern ht]
  exact fclamp_isFin ht (floatSum_normal t _ _ _) hn

/-- The output is a NaN exactly when the sum is one. -/
theorem fdecode_fkern_eq_nan_iff {t : Fmt} (ht : IeeeFmt t) (free : Word) (gk : FVal) (raw prv : Word) :
    fdecode t (fkern t free gk raw prv) = .nan ↔ floatSum t gk (fdecode t raw) (fdecode t prv) = .nan := by
  constructor
  · intro hout
    by_contra hn
    have hfin := fdecode_fkern_isFin ht free hn
    rw [hout] at hfin
    exact Bool.noConfusion hfin
  · intro hsum
    rw [fdecode_fkern ht, hsum, fclamp_nan]

theorem fdecode_fkern_ne_inf {t : Fmt} (ht : IeeeFmt t) (free : Word) (gk : FVal) (raw prv : Word) (sg : Bool) :
    fdecode t (fkern t free gk raw prv) ≠ .inf sg := by
  intro hout
  by_cases hn : floatSum t gk (fdecode t raw) (fdecode t prv) = .nan
  · rw [(fdecode_fkern_eq_nan_iff ht free gk raw prv).2 hn] at hout
    exact FVal.noConfusion hout
  · have hfin := fdecode_fkern_isFin ht free hn
    rw [hout] at hfin
    exact Bool.noConfusion hfin

/-- Settles O39: a sum that is no NaN gives a finite output, which is in normal form, so `finRat_le_max` bounds it; a
finite sum is in normal form, so the clamp keeps it. -/
theorem floatOutputNeverInfinite : Obligations.FloatOutputNeverInfinite := by
  intro t hmem free gk raw prv
  have ht := ieeeFmt_of_mem hmem
  constructor
  · by_cases hn : floatSum t gk (fdecode t raw) (fdecode t prv) = .nan
    · exact .inl ((fdecode_fkern_eq_nan_iff ht free gk raw prv).2 hn)
    · obtain ⟨sg, m, e, hout⟩ := isFin_eq_true_iff.1 (fdecode_fkern_isFin ht free hn)
      exact .inr ⟨sg, m, e, hout, finRat_le_max ht (hout ▸ fdecode_normal ht _)⟩
  · intro hfin
    obtain ⟨sg, m, e, hsum⟩ := isFin_eq_true_iff.1 hfin
    rw [hsum]
    exact fclamp_fin ht (hsum ▸ floatSum_normal t _ _ _)

/-! ### The gain in a kernel's format (40_transform.md R113) -/

theorem gainF64_of_fdecode {gain : Word} {sg : Bool} {m : Nat} {e : Int} (h : fdecode binary64 gain = .fin sg m e) :
    gainF64 gain = some (.fin sg m e) := by
  rw [gainF64, h]

/-- `gainF32` keeps the converted gain when it is finite. -/
theorem gainF32_eq_some_iff_cvt32 (gain : Word) (v : FVal) :
    gainF32 gain = some v ↔ v.isFin = true ∧ cvt32 (fdecode binary64 gain) = v := by
  unfold gainF32
  cases cvt32 (fdecode binary64 gain) <;> cases v <;> simp [FVal.isFin]

theorem gainF32_eq_some_iff {gain : Word} {sg : Bool} {m : Nat} {e : Int} (h : fdecode binary64 gain = .fin sg m e)
    (v : FVal) : gainF32 gain = some v ↔ v.isFin = true ∧ ratRound binary32 (finRat sg m e) sg = v := by
  rw [gainF32_eq_some_iff_cvt32, h, cvt32, fround_rat, finRat]

/-- Settles O38: the sum and the clamp are the rational ones, the output decodes to the clamped sum, and the gains are
`gainF64_of_fdecode` and `gainF32_eq_some_iff`. -/
theorem floatKernelInRationals : Obligations.FloatKernelInRationals := by
  refine ⟨fun t hmem free gk raw prv => ?_,
    fun gain sg m e h => ⟨gainF64_of_fdecode h, gainF32_eq_some_iff h⟩,
    fun free gain raw prv gk => ⟨fun h => ?_, fun h => ?_⟩⟩
  · have ht := ieeeFmt_of_mem hmem
    simp only [← floatSum_eq_ratFloatSum, ← fclamp_eq_ratFclamp]
    exact ⟨fkern_toNat_lt ht free gk raw prv, fdecode_fkern ht free gk raw prv,
      fdecode_fkern_eq_nan_iff ht free gk raw prv, fdecode_fkern_ne_inf ht free gk raw prv⟩
  · rw [kernF32, h, Option.map_some]
  · rw [kernF64, h, Option.map_some]

/-! ### Zeros, infinities and NaNs in the floating-point operations (42_float_kernels.md R174, R175) -/

@[simp] theorem fadd_nan_left (t : Fmt) (b : FVal) : fadd t .nan b = .nan := by cases b <;> rfl

@[simp] theorem fadd_nan_right (t : Fmt) (a : FVal) : fadd t a .nan = .nan := by cases a <;> rfl

@[simp] theorem fsub_nan_right (t : Fmt) (a : FVal) : fsub t a .nan = .nan := fadd_nan_right t a

@[simp] theorem fmul_nan_right (t : Fmt) (a : FVal) : fmul t a .nan = .nan := by cases a <;> rfl

/-- The sum of two zeros. -/
theorem fadd_zero_zero (t : Fmt) (sa sb : Bool) (ea eb : Int) :
    fadd t (.fin sa 0 ea) (.fin sb 0 eb) = zeroOf t (sa && sb) := by
  rw [fadd_fin, finRat_eq_zero_iff.2 rfl, finRat_eq_zero_iff.2 rfl, add_zero, ratRound_zero]

/-- Adding a zero keeps a datum in normal form that is not `-0`. -/
theorem fadd_zero_right {t : Fmt} (ht : IeeeFmt t) {sa : Bool} {ma : Nat} {ea : Int} (h : fvalNormal t (.fin sa ma ea))
    (hneg : ma = 0 → sa = false) (sb : Bool) (eb : Int) :
    fadd t (.fin sa ma ea) (.fin sb 0 eb) = .fin sa ma ea := by
  have hval : dyadRat (dyadAdd (finDyad sa ma ea) (finDyad sb 0 eb)) = dyadRat (finDyad sa ma ea) := by
    have hzero : dyadRat (finDyad sb 0 eb) = 0 := finRat_eq_zero_iff.2 rfl
    rw [dyadRat_add, hzero, add_zero]
  rw [fadd, fround_self ht h _ hval]
  split
  · next h0 =>
    obtain ⟨he, -⟩ | ⟨hm, -⟩ := h
    · rw [hneg h0, Bool.false_and, h0, he]
    · exact absurd (h0 ▸ hm) (Nat.two_pow_pos t.fw).not_ge
  · rfl

/-- A product with a zero factor is a zero with the sign of R175. -/
theorem fmul_of_zero_factor (t : Fmt) (sa sb : Bool) {ma mb : Nat} (ea eb : Int) (h : ma = 0 ∨ mb = 0) :
    fmul t (.fin sa ma ea) (.fin sb mb eb) = zeroOf t (sa ^^ sb) := by
  have hprod : finRat sa ma ea * finRat sb mb eb = 0 :=
    mul_eq_zero.2 (h.imp finRat_eq_zero_iff.2 finRat_eq_zero_iff.2)
  rw [fmul_fin, hprod, ratRound_zero]

/-- `x - x = +0` for a finite `x` (42_float_kernels.md R174). -/
theorem fsub_fin_self (t : Fmt) (sg : Bool) (m : Nat) (e : Int) :
    fsub t (.fin sg m e) (.fin sg m e) = zeroOf t false := by
  rw [fsub, fneg, fadd_fin, finRat_not, add_neg_cancel, Bool.and_not_self, ratRound_zero]

/-- The difference of equal infinities and of NaNs is a NaN. -/
theorem fsub_self_of_not_isFin (t : Fmt) {v : FVal} (h : v.isFin = false) : fsub t v v = .nan := by
  cases v with
  | nan => rfl
  | inf sg => cases sg <;> rfl
  | fin sg m e => exact Bool.noConfusion h

theorem fdecode_zeroPattern {t : Fmt} (ht : IeeeFmt t) (sg : Bool) : fdecode t (patternOf t sg 0 0) = zeroOf t sg := by
  rw [fdecode_patternOf ht sg (Nat.two_pow_pos _) (Nat.two_pow_pos _), if_neg (fmtExpMax_lt ht).1.ne, if_pos rfl, zeroOf]

/-- A zero has one pattern of the format for each sign. -/
theorem eq_zeroPattern_of_fdecode {t : Fmt} (ht : IeeeFmt t) {raw : Word} (hb : raw.toNat < 2 ^ (1 + t.ew + t.fw))
    {sg : Bool} {e : Int} (h : fdecode t raw = .fin sg 0 e) : raw = patternOf t sg 0 0 := by
  have henc := fencode_fdecode ht 0 hb (by rw [h]; exact FVal.noConfusion)
  rwa [h, fencode_fin, if_pos (Nat.two_pow_pos _), eq_comm] at henc

/-! ### Samples that a floating-point kernel keeps (42_float_kernels.md R181, R183) -/

/-- When the product is a zero, a finite sample comes back, but for `-0`, which gives the zero of the product's sign. -/
theorem fkern_of_zero_product {t : Fmt} (ht : IeeeFmt t) (free : Word) {gk : FVal} {raw prv : Word}
    (hb : raw.toNat < 2 ^ (1 + t.ew + t.fw)) (hfin : (fdecode t raw).isFin = true) {sp : Bool} {ep : Int}
    (hp : fmul t gk (fsub t (fdecode t raw) (fdecode t prv)) = .fin sp 0 ep) :
    fkern t free gk raw prv = if raw = patternOf t true 0 0 then patternOf t sp 0 0 else raw := by
  rw [fkern, floatSum, hp]
  split
  · next hneg =>
    have hsum : fadd t (fdecode t raw) (.fin sp 0 ep) = zeroOf t sp := by
      rw [hneg, fdecode_zeroPattern ht, zeroOf, fadd_zero_zero, Bool.true_and]
    have hnorm : fvalNormal t (zeroOf t sp) := .inl ⟨rfl, Nat.two_pow_pos _⟩
    rw [hsum, zeroOf, fclamp_fin ht hnorm, fencode_fin, if_pos (Nat.two_pow_pos _)]
  · next hneg =>
    obtain ⟨sa, ma, ea, hraw⟩ := isFin_eq_true_iff.1 hfin
    have hnorm : fvalNormal t (.fin sa ma ea) := hraw ▸ fdecode_normal ht raw
    have hsign : ma = 0 → sa = false := by
      rintro rfl
      rw [← Bool.not_eq_true]
      rintro rfl
      exact hneg (eq_zeroPattern_of_fdecode ht hb hraw)
    rw [hraw, fadd_zero_right ht hnorm hsign, fclamp_fin ht hnorm, ← hraw]
    exact fencode_fdecode ht free hb (by rw [hraw]; exact FVal.noConfusion)

/-- A NaN product makes the output a NaN. -/
theorem fdecode_fkern_of_nan_product {t : Fmt} (ht : IeeeFmt t) (free : Word) {gk : FVal} {raw prv : Word}
    (hp : fmul t gk (fsub t (fdecode t raw) (fdecode t prv)) = .nan) :
    fdecode t (fkern t free gk raw prv) = .nan := by
  rw [fdecode_fkern_eq_nan_iff ht, floatSum, hp, fadd_nan_right]

/-- Settles O41: a zero gain makes the product of a finite difference a zero, so `fkern_of_zero_product` gives the
output; the product of an infinite or a NaN difference is a NaN. -/
theorem floatZeroGain : Obligations.FloatZeroGain := by
  intro t hmem free raw prv sg e hb
  have ht := ieeeFmt_of_mem hmem
  refine ⟨fun hraw hd => ?_, fun hd => ?_, fun hnan => ?_⟩
  · obtain ⟨sd, md, ed, hd⟩ := isFin_eq_true_iff.1 hd
    have hp : fmul t (.fin sg 0 e) (fsub t (fdecode t raw) (fdecode t prv)) = zeroOf t (sg ^^ sd) := by
      rw [hd]
      exact fmul_of_zero_factor t sg sd e ed (.inl rfl)
    have hout := fkern_of_zero_product ht free hb hraw hp
    refine ⟨_, _, hp, fun ⟨hneg, hsp⟩ => ?_, fun hkeep => ?_⟩
    · rw [hout, if_pos hneg, hsp]
    · rw [hout]
      split
      · next hneg =>
        have hsp : (sg ^^ sd) = true := by
          rw [← Bool.not_eq_false]
          exact fun hsp => hkeep ⟨hneg, hsp⟩
        rw [hsp, hneg]
      · rfl
  · obtain ⟨sd, hd⟩ := hd
    apply fdecode_fkern_of_nan_product ht
    rw [hd]
    rfl
  · apply fdecode_fkern_of_nan_product ht
    have hd : fsub t (fdecode t raw) (fdecode t prv) = .nan := by
      obtain h | h := hnan
      · rw [h, fsub, fadd_nan_left]
      · rw [h, fsub_nan_right]
    rw [hd, fmul_nan_right]

/-- Settles O42: the difference of equal finite samples is `+0`, so the product is a zero with the gain's sign and
`fkern_of_zero_product` gives the output; for the others the difference is a NaN. -/
theorem floatNoEdge : Obligations.FloatNoEdge := by
  intro t hmem free raw sg m e hb
  have ht := ieeeFmt_of_mem hmem
  refine ⟨fun hraw => ?_, fun hraw => ?_⟩
  · obtain ⟨sa, ma, ea, hdec⟩ := isFin_eq_true_iff.1 hraw
    have hd : fsub t (fdecode t raw) (fdecode t raw) = zeroOf t false := by rw [hdec, fsub_fin_self]
    have hp : fmul t (.fin sg m e) (fsub t (fdecode t raw) (fdecode t raw)) = zeroOf t sg := by
      rw [hd, zeroOf, fmul_of_zero_factor t sg false e _ (.inr rfl), Bool.xor_false]
    have hout := fkern_of_zero_product ht free hb hraw hp
    exact ⟨⟨_, hd⟩, ⟨_, hp⟩, fun hne => by rw [hout, if_neg hne], fun heq => by rw [hout, if_pos heq]⟩
  · apply fdecode_fkern_of_nan_product ht
    rw [fsub_self_of_not_isFin t hraw, fmul_nan_right]

end Sys2Proof.Machine
end

section
namespace Sys2Proof.Machine

/-! ### `RESOLVE` (43_dispatch.md R191, R193, R197) -/

theorem exec_resolve_of_sel_some {d : Descriptor} {k : Kernel} (h : sel d = some k) (s : State) :
    exec (.resolve d) s = .next ((s.select (some k)).complete 1 .ok 0) := by
  simp only [exec, execResolve, h]

theorem exec_resolve_of_sel_none {d : Descriptor} (h : sel d = none) (s : State) :
    exec (.resolve d) s = .next ((s.select none).raise 1 .unsupportedFormat 0) := by
  simp only [exec, execResolve, h]

/-- After `RESOLVE` the two selection fields are functions of the descriptor. -/
theorem exec_resolve_selection {d : Descriptor} {s t : State} (h : exec (.resolve d) s = .next t) :
    t.ds = (sel d).isSome ∧ t.ksel = sel d := by
  obtain ⟨k, hk, rfl⟩ | ⟨hk, rfl⟩ := execResolve_next h
  · rw [hk]
    exact ⟨rfl, rfl⟩
  · rw [hk]
    exact ⟨rfl, rfl⟩

/-- A second `RESOLVE` of a descriptor only repeats the answer of the first: the fields the first wrote have their values
already. -/
theorem exec_resolve_again {d : Descriptor} {s t : State} (h : exec (.resolve d) s = .next t) :
    ∃ r, t.responses = s.responses ++ [r] ∧
      exec (.resolve d) t = .next { t with responses := t.responses ++ [r] } := by
  obtain ⟨k, hk, rfl⟩ | ⟨hk, rfl⟩ := execResolve_next h
  · exact ⟨responseOf 1 .ok true (some k) 0, rfl, exec_resolve_of_sel_some hk _⟩
  · exact ⟨responseOf 1 .unsupportedFormat false none 0, rfl, exec_resolve_of_sel_none hk _⟩

/-- Settles O13: the second issue is `exec_resolve_again`, the dependence on the descriptor `exec_resolve_selection`. -/
theorem resolveIsIdempotent : Obligations.ResolveIsIdempotent := by
  refine ⟨fun d s t u ht hu => ?_, fun d s s' t t' ht ht' => ?_⟩
  · obtain ⟨r, hr, hagain⟩ := exec_resolve_again ht
    exact ⟨r, hr, Host.Outcome.next.inj (hu.symm.trans hagain)⟩
  · obtain ⟨hds, hksel⟩ := exec_resolve_selection ht
    obtain ⟨hds', hksel'⟩ := exec_resolve_selection ht'
    exact ⟨hds.trans hds'.symm, hksel.trans hksel'.symm⟩

end Sys2Proof.Machine
end

section
namespace Sys2Proof

/-! ### Command packets and kernel rows (30_encoding.md R81 to R89) -/

/-- The fields of a packet decide what it is, by 30_encoding.md R81 to R85, as arithmetic on `W0`. -/
theorem decodePacket_eq (p : Packet) :
    decodePacket p =
      if p.w0.toNat / 16 % 2 ^ 28 ≠ 0 then none
      else if p.w0.toNat % 16 = 1 then
        if p.w0.toNat / 2 ^ 32 = 0 ∧ p.w2 = 0 ∧ p.w3 = 0 then some (.resolve (Descriptor.ofWord p.w1)) else none
      else if p.w0.toNat % 16 = 2 then some (.transform (p.w0.extractLsb' 32 32) p.w1 p.w2 p.w3)
      else none := by
  have hlt := p.w0.isLt
  have hop : ∀ x : BitVec 4, p.w0.extractLsb' 0 4 = x ↔ p.w0.toNat % 16 = x.toNat := fun x => by
    rw [field_eq_iff, pow_zero, Nat.div_one]
    rfl
  have hrsvd : p.w0.extractLsb' 4 28 = 0 ↔ p.w0.toNat / 16 % 2 ^ 28 = 0 := field_eq_iff p.w0 4 28 0
  have hch : p.w0.extractLsb' 32 32 = 0 ↔ p.w0.toNat / 2 ^ 32 = 0 := by
    rw [field_eq_iff, Nat.mod_eq_of_lt (by omega)]
    rfl
  simp only [decodePacket, ne_eq, hop, hrsvd, hch]
  rfl

/-- The packet of a `RESOLVE` decodes to it. -/
theorem decodePacket_resolve (d : Descriptor) : decodePacket ⟨1, d.toWord, 0, 0⟩ = some (.resolve d) := by
  rw [decodePacket_eq]
  simp [ofWord_toWord]

/-- The packet of a `TRANSFORM` decodes to it, at every value of its operands. -/
theorem decodePacket_transform (ch : BitVec 32) (buf len gain : Word) :
    decodePacket ⟨BitVec.ofNat 64 (2 + ch.toNat * 2 ^ 32), buf, len, gain⟩ = some (.transform ch buf len gain) := by
  obtain ⟨hop, hrsvd, hch⟩ := transform_fields ch.isLt (BitVec.toNat_ofNat (2 + ch.toNat * 2 ^ 32) 64)
  rw [decodePacket_eq]
  simp only [hop, hrsvd, ne_eq, not_true_eq_false, if_false, OfNat.ofNat_ne_one, if_true,
    (field_eq_iff _ 32 32 ch).2 hch]

/-- A packet that decodes is the packet of what it decodes to. -/
theorem encodePacket_of_decodePacket {p : Packet} {i : Instr} (h : decodePacket p = some i) :
    encodePacket i = some p := by
  obtain ⟨w0, w1, w2, w3⟩ := p
  rw [decodePacket_eq] at h
  split_ifs at h with hrsvd hop hzero hop2
  · obtain rfl : .resolve (Descriptor.ofWord w1) = i := Option.some.inj h
    obtain ⟨hch, rfl, rfl⟩ : w0.toNat / 2 ^ 32 = 0 ∧ w2 = 0 ∧ w3 = 0 := hzero
    have hw0 : w0 = 1 := BitVec.eq_of_toNat_eq (resolve_word hop (not_not.1 hrsvd) hch)
    rw [encodePacket, toWord_ofWord, hw0]
  · obtain rfl : .transform (w0.extractLsb' 32 32) w1 w2 w3 = i := Option.some.inj h
    have hw0 : BitVec.ofNat 64 (2 + (w0.extractLsb' 32 32).toNat * 2 ^ 32) = w0 := by
      apply BitVec.eq_of_toNat_eq
      rw [BitVec.toNat_ofNat, BitVec.extractLsb'_toNat, Nat.shiftRight_eq_div_pow]
      exact transform_word w0.isLt hop2 (not_not.1 hrsvd)
    rw [encodePacket, hw0]

/-- Every instruction stands in exactly one of the two encoded objects (30_encoding.md R80). -/
theorem oneObject (i : Instr) : Laws.OneObject.Statement i := by
  cases i with
  | resolve d => exact Laws.OneObject.resolve d
  | transform ch buf len gain => exact Laws.OneObject.transform ch buf len gain
  | kU8 => exact Laws.OneObject.kU8
  | kS8 => exact Laws.OneObject.kS8
  | kU16 => exact Laws.OneObject.kU16
  | kS16 => exact Laws.OneObject.kS16
  | kU32 => exact Laws.OneObject.kU32
  | kS32 => exact Laws.OneObject.kS32
  | kU64 => exact Laws.OneObject.kU64
  | kS64 => exact Laws.OneObject.kS64
  | kF32 => exact Laws.OneObject.kF32
  | kF64 => exact Laws.OneObject.kF64

/-- Settles O2: decoding is `decodePacket_resolve` and `decodePacket_transform`, the converse
`encodePacket_of_decodePacket`. -/
theorem commandsDecodeBack : Obligations.CommandsDecodeBack := by
  refine ⟨fun i p h => ?_, fun p i h => encodePacket_of_decodePacket h, fun i => (oneObject i).2.1⟩
  cases i with
  | resolve d =>
    obtain rfl : (⟨1, d.toWord, 0, 0⟩ : Packet) = p := Option.some.inj h
    exact decodePacket_resolve d
  | transform ch buf len gain =>
    obtain rfl : (⟨BitVec.ofNat 64 (2 + ch.toNat * 2 ^ 32), buf, len, gain⟩ : Packet) = p := Option.some.inj h
    exact decodePacket_transform ch buf len gain
  | _ => exact absurd h (by simp [encodePacket])

/-- Settles O3: each kernel row has one descriptor word, which is evaluated; a word decodes to the row of a kernel. -/
theorem kernelRowsDecodeBack : Obligations.KernelRowsDecodeBack := by
  refine ⟨fun i fd h => ?_, fun fd i h => ?_, fun i => (oneObject i).2.2⟩
  · cases i with
    | resolve d => exact absurd h (by simp [encodeDescriptor])
    | transform ch buf len gain => exact absurd h (by simp [encodeDescriptor])
    | _ =>
      obtain rfl := Option.some.inj h
      decide
  · obtain ⟨k, -, rfl⟩ := Option.map_eq_some_iff.1 h
    cases k <;> rfl

/-- Which packets are illegal (30_encoding.md R85). -/
theorem decodePacket_eq_none_iff (p : Packet) :
    decodePacket p = none ↔
      (p.w0.toNat % 16 ≠ 1 ∧ p.w0.toNat % 16 ≠ 2) ∨ p.w0.toNat / 16 % 2 ^ 28 ≠ 0 ∨
        (p.w0.toNat % 16 = 1 ∧ (p.w0.toNat / 2 ^ 32 ≠ 0 ∨ p.w2 ≠ 0 ∨ p.w3 ≠ 0)) := by
  rw [decodePacket_eq]
  split_ifs with hrsvd hop hzero hop2
  · exact iff_of_true rfl (.inr (.inl hrsvd))
  · exact iff_of_false id (by tauto)
  · exact iff_of_true rfl (by tauto)
  · exact iff_of_false id (by omega)
  · exact iff_of_true rfl (.inl ⟨hop, hop2⟩)

end Sys2Proof

namespace Sys2Proof.Machine

/-! ### The match/mask table (30_encoding.md R88, 43_dispatch.md R192) -/

/-- The fields that a row of the table asks for. -/
def rowFields (r : KernelRow) : Descriptor := Descriptor.ofWord (r.pattern.setWidth 64)

/-- The fields of a descriptor that a row looks at: `BE` and `CH` are masked out, `SGN` where the mask has no bit for it. -/
def seenBy (r : KernelRow) (d : Descriptor) : Descriptor :=
  { d with sgn := d.sgn && r.mask.getLsbD 9, be := false, ch := 0 }

/-- Every row's mask covers `BW`, `INT` and the reserved bits, and no row looks at `BE`. -/
theorem rowMask_of_mem {r : KernelRow} (hr : r ∈ kernelTable) :
    r.mask.extractLsb' 0 8 = BitVec.allOnes 8 ∧ r.mask.getLsbD 8 = true ∧ r.mask.getLsbD 10 = false ∧
      r.mask.extractLsb' 11 21 = BitVec.allOnes 21 := by
  revert r; decide

/-- A row's own fields select its kernel. -/
theorem sel_rowFields {r : KernelRow} (hr : r ∈ kernelTable) : sel (rowFields r) = some r.kernel := by
  revert r; decide

/-- A field that a mask covers is left by it. -/
theorem extractLsb'_and_mask (fd : Word) {m : BitVec 32} {i n : Nat} (hi : i + n ≤ 32)
    (hm : m.extractLsb' i n = BitVec.allOnes n) :
    ((fd.setWidth 32 &&& m).setWidth 64).extractLsb' i n = fd.extractLsb' i n := by
  apply BitVec.eq_of_getLsbD_eq
  intro j hj
  have hbit := congrArg (·.getLsbD j) hm
  simp only [BitVec.getLsbD_extractLsb', BitVec.getLsbD_allOnes, hj, decide_true, Bool.true_and] at hbit
  simp only [BitVec.getLsbD_extractLsb', BitVec.getLsbD_setWidth, BitVec.getLsbD_and, hbit, Bool.and_true]
  simp only [show i + j < 64 by omega, show i + j < 32 by omega, decide_true, Bool.true_and]

/-- The fields of a masked descriptor word. -/
theorem ofWord_and_mask {r : KernelRow} (hr : r ∈ kernelTable) (fd : Word) :
    Descriptor.ofWord ((fd.setWidth 32 &&& r.mask).setWidth 64) = seenBy r (Descriptor.ofWord fd) := by
  obtain ⟨hbw, hint, hbe, hrsvd⟩ := rowMask_of_mem hr
  have hch : ((fd.setWidth 32 &&& r.mask).setWidth 64).extractLsb' 32 32 = 0 := by
    apply BitVec.eq_of_getLsbD_eq
    intro j hj
    simp
  simp only [Descriptor.ofWord, seenBy, extractLsb'_and_mask fd (by omega) hbw,
    extractLsb'_and_mask fd (by omega) hrsvd, hch, BitVec.getLsbD_setWidth, BitVec.getLsbD_and, hint, hbe]
  simp

/-- A word hits a row exactly when the fields that the row looks at are the row's. -/
theorem rowHits_iff {r : KernelRow} (hr : r ∈ kernelTable) (fd : Word) :
    r.hits (fd.setWidth 32) = true ↔ seenBy r (Descriptor.ofWord fd) = rowFields r := by
  rw [KernelRow.hits, beq_iff_eq, ← ofWord_and_mask hr, rowFields]
  constructor
  · intro h
    rw [h]
  · intro h
    have hw := congrArg Descriptor.toWord h
    rw [toWord_ofWord, toWord_ofWord] at hw
    have h32 := congrArg (BitVec.setWidth 32) hw
    rwa [BitVec.setWidth_setWidth_of_le _ (by omega), BitVec.setWidth_setWidth_of_le _ (by omega),
      BitVec.setWidth_eq, BitVec.setWidth_eq] at h32

/-- A row without a mask bit for `SGN` is one for `INT = 0`. -/
theorem rowFields_int_of_mem {r : KernelRow} (hr : r ∈ kernelTable) (h9 : r.mask.getLsbD 9 = false) :
    (rowFields r).int = false := by
  revert r; decide

/-- The selection reads no more than a row that matches. -/
theorem sel_of_seenBy {r : KernelRow} (hr : r ∈ kernelTable) {d : Descriptor} (h : seenBy r d = rowFields r) :
    sel d = some r.kernel := by
  rw [← sel_rowFields hr, ← h]
  rcases h9 : r.mask.getLsbD 9
  · have hint : d.int = false := by
      have := rowFields_int_of_mem hr h9
      rwa [← h] at this
    simp [sel, seenBy, hint]
  · simp [sel, seenBy, h9]

/-- A descriptor that selects a kernel has the fields of the kernel's row. -/
theorem exists_row_of_sel {d : Descriptor} {k : Kernel} (h : sel d = some k) :
    ∃ r ∈ kernelTable, seenBy r d = rowFields r := by
  obtain ⟨bw, int, sgn, be, rsvd, ch⟩ := d
  obtain ⟨hrsvd, ⟨hint, ⟨hbw, -⟩ | ⟨hbw, -⟩⟩ | ⟨hint, ⟨hbw, -⟩ | ⟨hbw, -⟩ | ⟨hbw, -⟩ | ⟨hbw, -⟩⟩⟩ := sel_eq_some h
  all_goals
    simp only at hrsvd hint hbw
    subst hrsvd hint hbw
    simp only [seenBy]
    cases sgn <;> decide

/-- Settles O6: a hit gives the kernel by `sel_of_seenBy`, a selected kernel gives a hit by `exists_row_of_sel`, and
two rows that one value hits have one kernel. -/
theorem selectionIsTheMaskTable : Obligations.SelectionIsTheMaskTable := by
  have hhit : ∀ (fd : Word) (r : KernelRow), r ∈ kernelTable → r.hits (fd.setWidth 32) = true →
      sel (Descriptor.ofWord fd) = some r.kernel :=
    fun fd r hr h => sel_of_seenBy hr ((rowHits_iff hr fd).1 h)
  refine ⟨hhit, fun fd hmiss => ?_, fun low r r' hr hr' h h' => ?_, by decide⟩
  · cases hsel : sel (Descriptor.ofWord fd) with
    | none => rfl
    | some k =>
      obtain ⟨r, hr, hseen⟩ := exists_row_of_sel hsel
      have hmiss := hmiss r hr
      rw [(rowHits_iff hr fd).2 hseen] at hmiss
      exact Bool.noConfusion hmiss
  · have hlow : (low.setWidth 64).setWidth 32 = low := by
      rw [BitVec.setWidth_setWidth_of_le _ (by omega), BitVec.setWidth_eq]
    have hk := hhit (low.setWidth 64) r hr (by rwa [hlow])
    have hk' := hhit (low.setWidth 64) r' hr' (by rwa [hlow])
    have hrows : ∀ a ∈ kernelTable, ∀ b ∈ kernelTable, a.kernel = b.kernel → a = b := by decide
    exact hrows r hr r' hr' (Option.some.inj (hk.symm.trans hk'))

/-! ### Which descriptors resolve (43_dispatch.md R195) -/

/-- A nonzero reserved bit selects no kernel. -/
theorem sel_of_rsvd_ne_zero {d : Descriptor} (h : d.rsvd ≠ 0) : sel d = none := by rw [sel, if_pos h]

/-- The selection reads the low half of the word only. -/
theorem sel_ofWord_congr {fd fd' : Word} (h : fd.toNat % 2 ^ 32 = fd'.toNat % 2 ^ 32) :
    sel (Descriptor.ofWord fd) = sel (Descriptor.ofWord fd') := by
  have hlow : fd.setWidth 32 = fd'.setWidth 32 := BitVec.eq_of_toNat_eq (by simpa using h)
  have hnone : ∀ a b : Word, a.setWidth 32 = b.setWidth 32 → ∀ k, sel (Descriptor.ofWord a) = some k →
      sel (Descriptor.ofWord b) = some k := by
    intro a b hab k hk
    obtain ⟨r, hr, hseen⟩ := exists_row_of_sel hk
    have hhit := (rowHits_iff hr a).2 hseen
    rw [← hk, sel_of_seenBy hr hseen, sel_of_seenBy hr ((rowHits_iff hr b).1 (hab ▸ hhit))]
  exact Option.ext fun k => ⟨hnone fd fd' hlow k, hnone fd' fd hlow.symm k⟩

/-- Settles O7: the count is an evaluation of `sel` on the 2^11 values, the other clauses are
`sel_of_rsvd_ne_zero`, `sel_ofWord_congr` and the table's own patterns. -/
theorem resolvableDescriptors : Obligations.ResolvableDescriptors := by
  refine ⟨by decide +kernel, fun fd h => sel_of_rsvd_ne_zero fun h0 => h ?_, fun fd fd' => sel_ofWord_congr,
    fun k => ?_⟩
  · exact (field_eq_iff fd 11 21 0).1 h0
  · cases k
    case u8 => exact ⟨0x108, by decide⟩
    case s8 => exact ⟨0x308, by decide⟩
    case u16 => exact ⟨0x110, by decide⟩
    case s16 => exact ⟨0x310, by decide⟩
    case u32 => exact ⟨0x120, by decide⟩
    case s32 => exact ⟨0x320, by decide⟩
    case u64 => exact ⟨0x140, by decide⟩
    case s64 => exact ⟨0x340, by decide⟩
    case f32 => exact ⟨0x20, by decide⟩
    case f64 => exact ⟨0x40, by decide⟩

end Sys2Proof.Machine
end

section
namespace Sys2Proof.Machine

/-! ### The response word (30_encoding.md R96) -/

theorem errBits_lt (err : ErrCode) : (errBits err).toNat < 10 := by cases err <;> decide

/-- Settles O10: the fields of `Q0` read back by `response_fields`. -/
theorem responseFields : Obligations.ResponseFields := by
  intro op err res ksel info
  obtain ⟨hop, herr, hres, hksel, hlt, hrsvd⟩ := response_fields op.isLt (errBits err).isLt (Bool.toNat_le res)
    (kselCode ksel).isLt (BitVec.toNat_ofNat _ 64)
  have hop' : (responseOf op err res ksel info).q0.toNat / 2 ^ 0 % 2 ^ 4 = op.toNat := by
    rwa [pow_zero, Nat.div_one]
  exact ⟨(field_eq_iff _ 0 4 op).2 hop', (field_eq_iff _ 4 4 _).2 herr, getLsbD_of_toNat hres,
    (field_eq_iff _ 12 4 _).2 hksel, rfl, hlt, hrsvd, errBits_lt err⟩

/-! ### The two commands (43_dispatch.md R191 to R196, 40_transform.md R110, R111) -/

/-- Settles O11. -/
theorem resolveCachesKernel : Obligations.ResolveCachesKernel := fun _ _ s h => exec_resolve_of_sel_some h s

/-- Settles O12. -/
theorem resolveFailureDiscardsSelection : Obligations.ResolveFailureDiscardsSelection :=
  fun _ s h => exec_resolve_of_sel_none h s

/-- `RESOLVE` looks at a descriptor through the selection only. -/
theorem exec_resolve_congr {d d' : Descriptor} (h : sel d' = sel d) (s : State) :
    exec (.resolve d') s = exec (.resolve d) s := by
  simp only [exec, execResolve, h]

/-- Settles O14: the selection does not read `BE` and `CH`, nor `SGN` when `INT = 0`. -/
theorem resolveIgnoresFields : Obligations.ResolveIgnoresFields :=
  fun _ _ _ _ s => ⟨exec_resolve_congr rfl s, fun hint => exec_resolve_congr (by simp [sel, hint]) s⟩

section
variable {ch : BitVec 32} {buf len gain : Word} {s : State}

/-- A `TRANSFORM` with a failing check is refused with that check's fault. -/
theorem exec_transform_refused {e : ErrCode} (h : failedCheck (s.latch ch buf len gain) = some e) :
    exec (.transform ch buf len gain) s = .next (afterRefusedTransform ch buf len gain e s) := by
  simp only [exec, execTransform, h]
  rfl

/-- A `TRANSFORM` whose checks pass starts its walk. -/
theorem exec_transform_started (h : failedCheck (s.latch ch buf len gain) = none) :
    exec (.transform ch buf len gain) s = .next (s.latch ch buf len gain) := by
  simp only [exec, execTransform, h]

theorem failedCheck_of_unresolved {t : State} (h : t.ds = false) : failedCheck t = some .notResolved := by
  unfold failedCheck
  rw [h]

/-- The checks 2 to 6 of R111 on a resolved core, in their order. -/
theorem failedCheck_of_resolved {t : State} {k : Kernel} (hds : t.ds = true) (hk : t.ksel = some k) :
    failedCheck t =
      if t.oCh = 0 then some .zeroChannels
      else if t.cfg.maxCh < t.oCh.toNat then some .channelRange
      else if gainOk k t.oGain = false then some .badGain
      else if t.oBuf.toNat % elemBytes k ≠ 0 then some .bufUnaligned
      else if 2 ^ t.cfg.aw < t.oBuf.toNat + t.oLen.toNat then some .bufRange
      else none := by
  unfold failedCheck
  rw [hds, hk]

/-- Settles O15: `DS` is the first check. -/
theorem transformNeedsResolve : Obligations.TransformNeedsResolve :=
  fun _ _ _ _ _ hds => ⟨_, exec_transform_refused (failedCheck_of_unresolved hds), rfl, rfl, rfl, rfl, rfl, rfl⟩

/-- Settles O16: each premise decides the conditions of `failedCheck_of_resolved` up to the one that fails. -/
theorem transformChecksInOrder : Obligations.TransformChecksInOrder := by
  intro ch buf len gain s
  refine ⟨fun hds => exec_transform_refused (failedCheck_of_unresolved hds), fun k hds hk => ?_⟩
  have hcheck := failedCheck_of_resolved (t := s.latch ch buf len gain) hds hk
  refine ⟨fun h0 => ?_, fun h0 hch => ?_, fun h0 hch hgain => ?_, fun h0 hch hgain hbuf => ?_,
    fun h0 hch hgain hbuf hlen => ?_, fun hmax => ?_⟩
  · exact exec_transform_refused (by rw [hcheck, latch_oCh, if_pos h0])
  · exact exec_transform_refused (by rw [hcheck, latch_oCh, if_neg h0, latch_cfg, if_pos hch])
  · exact exec_transform_refused (by
      rw [hcheck, latch_oCh, if_neg h0, latch_cfg, if_neg hch.not_gt, latch_oGain, if_pos hgain])
  · exact exec_transform_refused (by
      rw [hcheck, latch_oCh, if_neg h0, latch_cfg, if_neg hch.not_gt, latch_oGain, if_neg (by simp [hgain]),
        latch_oBuf, if_pos hbuf])
  · exact exec_transform_refused (by
      rw [hcheck, latch_oCh, if_neg h0, latch_cfg, if_neg hch.not_gt, latch_oGain, if_neg (by simp [hgain]),
        latch_oBuf, if_neg (not_not.2 hbuf), latch_oLen, if_pos hlen])
  · have hlt := ch.isLt
    omega

/-- Settles O18: no condition of `failedCheck_of_resolved` is met. -/
theorem transformStartsWalk : Obligations.TransformStartsWalk := by
  intro ch buf len gain s k hds hk h0 hch hgain hbuf hlen
  refine exec_transform_started ?_
  rw [failedCheck_of_resolved (t := s.latch ch buf len gain) hds hk, latch_oCh, if_neg h0, latch_cfg,
    if_neg hch.not_gt, latch_oGain, if_neg (by simp [hgain]), latch_oBuf, if_neg (not_not.2 hbuf), latch_oLen,
    if_neg hlen.not_gt]

end

/-- Settles O28: the frame of each of the outcomes of the two commands. -/
theorem commandFrame : Obligations.CommandFrame := by
  refine ⟨fun d s t h => ?_, fun ch buf len gain s t h => ?_⟩
  · obtain ⟨k, -, rfl⟩ | ⟨-, rfl⟩ := execResolve_next h
    all_goals exact ⟨fun _ => rfl, rfl, rfl, rfl, rfl, rfl, rfl, rfl, rfl, rfl, rfl, rfl, rfl⟩
  · obtain ⟨e, -, rfl⟩ | ⟨-, rfl⟩ := execTransform_next h
    all_goals exact ⟨fun _ => rfl, rfl, rfl, rfl, rfl, rfl, rfl, rfl, rfl⟩

/-! ### What a step of the machine runs (10_state.md R31, 30_encoding.md R85) -/

/-- An idle core takes the packet at its port. -/
theorem step_accept {s : State} {p : Packet} {rest : List HostEvent} (hb : s.busy = false)
    (hh : s.host = .command p :: rest) : step s = .next ((s.withHost rest).accept p) := by
  unfold step machineStep
  rw [hh]
  simp only [hb, Bool.false_eq_true, if_false]

/-- The core executes the packet it holds. -/
theorem coreStep_packet {s : State} {p : Packet} (hb : s.busy = true) (hc : s.cmd = some p) :
    coreStep s = runPacket p s.takeCmd := by
  unfold coreStep
  simp only [hb, hc, if_true]

/-- In a walk the core runs the kernel that `KSEL` names. -/
theorem coreStep_walk {s : State} {k : Kernel} (hw : s.inWalk) (hk : s.ksel = some k) :
    coreStep s = exec k.instr s := by
  obtain ⟨hb, hc⟩ := hw
  unfold coreStep
  simp only [hb, hc, hk, if_true]

theorem coreStep_idle {s : State} (hb : s.busy = false) : coreStep s = .next s := by
  unfold coreStep
  simp only [hb, Bool.false_eq_true, if_false]

/-- A packet that decodes runs as its command. -/
theorem runPacket_of_some {p : Packet} {i : Instr} (h : decodePacket p = some i) (s : State) :
    runPacket p s = exec i s := by
  simp only [runPacket, h]

/-- An illegal packet is answered. -/
theorem runPacket_of_none {p : Packet} (h : decodePacket p = none) (s : State) :
    runPacket p s = .next (s.raise (p.w0.extractLsb' 0 4) .illegalCommand 0) := by
  simp only [runPacket, h]

/-- Settles O47: an idle core accepts by `step_accept`; at the core's turn the step is `coreStep`. -/
theorem stepRunsWhatIsNext : Obligations.StepRunsWhatIsNext := by
  refine ⟨fun s p rest hb hh => step_accept hb hh, fun s u p i hu hb hc hi => ?_, fun s u k hu hw hk => ?_,
    fun s hb hh => ?_⟩
  · obtain ⟨es, rfl⟩ := coreTurn_withHost hu
    rw [step_coreTurn hu, coreStep_packet (s := s.withHost es) hb hc, runPacket_of_some hi]
    rfl
  · obtain ⟨es, rfl⟩ := coreTurn_withHost hu
    rw [step_coreTurn hu, coreStep_walk (s := s.withHost es) hw hk]
  · rw [step_coreTurn (.inl ⟨hh, rfl⟩), coreStep_idle hb]

/-- Outside a walk the invariant leaves no `PRV` entry and no waiting result: with a packet held. -/
theorem outside_of_cmd {s : State} (hs : s.Inv) {p : Packet} (hc : s.cmd = some p) : s.prv = [] ∧ s.out = none :=
  hs.outside fun hw => by simp [hw.2] at hc

/-- Outside a walk the invariant leaves no `PRV` entry and no waiting result: on an idle core. -/
theorem outside_of_idle {s : State} (hs : s.Inv) (hb : s.busy = false) : s.prv = [] ∧ s.out = none :=
  hs.outside fun hw => by simp [hw.1] at hb

/-- At the core's turn an illegal packet that is held is answered, and nothing else changes. -/
theorem step_illegal {s u : State} {p : Packet} (hs : s.prv = [] ∧ s.out = none) (hu : coreTurn s u)
    (hb : s.busy = true) (hc : s.cmd = some p) (hp : decodePacket p = none) :
    step s = .next { u with
      busy := false
      cmd := none
      responses := s.responses ++ [responseOf (p.w0.extractLsb' 0 4) .illegalCommand s.ds s.ksel 0] } := by
  obtain ⟨hprv, hout⟩ := hs
  obtain ⟨es, rfl⟩ := coreTurn_withHost hu
  rw [step_coreTurn hu, coreStep_packet (s := s.withHost es) hb hc, runPacket_of_none hp]
  simp only [State.raise, State.complete, State.respond, State.takeCmd, State.withHost, hprv, hout]

/-- A run of the machine begins with its step. -/
theorem run_of_step {s t : State} (m : Nat) (h : step s = .next t) :
    Host.Core.run Sys2Proof.core (m + 1) s = Host.Core.run Sys2Proof.core m t := run_succ Sys2Proof.core m s t h

/-- A run of two steps. -/
theorem run_two {s t u : State} (h : step s = .next t) (h' : step t = .next u) :
    Host.Core.run Sys2Proof.core 2 s = .next u := (run_of_step 1 h).trans (run_of_step 0 h')

/-- Settles O5: which packets, by `decodePacket_eq_none_iff`; what the core does, by `step_illegal`, for the last clause
after `step_accept`. -/
theorem illegalPacketsExactly : Obligations.IllegalPacketsExactly := by
  refine ⟨decodePacket_eq_none_iff, fun s u p hs hu hb hc hp => step_illegal (outside_of_cmd hs hc) hu hb hc hp,
    fun s p hs hb hh hp => ?_⟩
  have hout : ((s.withHost []).accept p).prv = [] ∧ ((s.withHost []).accept p).out = none := (outside_of_idle hs hb :)
  refine (run_two (step_accept hb hh) (step_illegal hout (.inl ⟨rfl, rfl⟩) rfl rfl hp)).trans ?_
  simp only [State.accept, State.withHost, ← hb, ← (hs.idle hb).1]

end Sys2Proof.Machine
end

section
namespace Sys2Proof.Machine

/-! ### The invariant (10_state.md R9, R23, R28, R29, R33, R41) -/

/-- The part of the invariant that no walk has to do with. -/
structure CoreInv (s : State) : Prop where
  config : s.cfg.Ok
  memory : MemWf s.mem
  memoryInside : ∀ x ∈ s.mem, x.1 < 2 ^ s.cfg.aw
  selection : s.ds = s.ksel.isSome

theorem State.Inv.core {s : State} (hs : s.Inv) : CoreInv s := ⟨hs.config, hs.memory, hs.memoryInside, hs.selection⟩

/-- It speaks of the parameters, memory and the selection only. -/
theorem CoreInv.congr {s t : State} (hs : CoreInv s) (hcfg : t.cfg = s.cfg) (hmem : t.mem = s.mem)
    (hsel : t.ds = t.ksel.isSome) : CoreInv t :=
  ⟨hcfg ▸ hs.config, hmem ▸ hs.memory, hmem ▸ hcfg ▸ hs.memoryInside, hsel⟩

/-- Outside a walk the invariant asks for no `PRV` entry, no waiting result and no packet held while idle. -/
theorem inv_of_not_inWalk {s : State} (hs : CoreInv s) (hw : ¬ s.inWalk) (hprv : s.prv = []) (hout : s.out = none)
    (hcmd : s.busy = false → s.cmd = none) : s.Inv where
  config := hs.config
  memory := hs.memory
  memoryInside := hs.memoryInside
  selection := hs.selection
  prvForm := hprv ▸ List.Pairwise.nil
  idle := fun hb => ⟨hcmd hb, hout⟩
  outside := fun _ => ⟨hprv, hout⟩
  checked := fun h => absurd h hw
  position := fun _ h => absurd h hw
  prvValid := fun h => absurd h hw
  prvNarrow := fun _ h => absurd h hw
  waiting := fun _ _ h => absurd h hw

/-- An idle core with nothing left of its command. -/
theorem inv_of_idle {s : State} (hs : CoreInv s) (hb : s.busy = false) (hcmd : s.cmd = none) (hprv : s.prv = [])
    (hout : s.out = none) : s.Inv :=
  inv_of_not_inWalk hs (fun hw => by simp [hw.1] at hb) hprv hout fun _ => hcmd

/-- Settles O46: the reset state is idle with an empty memory. -/
theorem resetMeetsInvariant : Obligations.ResetMeetsInvariant := by
  have hreset : ∀ cfg : Config, cfg.Ok → State.Inv { State.reset with cfg := cfg } := fun cfg hcfg =>
    inv_of_idle ⟨hcfg, memWf_reset, fun x hx => absurd hx List.not_mem_nil, rfl⟩ rfl rfl rfl rfl
  exact ⟨hreset Config.suggested (by decide), hreset⟩

/-- The invariant does not speak of the events still to come and the platform. -/
theorem inv_withHost {s : State} (hs : s.Inv) (es : List HostEvent) : (s.withHost es).Inv :=
  ⟨hs.config, hs.memory, hs.memoryInside, hs.selection, hs.prvForm, hs.idle, hs.outside, hs.checked, hs.position,
    hs.prvValid, hs.prvNarrow, hs.waiting⟩

theorem inv_withRegions {s : State} (hs : s.Inv) (rs : List Region) : (s.withRegions rs).Inv :=
  ⟨hs.config, hs.memory, hs.memoryInside, hs.selection, hs.prvForm, hs.idle, hs.outside, hs.checked, hs.position,
    hs.prvValid, hs.prvNarrow, hs.waiting⟩

/-- A fault leaves an idle core. -/
theorem inv_raise {s : State} (hs : CoreInv s) (hcmd : s.cmd = none) (op : BitVec 4) (e : ErrCode) (i : Word) :
    (s.raise op e i).Inv :=
  inv_of_idle (hs.congr rfl rfl hs.selection) rfl hcmd rfl rfl

/-- A store keeps memory in canonical form, and inside the address space when its bytes are. -/
theorem memInv_putBytes {m : List Host.Cell} {aw a : Nat} {bs : List Byte} (hm : MemWf m)
    (hi : ∀ x ∈ m, x.1 < 2 ^ aw) (h : a + bs.length ≤ 2 ^ aw) :
    MemWf (memPutBytes m a bs) ∧ ∀ x ∈ memPutBytes m a bs, x.1 < 2 ^ aw := by
  refine ⟨memWf_putBytes hm a bs, fun x hx => ?_⟩
  obtain ⟨-, hlt⟩ | hx := mem_memPutBytes hx
  · omega
  · exact hi x hx

/-! ### The position of a walk (10_state.md R23) -/

/-- The next channel of the position, and the next frame after the last channel. -/
theorem advance_bounds {f c n nf : Nat} (hf : f < nf) (hc : c < n) :
    (if c + 1 < n then f else f + 1) ≤ nf ∧ (if c + 1 < n then c + 1 else 0) < n ∧
      ((if c + 1 < n then f else f + 1) = nf → (if c + 1 < n then c + 1 else 0) = 0) := by
  split <;> omega

/-- The start of a `TRANSFORM` whose checks pass. -/
theorem inv_latch {s : State} (hs : CoreInv s) (hcmd : s.cmd = none) (hprv : s.prv = []) {ch : BitVec 32}
    {buf len gain : Word} (hcheck : failedCheck (s.latch ch buf len gain) = none) : (s.latch ch buf len gain).Inv where
  config := hs.config
  memory := hs.memory
  memoryInside := hs.memoryInside
  selection := hs.selection
  prvForm := by rw [latch_prv, hprv]; exact List.Pairwise.nil
  idle := fun hb => Bool.noConfusion hb
  outside := fun hw => absurd ⟨rfl, hcmd⟩ hw
  checked := fun _ => hcheck
  position := fun k _ hk => by
    obtain ⟨hne, -⟩ := checks_of_checked hcheck hk
    have hpos : 0 < ch.toNat := Nat.pos_of_ne_zero fun h0 => hne (BitVec.eq_of_toNat_eq h0)
    exact ⟨Nat.zero_le _, hpos, fun _ => rfl⟩
  prvValid := fun _ c => by
    rw [latch_prv, hprv]
    rfl
  prvNarrow := fun k _ _ x hx => by
    rw [latch_prv, hprv] at hx
    exact absurd hx List.not_mem_nil
  waiting := fun k v _ _ hv => by simp at hv

/-! ### The steps of a walk keep the invariant (40_transform.md R117 to R119) -/

/-- A channel is listed after a write of `PRV` when it was, or when it is the one written. -/
theorem sparseFind_put_isSome {α : Type} (j k : Nat) (v : α) (l : List (Nat × α)) :
    (sparseFind j (sparsePut k v l)).isSome = (decide (j = k) || (sparseFind j l).isSome) := by
  by_cases h : j = k
  · rw [h, sparseFind_put_self, decide_eq_true rfl]
    rfl
  · rw [sparseFind_put_other h, decide_eq_false h, Bool.false_or]

section
variable {s : State} {k : Kernel} (hs : s.Inv) (hw : s.inWalk) (hk : s.ksel = some k)
include hs hw hk

/-- A channel's entry of `PRV` that takes an element of the kernel's width leaves all entries of that width. -/
theorem prvNarrow_put (c i : Nat) :
    ∀ x ∈ sparsePut c (elemAt s (elemBytes k) i) s.prv, x.2.toNat < 2 ^ (8 * elemBytes k) := by
  intro x hx
  obtain rfl | hx := mem_sparsePut hx
  · exact elemAt_lt s (elemBytes k) i
  · exact hs.prvNarrow k hw hk x hx

/-- A frame-0 load. -/
theorem inv_load (hf : s.f < frames s (elemBytes k)) (h0 : s.f = 0) (ho : s.out = none) :
    ((afterLoad (elemBytes k) s).advance).Inv where
  config := hs.config
  memory := hs.memory
  memoryInside := hs.memoryInside
  selection := hs.selection
  prvForm := sparseRising_put _ _ hs.prvForm
  idle := fun hb => absurd (hw.1.symm.trans hb) Bool.noConfusion
  outside := fun h => absurd hw h
  checked := fun _ => hs.checked hw
  position := fun k' _ hk' => by
    obtain rfl : k = k' := Option.some.inj (hk.symm.trans hk')
    exact advance_bounds hf (hs.position k hw hk).2.1
  prvValid := fun _ ch => by
    obtain ⟨-, hc, -⟩ := hs.position k hw hk
    simp only [advance_prv, putPrv_prv, noteAccess_prv, sparseFind_put_isSome, hs.prvValid hw ch, validChannels,
      advance_f, advance_c, putPrv_f, putPrv_c, putPrv_oCh, noteAccess_f, noteAccess_c, noteAccess_oCh, h0,
      advance_oCh, if_true, ← Bool.decide_or]
    congr 1
    rw [eq_iff_iff]
    by_cases hlast : s.c + 1 < s.oCh.toNat
    · simp only [hlast, if_true]
      omega
    · simp only [hlast, if_false, zero_add, one_ne_zero]
      omega
  prvNarrow := fun k' _ hk' => by
    obtain rfl : k = k' := Option.some.inj (hk.symm.trans hk')
    exact prvNarrow_put hs hw hk s.c (posIndex s)
  waiting := fun k' v _ _ hv => absurd (ho.symm.trans hv) (Option.some_ne_none v).symm

/-- The read of a position. -/
theorem inv_read (hf : s.f < frames s (elemBytes k)) (h0 : s.f ≠ 0) {out : Word}
    (hout : out.toNat < 2 ^ (8 * elemBytes k)) : (afterRead (elemBytes k) out s).Inv where
  config := hs.config
  memory := hs.memory
  memoryInside := hs.memoryInside
  selection := hs.selection
  prvForm := sparseRising_put _ _ hs.prvForm
  idle := fun hb => absurd (hw.1.symm.trans hb) Bool.noConfusion
  outside := fun h => absurd hw h
  checked := fun _ => hs.checked hw
  position := fun k' _ hk' => hs.position k' hw hk'
  prvValid := fun _ ch => by
    obtain ⟨-, hc, -⟩ := hs.position k hw hk
    simp only [afterRead, sparseFind_put_isSome, hs.prvValid hw ch, validChannels, h0, if_false, ← Bool.decide_or]
    congr 1
    rw [eq_iff_iff]
    omega
  prvNarrow := fun k' _ hk' => by
    obtain rfl : k = k' := Option.some.inj (hk.symm.trans hk')
    exact prvNarrow_put hs hw hk s.c (posIndex s)
  waiting := fun k' v _ hk' hv => by
    obtain rfl : k = k' := Option.some.inj (hk.symm.trans hk')
    obtain rfl : out = v := Option.some.inj hv
    exact ⟨Nat.pos_of_ne_zero h0, hf, hout⟩

/-- The write of a position. -/
theorem inv_write {out : Word} (ho : s.out = some out)
    (hwrite : portAnswer s .write (elemAddr s (elemBytes k) (posIndex s)) (elemBytes k) = .ok) :
    (afterWrite (elemBytes k) out s).Inv := by
  obtain ⟨hf1, hf, -⟩ := hs.waiting k out hw hk ho
  obtain ⟨-, hc, -⟩ := hs.position k hw hk
  have hmem := memInv_putBytes (bs := splitBytes s.cfg.order (elemBytes k) out) hs.memory hs.memoryInside
    (by rw [splitBytes_length]; exact inside_of_answered hwrite)
  exact {
    config := hs.config
    memory := hmem.1
    memoryInside := hmem.2
    selection := hs.selection
    prvForm := hs.prvForm
    idle := fun hb => absurd (hw.1.symm.trans hb) Bool.noConfusion
    outside := fun h => absurd hw h
    checked := fun _ => hs.checked hw
    position := fun k' _ hk' => by
      obtain rfl : k = k' := Option.some.inj (hk.symm.trans hk')
      exact advance_bounds hf hc
    prvValid := fun _ ch => by
      have hne : s.f ≠ 0 := by omega
      have hne' : (if s.c + 1 < s.oCh.toNat then s.f else s.f + 1) ≠ 0 := by split <;> omega
      have hold := hs.prvValid hw ch
      rw [validChannels, if_neg hne] at hold
      simp only [afterWrite, validChannels, hne', if_false, hold]
    prvNarrow := fun k' _ hk' => hs.prvNarrow k' hw hk'
    waiting := fun k' v _ _ hv => absurd hv (Option.some_ne_none v).symm }

/-- Every case of a walk step. -/
theorem inv_walk {t : State} (h : WalkNext (elemBytes k) (kernelFn k s.draws) s t) : t.Inv := by
  have hidle : s.busy ≠ false := by simp [hw.1]
  cases h with
  | idle hb ht => exact absurd hb hidle
  | write hb out ho hwr ht => exact ht ▸ inv_write hs hw hk ho hwr
  | writeFault hb out ho hwr ht => exact ht ▸ inv_raise hs.core hw.2 _ _ _
  | finish hb ho hf ht =>
    exact ht ▸ inv_of_idle (hs.core.congr rfl rfl hs.selection) rfl hw.2 rfl ho
  | load hb ho hf h0 hr ht => exact ht ▸ inv_load hs hw hk hf h0 ho
  | readFault hb ho hf hr ht => exact ht ▸ inv_raise hs.core hw.2 _ _ _
  | badGain hb ho hf h0 hr hkern ht =>
    have hread : CoreInv (s.noteAccess .read (elemAddr s (elemBytes k) (posIndex s)) (elemBytes k)) :=
      hs.core.congr rfl rfl hs.selection
    exact ht ▸ inv_raise hread hw.2 _ _ _
  | read hb ho hf h0 hr out hkern ht =>
    have hgain := (checks_of_checked (hs.checked hw) hk).2.2.1
    obtain ⟨v, hv, hlt⟩ := kernelFn_some k s.draws s.oGain (elemAt s (elemBytes k) (posIndex s)) (prvEntry s s.c) hgain
    obtain rfl : v = out := Option.some.inj (hv.symm.trans hkern)
    exact ht ▸ inv_read hs hw hk hf h0 hlt

end

/-! ### Every step keeps the invariant -/

/-- The execution of a packet, from a state outside a walk that no longer holds it. -/
theorem inv_runPacket {s t : State} {p : Packet} (hs : CoreInv s) (hcmd : s.cmd = none) (hprv : s.prv = [])
    (hout : s.out = none) (h : runPacket p s = .next t) : t.Inv := by
  obtain ⟨d, -, h⟩ | ⟨ch, buf, len, gain, -, h⟩ | ⟨-, rfl⟩ := runPacket_next h
  · obtain ⟨k, -, rfl⟩ | ⟨-, rfl⟩ := execResolve_next h
    · exact inv_of_idle (hs.congr rfl rfl rfl) rfl hcmd hprv hout
    · exact inv_raise (s := s.select none) (hs.congr rfl rfl rfl) hcmd _ _ _
  · obtain ⟨e, -, rfl⟩ | ⟨hcheck, rfl⟩ := execTransform_next h
    · exact inv_raise (s := s.latch ch buf len gain) (hs.congr rfl rfl hs.selection) hcmd _ _ _
    · exact inv_latch hs hcmd hprv hcheck
  · exact inv_raise hs hcmd _ _ _

theorem inv_coreStep {s t : State} (hs : s.Inv) (h : coreStep s = .next t) : t.Inv := by
  have hcore := hs.core
  cases coreStep_next h with
  | idle hb ht => exact ht ▸ hs
  | packet hb p hc h =>
    obtain ⟨hprv, hout⟩ := outside_of_cmd hs hc
    exact inv_runPacket (s := s.takeCmd) (hcore.congr rfl rfl hcore.selection) rfl hprv hout h
  | walk hb hc k hk h => exact inv_walk hs ⟨hb, hc⟩ hk h
  | noKernel hb hc hk ht => exact ht ▸ inv_raise hcore hc _ _ _

/-- A store of the outside that lands. -/
theorem inv_storeBytes {s : State} (hs : s.Inv) {a : Nat} {bs : List Byte} (h : bs = [] ∨ a + bs.length ≤ 2 ^ s.cfg.aw) :
    (s.storeBytes a bs).Inv := by
  have hmem : MemWf (memPutBytes s.mem a bs) ∧ ∀ x ∈ memPutBytes s.mem a bs, x.1 < 2 ^ s.cfg.aw := by
    obtain rfl | h := h
    · exact ⟨hs.memory, hs.memoryInside⟩
    · exact memInv_putBytes hs.memory hs.memoryInside h
  exact ⟨hs.config, hmem.1, hmem.2, hs.selection, hs.prvForm, hs.idle, hs.outside, hs.checked, hs.position,
    hs.prvValid, hs.prvNarrow, hs.waiting⟩

theorem inv_step {s t : State} (hs : s.Inv) (h : step s = .next t) : t.Inv := by
  have hcore := hs.core
  cases machineStep_next h with
  | core u hu hstep =>
    obtain ⟨es, rfl⟩ := coreTurn_withHost hu
    exact inv_coreStep (inv_withHost hs es) hstep
  | accept p rest hb hh ht =>
    obtain ⟨hprv, hout⟩ := outside_of_idle hs hb
    exact ht ▸ inv_of_not_inWalk (s := (s.withHost rest).accept p) (hcore.congr rfl rfl hcore.selection)
      (fun hw => absurd hw.2 (Option.some_ne_none p)) hprv hout fun hbusy => Bool.noConfusion hbusy
  | reset rest hh ht =>
    exact ht ▸ inv_of_idle (hcore.congr rfl rfl rfl) rfl rfl rfl rfl
  | store a bs rest hh hr ht =>
    refine ht ▸ inv_storeBytes (inv_withHost hs rest) ?_
    rw [withHost_cfg, List.length_take, List.take_eq_nil_iff]
    omega
  | quiet es rs hh ht => exact ht ▸ inv_withRegions (inv_withHost hs es) rs

/-- Settles O45: `inv_step`. -/
theorem stepKeepsInvariant : Obligations.StepKeepsInvariant := fun _ _ hs h => inv_step hs h

/-! ### What a step can write (20_memory.md R51, R60) -/

/-- An element of frames 1 to `NF - 1` lies between the first frame and the end of the last full one. -/
theorem element_in_later_frames {f c n nf w : Nat} (hf1 : 1 ≤ f) (hf : f < nf) (hc : c < n) :
    n * w ≤ (f * n + c) * w ∧ (f * n + c) * w + w ≤ nf * n * w := by
  have h1 : 1 * n ≤ f * n := Nat.mul_le_mul_right n hf1
  have h2 : (f + 1) * n ≤ nf * n := Nat.mul_le_mul_right n hf
  have hlast : (f * n + c + 1) * w ≤ nf * n * w := Nat.mul_le_mul_right w (by rw [Nat.add_mul] at h2; omega)
  refine ⟨Nat.mul_le_mul_right w (by omega), ?_⟩
  rwa [Nat.add_mul, Nat.one_mul] at hlast

/-- A step of a walk changes no byte, or it is the write of the result that waits and the byte lies in its element. -/
theorem memByte_walk {w : Nat} {kern : Word → Word → Word → Option Word} {s t : State} (h : WalkNext w kern s t) {a : Nat}
    (ha : memByte t.mem a ≠ memByte s.mem a) :
    s.out.isSome = true ∧ elemAddr s w (posIndex s) ≤ a ∧ a < elemAddr s w (posIndex s) + w := by
  cases h with
  | write hb out ho hw ht =>
    refine ⟨by rw [ho]; rfl, ?_⟩
    rw [ht, afterWrite] at ha
    by_contra hout
    refine ha (memByte_putBytes_other ?_)
    rw [splitBytes_length]
    omega
  | _ =>
    rename_i ht
    exact absurd (ht ▸ rfl) ha

/-- The execution of a packet writes nothing. -/
theorem mem_runPacket {s t : State} {p : Packet} (h : runPacket p s = .next t) : t.mem = s.mem := by
  obtain ⟨d, -, h⟩ | ⟨ch, buf, len, gain, -, h⟩ | ⟨-, rfl⟩ := runPacket_next h
  · obtain ⟨k, -, rfl⟩ | ⟨-, rfl⟩ := execResolve_next h <;> rfl
  · obtain ⟨e, -, rfl⟩ | ⟨-, rfl⟩ := execTransform_next h <;> rfl
  · rfl

/-- A step of the core changes bytes of the later frames of its walk only. -/
theorem memByte_coreStep {s t : State} (hs : s.Inv) (h : coreStep s = .next t) {a : Nat}
    (ha : memByte t.mem a ≠ memByte s.mem a) :
    s.inWalk ∧ s.out.isSome = true ∧ ∃ k, s.ksel = some k ∧ s.oBuf.toNat + s.oCh.toNat * elemBytes k ≤ a ∧
      a < s.oBuf.toNat + frames s (elemBytes k) * s.oCh.toNat * elemBytes k := by
  cases coreStep_next h with
  | idle hb ht => exact absurd (ht ▸ rfl) ha
  | packet hb p hc h => exact absurd (congrArg (memByte · a) (mem_runPacket h)) ha
  | walk hb hc k hk h =>
    obtain ⟨ho, hlo, hhi⟩ := memByte_walk h ha
    obtain ⟨out, hout⟩ := Option.isSome_iff_exists.1 ho
    obtain ⟨hf1, hf, -⟩ := hs.waiting k out ⟨hb, hc⟩ hk hout
    obtain ⟨hfirst, hlast⟩ := element_in_later_frames (w := elemBytes k) hf1 hf (hs.position k ⟨hb, hc⟩ hk).2.1
    rw [elemAddr, posIndex] at hlo hhi
    exact ⟨⟨hb, hc⟩, ho, k, hk, by omega, by omega⟩
  | noKernel hb hc hk ht => exact absurd (ht ▸ rfl) ha

/-- Settles O50: of the cases of a step only the core's own and a store change memory. -/
theorem coreWritesOnlyLaterFrames : Obligations.CoreWritesOnlyLaterFrames := by
  intro s t hs h hstore a ha
  cases machineStep_next h with
  | core u hu hstep =>
    obtain ⟨es, rfl⟩ := coreTurn_withHost hu
    exact memByte_coreStep (inv_withHost hs es) hstep ha
  | accept p rest hb hh ht => exact absurd (ht ▸ rfl) ha
  | reset rest hh ht => exact absurd (ht ▸ rfl) ha
  | store b bs rest hh hr ht => exact absurd hh (hstore b bs rest)
  | quiet es rs hh ht => exact absurd (ht ▸ rfl) ha

/-! ### The selection and the responses (43_dispatch.md R194, 30_encoding.md R96) -/

/-- Only a `RESOLVE` writes `DS` and `KSEL`. -/
theorem selection_runPacket {s t : State} {p : Packet} (h : runPacket p s = .next t) :
    (t.ds = s.ds ∧ t.ksel = s.ksel) ∨ ∃ d, decodePacket p = some (.resolve d) ∧ t.ksel = sel d := by
  obtain ⟨d, hd, h⟩ | ⟨ch, buf, len, gain, -, h⟩ | ⟨-, rfl⟩ := runPacket_next h
  · exact .inr ⟨d, hd, (exec_resolve_selection h).2⟩
  · obtain ⟨e, -, rfl⟩ | ⟨-, rfl⟩ := execTransform_next h <;> exact .inl ⟨rfl, rfl⟩
  · exact .inl ⟨rfl, rfl⟩

theorem selection_walk {w : Nat} {kern : Word → Word → Word → Option Word} {s t : State} (h : WalkNext w kern s t) :
    t.ds = s.ds ∧ t.ksel = s.ksel := by
  cases h <;> next ht => exact ht ▸ ⟨rfl, rfl⟩

theorem selection_coreStep {s t : State} (h : coreStep s = .next t) :
    (t.ds = s.ds ∧ t.ksel = s.ksel) ∨
      (s.busy = true ∧ ∃ p d, s.cmd = some p ∧ decodePacket p = some (.resolve d) ∧ t.ksel = sel d) := by
  cases coreStep_next h with
  | idle hb ht => exact .inl (ht ▸ ⟨rfl, rfl⟩)
  | packet hb p hc h =>
    obtain hsame | ⟨d, hd, hk⟩ := selection_runPacket h
    · exact .inl hsame
    · exact .inr ⟨hb, p, d, hc, hd, hk⟩
  | walk hb hc k hk h => exact .inl (selection_walk h)
  | noKernel hb hc hk ht => exact .inl (ht ▸ ⟨rfl, rfl⟩)

/-- Settles O49: besides the core's own step only reset writes `DS` and `KSEL`. -/
theorem selectionChangesOnlyByResolveOrReset : Obligations.SelectionChangesOnlyByResolveOrReset := by
  intro s t h hne
  have hchanged : ¬ (t.ds = s.ds ∧ t.ksel = s.ksel) := by tauto
  cases machineStep_next h with
  | core u hu hstep =>
    obtain ⟨es, rfl⟩ := coreTurn_withHost hu
    exact .inr ((selection_coreStep hstep).resolve_left hchanged)
  | accept p rest hb hh ht => exact absurd (ht ▸ ⟨rfl, rfl⟩) hchanged
  | reset rest hh ht => exact .inl ⟨rest, hh⟩
  | store a bs rest hh hr ht => exact absurd (ht ▸ ⟨rfl, rfl⟩) hchanged
  | quiet es rs hh ht => exact absurd (ht ▸ ⟨rfl, rfl⟩) hchanged

/-- The step ends the command in flight with one response. -/
def endsCommand (s t : State) : Prop := s.busy = true ∧ t.busy = false ∧ ∃ r, t.responses = s.responses ++ [r]

theorem responses_runPacket {s t : State} {p : Packet} (hb : s.busy = true) (h : runPacket p s = .next t) :
    (t.responses = s.responses ∧ t.busy = s.busy) ∨ endsCommand s t := by
  obtain ⟨d, -, h⟩ | ⟨ch, buf, len, gain, -, h⟩ | ⟨-, rfl⟩ := runPacket_next h
  · obtain ⟨k, -, rfl⟩ | ⟨-, rfl⟩ := execResolve_next h <;> exact .inr ⟨hb, rfl, _, rfl⟩
  · obtain ⟨e, -, rfl⟩ | ⟨-, rfl⟩ := execTransform_next h
    · exact .inr ⟨hb, rfl, _, rfl⟩
    · exact .inl ⟨rfl, hb.symm⟩
  · exact .inr ⟨hb, rfl, _, rfl⟩

theorem responses_walk {w : Nat} {kern : Word → Word → Word → Option Word} {s t : State} (h : WalkNext w kern s t) :
    (t.responses = s.responses ∧ t.busy = s.busy) ∨ endsCommand s t := by
  cases h with
  | idle hb ht => exact .inl (ht ▸ ⟨rfl, rfl⟩)
  | write hb out ho hw ht => exact .inl (ht ▸ ⟨rfl, rfl⟩)
  | writeFault hb out ho hw ht => exact .inr (ht ▸ ⟨hb, rfl, _, rfl⟩)
  | finish hb ho hf ht => exact .inr (ht ▸ ⟨hb, rfl, _, rfl⟩)
  | load hb ho hf h0 hr ht => exact .inl (ht ▸ ⟨rfl, rfl⟩)
  | readFault hb ho hf hr ht => exact .inr (ht ▸ ⟨hb, rfl, _, rfl⟩)
  | badGain hb ho hf h0 hr hk ht => exact .inr (ht ▸ ⟨hb, rfl, _, rfl⟩)
  | read hb ho hf h0 hr out hk ht => exact .inl (ht ▸ ⟨rfl, rfl⟩)

/-- A step of the core goes on without a response, or ends the command with one. -/
theorem responses_coreStep {s t : State} (h : coreStep s = .next t) :
    (t.responses = s.responses ∧ t.busy = s.busy) ∨ endsCommand s t := by
  cases coreStep_next h with
  | idle hb ht => exact .inl (ht ▸ ⟨rfl, rfl⟩)
  | packet hb p hc h => exact responses_runPacket (s := s.takeCmd) hb h
  | walk hb hc k hk h => exact responses_walk h
  | noKernel hb hc hk ht => exact .inr (ht ▸ ⟨hb, rfl, _, rfl⟩)

/-- The cases of a step as to `BUSY` and the responses. -/
theorem responses_step {s t : State} (h : step s = .next t) :
    (t.responses = s.responses ∧ t.busy = s.busy) ∨ endsCommand s t ∨
      (t.responses = s.responses ∧ s.busy = false ∧ ∃ p rest, s.host = .command p :: rest ∧ t.cmd = some p) ∨
      (t.responses = s.responses ∧ t.busy = false ∧ ∃ rest, s.host = .reset :: rest) := by
  cases machineStep_next h with
  | core u hu hstep =>
    obtain ⟨es, rfl⟩ := coreTurn_withHost hu
    exact (responses_coreStep hstep).imp_right .inl
  | accept p rest hb hh ht => exact .inr (.inr (.inl (ht ▸ ⟨rfl, hb, p, rest, hh, rfl⟩)))
  | reset rest hh ht => exact .inr (.inr (.inr (ht ▸ ⟨rfl, rfl, rest, hh⟩)))
  | store a bs rest hh hr ht => exact .inl (ht ▸ ⟨rfl, rfl⟩)
  | quiet es rs hh ht => exact .inl (ht ▸ ⟨rfl, rfl⟩)

/-- Settles O51: each clause excludes the cases of `responses_step` with another `BUSY`. -/
theorem oneResponsePerCommand : Obligations.OneResponsePerCommand := by
  intro s t h
  obtain ⟨hr, hb⟩ | hend | ⟨hr, hb, hacc⟩ | ⟨hr, hb, rest, hreset⟩ := responses_step h
  · exact ⟨.inl hr, fun h0 h1 => by simp_all, fun h1 h0 => by simp_all⟩
  · exact ⟨.inr hend, fun h0 => by simp [hend.1] at h0, fun _ _ _ => hend.2.2⟩
  · exact ⟨.inl hr, fun _ _ => ⟨hr, hacc⟩, fun h1 => by simp [hb] at h1⟩
  · exact ⟨.inl hr, fun _ h1 => by simp [hb] at h1, fun _ _ hno => absurd hreset (hno rest)⟩

end Sys2Proof.Machine
end

section
namespace Sys2Proof.Machine

/-! ### One step of each kernel row (40_transform.md R117 to R119) -/

section
variable {k : Kernel} {s : State}

/-- Each case of a walk step is what the kernel row does. -/
theorem exec_of_walkNext {t : State} (h : WalkNext (elemBytes k) (kernelFn k s.draws) s t) :
    exec k.instr s = .next t := (exec_instr k s).trans (walkStep_of_next h)

theorem walkNext_of_exec {t : State} (h : exec k.instr s = .next t) :
    WalkNext (elemBytes k) (kernelFn k s.draws) s t := walkStep_next ((exec_instr k s).symm.trans h)

/-- The read of a position with a valid `PRV` entry. -/
theorem exec_read {pv out : Word} (h : readDue (elemBytes k) s) (hpv : sparseFind s.c s.prv = some pv)
    (hout : kernelFn k s.draws s.oGain (elemAt s (elemBytes k) (posIndex s)) pv = some out) :
    exec k.instr s = .next (afterRead (elemBytes k) out s) := by
  rw [exec_instr]
  refine walkStep_read h ?_
  rwa [prvEntry, hpv]

/-- The write of a position. -/
theorem exec_write {out : Word} (h : writeDue (elemBytes k) out s) :
    exec k.instr s = .next (afterWrite (elemBytes k) out s) := (exec_instr k s).trans (walkStep_write h)

/-- The read of a position by an integer kernel. -/
theorem exec_read_int {n : Nat} {signed : Bool} (hfn : kernelFn k s.draws = kernInt n signed) {g : Dyad} {pv : Word}
    (h : readDue (elemBytes k) s) (hg : gainExact s.oGain = some g) (hpv : sparseFind s.c s.prv = some pv) :
    exec k.instr s = .next (afterRead (elemBytes k)
      ((ikern n signed g ((elemAt s (elemBytes k) (posIndex s)).setWidth n) (pv.setWidth n)).setWidth 64) s) :=
  exec_read h hpv (by rw [hfn, kernInt_of_gainExact n signed hg])

end

/-- Settles O20, by `exec_read_int` and `exec_write`. -/
theorem eightBitPosition : Obligations.EightBitPosition :=
  ⟨fun _ _ _ h hg hpv => ⟨exec_read_int (k := .u8) rfl h hg hpv, exec_read_int (k := .s8) rfl h hg hpv⟩,
    fun _ _ h => ⟨exec_write (k := .u8) h, exec_write (k := .s8) h⟩⟩

/-- Settles O21, by `exec_read_int` and `exec_write`. -/
theorem sixteenBitPosition : Obligations.SixteenBitPosition :=
  ⟨fun _ _ _ h hg hpv => ⟨exec_read_int (k := .u16) rfl h hg hpv, exec_read_int (k := .s16) rfl h hg hpv⟩,
    fun _ _ h => ⟨exec_write (k := .u16) h, exec_write (k := .s16) h⟩⟩

/-- Settles O22, by `exec_read_int` and `exec_write`. -/
theorem thirtyTwoBitPosition : Obligations.ThirtyTwoBitPosition :=
  ⟨fun _ _ _ h hg hpv => ⟨exec_read_int (k := .u32) rfl h hg hpv, exec_read_int (k := .s32) rfl h hg hpv⟩,
    fun _ _ h => ⟨exec_write (k := .u32) h, exec_write (k := .s32) h⟩⟩

/-- Settles O23, by `exec_read_int` and `exec_write`; the low 64 bits of a word are the word. -/
theorem sixtyFourBitPosition : Obligations.SixtyFourBitPosition := by
  refine ⟨fun s g pv h hg hpv => ?_, fun _ _ h => ⟨exec_write (k := .u64) h, exec_write (k := .s64) h⟩⟩
  have hu := exec_read_int (k := .u64) rfl h hg hpv
  have hs := exec_read_int (k := .s64) rfl h hg hpv
  rw [BitVec.setWidth_eq, BitVec.setWidth_eq, BitVec.setWidth_eq] at hu hs
  exact ⟨hu, hs⟩

/-- Settles O24: the kernel's function at the draw of the state is `fkern` of the converted gain. -/
theorem floatPosition : Obligations.FloatPosition :=
  ⟨fun _ _ _ hpv => ⟨fun h hg => exec_read (k := .f32) h hpv (by rw [kernelFn, kernF32, hg, Option.map_some]; rfl),
      fun h hg => exec_read (k := .f64) h hpv (by rw [kernelFn, kernF64, hg, Option.map_some]; rfl)⟩,
    fun _ _ => ⟨exec_write (k := .f32), exec_write (k := .f64)⟩⟩

/-- Settles O25: the end of the walk. -/
theorem walkEndsCommand : Obligations.WalkEndsCommand :=
  fun _ _ hb ho hf => exec_of_walkNext (.finish hb ho hf rfl)

/-- Settles O26: the two cases of an access answered with an error. -/
theorem memoryErrorEndsCommand : Obligations.MemoryErrorEndsCommand :=
  fun _ _ hb => ⟨fun ho hf hr => exec_of_walkNext (.readFault hb ho hf hr rfl),
    fun v ho hw => exec_of_walkNext (.writeFault hb v ho hw rfl)⟩

/-- In frame 0 the element of the position is the channel's. -/
theorem posIndex_of_frame_zero {s : State} (h0 : s.f = 0) : posIndex s = s.c := by
  rw [posIndex, h0, Nat.zero_mul, Nat.zero_add]

/-- Settles O19: the load of a position of frame 0, and the end of a walk with no full frame. -/
theorem frameZeroIsLoaded : Obligations.FrameZeroIsLoaded := by
  intro k s hb ho
  refine ⟨fun h0 hf hr => ?_, fun hf => ?_⟩
  · have hr' : portAnswer s .read (elemAddr s (elemBytes k) (posIndex s)) (elemBytes k) = .ok := by
      rwa [posIndex_of_frame_zero h0]
    rw [exec_of_walkNext (.load hb ho (by omega) h0 hr' rfl)]
    simp only [State.advance, State.putPrv, State.noteAccess, elemAt, posIndex_of_frame_zero h0, elemAddr, h0, zero_add]
  · exact ⟨_, exec_of_walkNext (.finish hb ho (by omega) rfl), rfl, rfl⟩

/-! ### The frame of a kernel step (40_transform.md R121) -/

section
variable {w : Nat} {kern : Word → Word → Word → Option Word} {s t : State} (h : WalkNext w kern s t)
include h

/-- Memory changes only at the write of a waiting result that is answered, and then the command goes on. -/
theorem mem_walk : t.mem = s.mem ∨ (s.busy = true ∧ t.busy = true ∧ s.out.isSome = true) := by
  cases h with
  | write hb out ho hw ht => exact .inr (ht ▸ ⟨hb, hb, by rw [ho]; rfl⟩)
  | _ =>
    rename_i ht
    exact .inl (ht ▸ rfl)

/-- At most one access is recorded, a write exactly when a result waits. -/
theorem accesses_walk :
    t.accesses = s.accesses ∨ ∃ kd, t.accesses = s.accesses ++ [⟨kd, elemAddr s w (posIndex s), w⟩] ∧
      (kd = .write ↔ s.out.isSome = true) := by
  cases h with
  | write hb out ho hw ht => exact .inr ⟨.write, ht ▸ rfl, by simp [ho]⟩
  | load hb ho hf h0 hr ht => exact .inr ⟨.read, ht ▸ rfl, by simp [ho]⟩
  | badGain hb ho hf h0 hr hk ht => exact .inr ⟨.read, ht ▸ rfl, by simp [ho]⟩
  | read hb ho hf h0 hr out hk ht => exact .inr ⟨.read, ht ▸ rfl, by simp [ho]⟩
  | _ =>
    rename_i ht
    exact .inl (ht ▸ rfl)

/-- While the command goes on, `PRV` changes only at the channel of the position, and not at a write. -/
theorem prv_walk {ch : Nat} (hch : ch ≠ s.c ∨ s.out.isSome = true) (hb' : t.busy = true) :
    sparseFind ch t.prv = sparseFind ch s.prv := by
  cases h with
  | idle hb ht => rw [ht]
  | write hb out ho hw ht => exact ht ▸ rfl
  | load hb ho hf h0 hr ht => exact ht ▸ sparseFind_put_other (hch.resolve_right (by simp [ho])) _ _
  | read hb ho hf h0 hr out hk ht => exact ht ▸ sparseFind_put_other (hch.resolve_right (by simp [ho])) _ _
  | _ =>
    rename_i ht
    rw [ht] at hb'
    exact Bool.noConfusion hb'

/-- The position moves on after a frame-0 load and a write only. -/
theorem position_walk : t.f = s.f ∧ t.c = s.c ∨ s.f = 0 ∨ s.out.isSome = true := by
  cases h with
  | write hb out ho hw ht => exact .inr (.inr (by rw [ho]; rfl))
  | load hb ho hf h0 hr ht => exact .inr (.inl h0)
  | _ =>
    rename_i ht
    exact .inl (ht ▸ ⟨rfl, rfl⟩)

/-- What no case of a walk step touches. -/
theorem frame_walk :
    t.ds = s.ds ∧ t.ksel = s.ksel ∧ t.cmd = s.cmd ∧ t.oBuf = s.oBuf ∧ t.oLen = s.oLen ∧ t.oCh = s.oCh ∧
      t.oGain = s.oGain ∧ t.cfg = s.cfg ∧ t.regions = s.regions ∧ t.host = s.host := by
  cases h <;> next ht => exact ht ▸ ⟨rfl, rfl, rfl, rfl, rfl, rfl, rfl, rfl, rfl, rfl⟩

end

/-- Settles O27, field by field. -/
theorem kernelStepFrame : Obligations.KernelStepFrame := by
  intro k s t h
  have hnext := walkNext_of_exec h
  refine ⟨fun a ha => ?_, fun hno => (mem_walk hnext).resolve_right fun ⟨hb, hb', ho⟩ => ?_, accesses_walk hnext,
    fun ch => prv_walk hnext, position_walk hnext, frame_walk hnext⟩
  · by_contra hne
    obtain ⟨-, hlo, hhi⟩ := memByte_walk hnext hne
    omega
  · simp [hb, hb', Option.isSome_iff_ne_none.1 ho] at hno

/-! ### Device registers (20_memory.md R63) -/

/-- An access that meets a device region is answered by the device. -/
theorem portAnswer_device {s : State} {r : Region} (hr : r ∈ s.regions) (hk : r.kind = .device) (kd : AccessKind)
    {a n : Nat} (hm : r.meets a n = true) : portAnswer s kd a n = .device := by
  have hany : s.regions.any (fun r => r.kind == .device && r.meets a n) = true :=
    List.any_eq_true.2 ⟨r, hr, by simp [hk, hm]⟩
  rw [portAnswer, if_pos hany]

/-- Settles O59: the write of a waiting result, the load and the read each ask for the element at the position. -/
theorem deviceBufferRefused : Obligations.DeviceBufferRefused := by
  intro k s r hb hdue hr hkind hm
  have hport := fun kd => portAnswer_device hr hkind kd hm
  rw [exec_instr, walkStep, if_neg (by simp [hb])]
  cases ho : s.out with
  | some out => simp only [writePosition, elemWrite, hport]
  | none =>
    have hf : s.f < frames s (elemBytes k) := hdue.resolve_left (by simp [ho])
    simp only [if_neg hf.not_ge, loadPosition, readPosition, elemRead, hport, ite_self]

end Sys2Proof.Machine
end

section
namespace Sys2Proof.Machine

/-! ### The two byte orders (20_memory.md R55) -/

/-- Byte `i` of the number that bytes make is byte `i` of the list. -/
theorem bytesToNat_byte {bs : List Byte} {i : Nat} (h : i < bs.length) : bytesToNat bs / 256 ^ i % 256 = bs[i].toNat := by
  induction bs generalizing i with
  | nil => exact absurd h (Nat.not_lt_zero i)
  | cons b bs ih =>
    have hb := b.isLt
    cases i with
    | zero =>
      simp only [bytesToNat, pow_zero, Nat.div_one, List.getElem_cons_zero]
      omega
    | succ i =>
      have hdiv : (b.toNat + 256 * bytesToNat bs) / 256 = bytesToNat bs := by omega
      rw [bytesToNat, pow_succ', ← Nat.div_div_eq_div_mul, hdiv, ih (Nat.lt_of_succ_lt_succ h), List.getElem_cons_succ]

/-- The bytes of a word, least significant first, in the byte order. -/
def inOrder (o : ByteOrder) (bs : List Byte) : List Byte :=
  match o with
  | .le => bs
  | .be => bs.reverse

@[simp] theorem inOrder_length (o : ByteOrder) (bs : List Byte) : (inOrder o bs).length = bs.length := by
  cases o with
  | le => rfl
  | be => exact List.length_reverse

@[simp] theorem inOrder_inOrder (o : ByteOrder) (bs : List Byte) : inOrder o (inOrder o bs) = bs := by
  cases o with
  | le => rfl
  | be => exact List.reverse_reverse bs

/-- At most eight bytes fill no more than a word. -/
theorem assemble_toNat {bs : List Byte} (h : bs.length ≤ 8) (o : ByteOrder) :
    (assemble o bs).toNat = bytesToNat (inOrder o bs) := by
  have hlt := bytesToNat_lt (inOrder o bs)
  rw [inOrder_length] at hlt
  have h64 : bytesToNat (inOrder o bs) < 2 ^ 64 := hlt.trans_le (Nat.pow_le_pow_right (by omega) (by omega))
  cases o <;> exact Nat.mod_eq_of_lt h64

theorem splitBytes_eq_inOrder (o : ByteOrder) (w : Nat) (v : Word) :
    splitBytes o w v = inOrder o (natToBytes w v.toNat) := by
  cases o <;> rfl

/-- Assembling a split pattern gives its low bytes. -/
theorem assemble_splitBytes_toNat (o : ByteOrder) {w : Nat} (hw : w ≤ 8) (v : Word) :
    (assemble o (splitBytes o w v)).toNat = v.toNat % 2 ^ (8 * w) := by
  rw [assemble_toNat (by rwa [splitBytes_length]), splitBytes_eq_inOrder, inOrder_inOrder, bytesToNat_natToBytes]

/-- Settles O43: in both orders a word is the number of its bytes in order, by `assemble_toNat`. -/
theorem byteOrderRoundTrip : Obligations.ByteOrderRoundTrip := by
  refine ⟨fun bs i h hlen => ⟨?_, ?_⟩, fun o bs _ => ?_, fun o w v hw => assemble_splitBytes_toNat o hw v,
    fun o bs hlen => ?_⟩
  · rw [assemble_toNat hlen, inOrder, bytesToNat_byte h]
  · have h' : i < bs.reverse.length := by rwa [List.length_reverse]
    rw [assemble_toNat hlen, inOrder, bytesToNat_byte h', List.getElem_reverse]
  · have hlt := assemble_lt o bs
    rwa [pow_mul] at hlt
  · have hback := natToBytes_bytesToNat (inOrder o bs)
    rw [inOrder_length] at hback
    rw [splitBytes_eq_inOrder, assemble_toNat hlen, hback, inOrder_inOrder]

/-! ### The element of a position, written and read back (20_memory.md R53 to R57) -/

theorem elemBytes_le (k : Kernel) : elemBytes k ≤ 8 := by cases k <;> decide

/-- After its write the element at the position reads as the low bytes of the result. -/
theorem elemAt_afterWrite_self {w : Nat} (hw : w ≤ 8) (out : Word) {s : State} (hm : MemWf s.mem) :
    (elemAt (afterWrite w out s) w (posIndex s)).toNat = out.toNat % 2 ^ (8 * w) := by
  have hread : memBytes (afterWrite w out s).mem (elemAddr s w (posIndex s)) w = splitBytes s.cfg.order w out := by
    have := memBytes_putBytes_self hm (elemAddr s w (posIndex s)) (splitBytes s.cfg.order w out)
    rwa [splitBytes_length] at this
  have helem : elemAt (afterWrite w out s) w (posIndex s) = assemble s.cfg.order (splitBytes s.cfg.order w out) := by
    rw [← hread]
    rfl
  rw [helem, assemble_splitBytes_toNat _ hw]

/-- The write of a position leaves every other element. -/
theorem elemAt_afterWrite_other {w i : Nat} (out : Word) {s : State} (hi : i ≠ posIndex s) :
    elemAt (afterWrite w out s) w i = elemAt s w i :=
  elemAt_other (splitBytes_length s.cfg.order w out) hi rfl rfl rfl

/-- The write of a position leaves every byte outside its element. -/
theorem memByte_afterWrite {w a : Nat} (out : Word) {s : State}
    (ha : a < elemAddr s w (posIndex s) ∨ elemAddr s w (posIndex s) + w ≤ a) :
    memByte (afterWrite w out s).mem a = memByte s.mem a :=
  memByte_putBytes_other (by rwa [splitBytes_length])

/-- Settles O44: the rules of `afterWrite`; the read before it leaves memory and the position alone. -/
theorem writtenElementReadsBack : Obligations.WrittenElementReadsBack := by
  intro k out s hm
  refine ⟨elemAt_afterWrite_self (elemBytes_le k) out hm, fun i => elemAt_afterWrite_other out,
    fun a => memByte_afterWrite out, memWf_putBytes hm _ _, ?_⟩
  simp only [afterWrite, afterRead, elemAddr, posIndex, List.append_assoc, List.cons_append, List.nil_append]
  rfl

/-! ### Reset (70_reset_and_hazards.md R240, R242) -/

/-- The reset event acts at any time. -/
theorem step_reset {s : State} {rest : List HostEvent} (hh : s.host = .reset :: rest) :
    step s = .next (s.withHost rest).applyReset := by
  unfold step machineStep
  rw [hh]

/-- Settles O48: the fields of `applyReset`. -/
theorem resetInput : Obligations.ResetInput :=
  fun _ _ hh => ⟨_, step_reset hh, rfl, rfl, rfl, fun _ => rfl, rfl, rfl, rfl, rfl, rfl, rfl, rfl⟩

/-- Settles O56: the acceptance, then the reset. -/
theorem abandonedCommandHasNoResponse : Obligations.AbandonedCommandHasNoResponse :=
  fun _ _ hb hh => run_two (step_accept hb hh) (step_reset rfl)

/-- The end of a wait is a step of its own. -/
theorem step_wait_zero {s : State} {rest : List HostEvent} (hh : s.host = .wait 0 :: rest) :
    step s = .next (s.withHost rest) := by
  unfold step machineStep
  rw [hh]

/-- A core left to itself for `m` steps and then reset keeps of them what reset keeps. -/
theorem run_wait_reset {m : Nat} {s u : State} (h : Host.Core.run Sys2Proof.core m (s.withHost []) = .next u) :
    Host.Core.run Sys2Proof.core (m + 2) (s.withHost [.wait m, .reset]) = .next (afterReset u) := by
  obtain ⟨hrun, -⟩ := run_wait (j := 0) (rest := [.reset]) h
  have hreset : step (u.withHost [.reset]) = .next (afterReset u) := step_reset (s := u.withHost [.reset]) rfl
  exact (run_append Sys2Proof.core hrun).trans (run_two (step_wait_zero rfl) hreset)

/-- Settles O55, by `run_wait_reset`. -/
theorem resetInsideCommandLeavesPrefix : Obligations.ResetInsideCommandLeavesPrefix :=
  fun _ _ _ _ h => run_wait_reset h

/-! ### Another agent's accesses (20_memory.md R65, 70_reset_and_hazards.md R246) -/

/-- A store of another agent that does not meet the region in flight lands. -/
theorem step_store {s : State} {a : Nat} {bs : List Byte} {rest : List HostEvent} (hh : s.host = .store a bs :: rest)
    (ht : touchesTransform s a bs.length = false) (hin : a + bs.length ≤ 2 ^ s.cfg.aw) :
    step s = .next { s with host := rest, mem := memPutBytes s.mem a bs } := by
  have htake : bs.take (2 ^ s.cfg.aw - a) = bs := List.take_of_length_le (by omega)
  unfold step machineStep
  rw [hh]
  simp only [hostStore, touchesTransform_withHost, ht, withHost_cfg, htake]
  rfl

/-- A load of another agent that does not meet the region in flight changes nothing. -/
theorem step_load {s : State} {a n : Nat} {rest : List HostEvent} (hh : s.host = .load a n :: rest)
    (ht : touchesTransform s a n = false) : step s = .next { s with host := rest } := by
  unfold step machineStep
  rw [hh]
  simp only [hostLoad, touchesTransform_withHost, ht]
  rfl

/-- A store that meets the region in flight is a data race. -/
theorem step_store_race {s : State} {a : Nat} {bs : List Byte} {rest : List HostEvent} (hh : s.host = .store a bs :: rest)
    (ht : touchesTransform s a bs.length = true) : step s = .refused .dataRace := by
  unfold step machineStep
  rw [hh]
  simp only [hostStore, touchesTransform_withHost, ht, if_true]

/-- A load that meets the region in flight is a data race. -/
theorem step_load_race {s : State} {a n : Nat} {rest : List HostEvent} (hh : s.host = .load a n :: rest)
    (ht : touchesTransform s a n = true) : step s = .refused .dataRace := by
  unfold step machineStep
  rw [hh]
  simp only [hostLoad, touchesTransform_withHost, ht, if_true]

/-- The `TRANSFORM` in flight: the one walking, or the one accepted whose checks will pass. -/
theorem inFlight_eq_some {s u : State}
    (h : (s.inWalk ∧ u = s) ∨ (s.busy = true ∧ ∃ p ch buf len gain, s.cmd = some p ∧
      decodePacket p = some (.transform ch buf len gain) ∧ u = s.latch ch buf len gain ∧ failedCheck u = none)) :
    inFlight s = some u := by
  obtain ⟨⟨hb, hc⟩, rfl⟩ | ⟨hb, p, ch, buf, len, gain, hc, hp, rfl, hcheck⟩ := h
  · simp only [inFlight, hb, hc, if_true]
  · simp only [inFlight, hb, hc, hp, hcheck, if_true]

/-- No `TRANSFORM` is in flight on an idle core, or while a packet is held that will start none. -/
theorem inFlight_eq_none {s : State}
    (h : s.busy = false ∨ ∃ p, s.cmd = some p ∧ ∀ ch buf len gain, decodePacket p = some (.transform ch buf len gain) →
      failedCheck (s.latch ch buf len gain) ≠ none) : inFlight s = none := by
  unfold inFlight
  obtain hb | ⟨p, hc, hno⟩ := h
  · rw [if_neg (by simp [hb])]
  · split
    · simp only [hc]
      split
      · next ch buf len gain hp => rw [if_neg (hno ch buf len gain hp)]
      · rfl
    · rfl

/-- An access meets the region of the `TRANSFORM` in flight when it shares a byte with it. -/
theorem touchesTransform_iff {s u : State} {k : Kernel} (hu : inFlight s = some u) (hk : u.ksel = some k) (a n : Nat) :
    touchesTransform s a n = true ↔ u.oBuf.toNat < a + n ∧
      a < u.oBuf.toNat + frames u (elemBytes k) * u.oCh.toNat * elemBytes k ∧ 0 < n ∧
      0 < frames u (elemBytes k) * u.oCh.toNat * elemBytes k := by
  simp only [touchesTransform, hu, Option.any_some, processedBytes, hk, decide_eq_true_eq]

theorem touchesTransform_of_none {s : State} (hu : inFlight s = none) (a n : Nat) : touchesTransform s a n = false := by
  rw [touchesTransform, hu, Option.any_none]

/-- Settles O58: whether an access meets the region is `touchesTransform_iff`, what it then does `step_store`,
`step_load` and the two races. -/
theorem hostAccessWhileInFlight : Obligations.HostAccessWhileInFlight := by
  refine ⟨fun s u a n bs rest k hfly hk => ?_, fun s a n bs rest hnone => ?_⟩
  · have hu := inFlight_eq_some hfly
    have hk' : u.ksel = some k := by
      obtain ⟨-, rfl⟩ | ⟨-, p, ch, buf, len, gain, -, -, rfl, -⟩ := hfly <;> exact hk
    have hmeets := touchesTransform_iff hu hk'
    refine ⟨fun hh h1 h2 h3 hne => step_store_race hh ?_, fun hh h1 h2 h3 hn => step_load_race hh ?_,
      fun hh hout hin => step_store hh ?_ hin, fun hh hout => step_load hh ?_⟩
    · have hpos := List.length_pos_iff.2 hne
      exact (hmeets a bs.length).2 ⟨h2, h3, hpos, by omega⟩
    · exact (hmeets a n).2 ⟨h2, h3, hn, by omega⟩
    · rw [← Bool.not_eq_true, hmeets]
      omega
    · rw [← Bool.not_eq_true, hmeets]
      omega
  · have hfree := touchesTransform_of_none (inFlight_eq_none hnone)
    exact ⟨fun hh hin => step_store hh (hfree a bs.length) hin, fun hh => step_load hh (hfree a n)⟩

end Sys2Proof.Machine
end

section
namespace Sys2Proof.Machine

/-! ### Direction of the integer kernels (41_int_kernels.md R157) -/

/-- A number below `x` and the upper bound is below the clamp. -/
theorem le_ratClamp {c x lo hi : ℚ} (hx : c ≤ x) (hhi : c ≤ hi) : c ≤ ratClamp x lo hi := by
  unfold ratClamp
  split_ifs with hlo
  · exact hx.trans hlo.le
  · exact hhi
  · exact hx

/-- A number above `x` and the lower bound is above the clamp. -/
theorem ratClamp_le {c x lo hi : ℚ} (hx : x ≤ c) (hlo : lo ≤ c) : ratClamp x lo hi ≤ c := by
  unfold ratClamp
  split_ifs with _ hhi
  · exact hlo
  · exact hhi.le.trans hx
  · exact hx

/-- The clamp of an integer between integer bounds. -/
theorem ratClamp_int {lo hi : Int} (h : lo ≤ hi) (z : Int) : ratClamp z lo hi = ((max lo (min hi z) : Int) : ℚ) := by
  unfold ratClamp
  split_ifs with hlo hhi
  · rw [Int.cast_lt] at hlo
    rw [max_eq_left ((min_le_right hi z).trans hlo.le)]
  · rw [Int.cast_lt] at hhi
    rw [min_eq_left hhi.le, max_eq_right h]
  · rw [Int.cast_lt, not_lt] at hlo hhi
    rw [min_eq_right hhi, max_eq_right hlo]

/-- An integer of at most 113 bits is its own rounding. -/
theorem ratRne_int {z : Int} (h : |z| < 2 ^ 113) : ratRne 113 (z : ℚ) = z :=
  ratRne_exact (k := z) (j := 0) (by simp) h

section
variable {n : Nat} (hn : n ∈ [8, 16, 32, 64]) (signed : Bool) (raw prv : BitVec n) (g : Dyad)
include hn

theorem abs_sampleVal_lt : |sampleVal signed raw| < 2 ^ 113 := by
  have hlt := sampleVal_lt (sampleWidth_bounds hn).2 signed raw
  rw [abs_lt]
  omega

/-- The value of the output: the truncated clamp of the twice rounded sum. -/
theorem sampleVal_ikern :
    sampleVal signed (ikern n signed g raw prv) =
      ratTrunc (ratClamp (dyadRat (intSum g (sampleVal signed raw) (sampleVal signed prv)))
        (minSample n signed) (maxSample n signed)) :=
  sampleVal_narrow (sampleWidth_bounds hn).1 signed _

/-- A product of at least 0 does not lower the sample. -/
theorem le_sampleVal_ikern (h : 0 ≤ dyadRat g * ((sampleVal signed raw - sampleVal signed prv : Int) : ℚ)) :
    sampleVal signed raw ≤ sampleVal signed (ikern n signed g raw prv) := by
  have hp : 0 ≤ dyadRat (intProduct g (sampleVal signed raw) (sampleVal signed prv)) := by
    rw [dyadRat_intProduct]
    exact le_ratRne (by norm_num) (k := 0) (j := 0) (by simp) (by norm_num) h
  have hr : (sampleVal signed raw : ℚ) ≤ dyadRat (intSum g (sampleVal signed raw) (sampleVal signed prv)) := by
    rw [dyadRat_intSum]
    exact le_ratRne (by norm_num) (k := sampleVal signed raw) (j := 0) (by simp) (abs_sampleVal_lt hn signed raw)
      (le_add_of_nonneg_right hp)
  rw [sampleVal_ikern hn]
  refine (ratTrunc_bounds (le_ratClamp hr ?_) (sampleClamp_bounds n signed _).2).1
  exact_mod_cast (sampleVal_range signed raw).2

/-- A product of at most 0 does not raise the sample. -/
theorem sampleVal_ikern_le (h : dyadRat g * ((sampleVal signed raw - sampleVal signed prv : Int) : ℚ) ≤ 0) :
    sampleVal signed (ikern n signed g raw prv) ≤ sampleVal signed raw := by
  have hp : dyadRat (intProduct g (sampleVal signed raw) (sampleVal signed prv)) ≤ 0 := by
    rw [dyadRat_intProduct]
    exact ratRne_le (by norm_num) (k := 0) (j := 0) (by simp) (by norm_num) h
  have hr : dyadRat (intSum g (sampleVal signed raw) (sampleVal signed prv)) ≤ sampleVal signed raw := by
    rw [dyadRat_intSum]
    exact ratRne_le (by norm_num) (k := sampleVal signed raw) (j := 0) (by simp) (abs_sampleVal_lt hn signed raw)
      (add_le_of_nonpos_right hp)
  rw [sampleVal_ikern hn]
  refine (ratTrunc_bounds (sampleClamp_bounds n signed _).1 (ratClamp_le hr ?_)).2
  exact_mod_cast (sampleVal_range signed raw).1

/-- For an integer gain of magnitude 1 no rounding takes place. -/
theorem dyadRat_intSum_of_unit {u : Int} (hu : |u| = 1) (hg : dyadRat g = u) :
    dyadRat (intSum g (sampleVal signed raw) (sampleVal signed prv)) =
      ((sampleVal signed raw + u * (sampleVal signed raw - sampleVal signed prv) : Int) : ℚ) := by
  have hraw := sampleVal_lt (sampleWidth_bounds hn).2 signed raw
  have hprv := sampleVal_lt (sampleWidth_bounds hn).2 signed prv
  have hmul : |u * (sampleVal signed raw - sampleVal signed prv)| < 2 ^ 65 := by
    rw [abs_mul, hu, one_mul, abs_lt]
    omega
  rw [abs_lt] at hmul
  rw [dyadRat_intSum, dyadRat_intProduct, hg, ← Int.cast_mul, ratRne_int (abs_lt.2 (by omega)), ← Int.cast_add,
    ratRne_int (abs_lt.2 (by omega))]

end

/-- Settles O31: the sign of the product is that of the difference, by `le_sampleVal_ikern` and `sampleVal_ikern_le`;
for the gains 1 and -1 the sum is exact, by `dyadRat_intSum_of_unit`. -/
theorem integerKernelDirection : Obligations.IntegerKernelDirection := by
  intro n hn signed raw prv g
  refine ⟨fun hg hlt => ?_, fun hg hlt => ?_, fun hg => ?_, fun hg => ?_⟩
  · refine le_sampleVal_ikern hn signed raw prv g (mul_nonneg hg ?_)
    exact_mod_cast (sub_pos.2 hlt).le
  · refine sampleVal_ikern_le hn signed raw prv g (mul_nonpos_of_nonneg_of_nonpos hg ?_)
    exact_mod_cast (sub_neg.2 hlt).le
  · rw [sampleVal_ikern hn, dyadRat_intSum_of_unit hn signed raw prv g (u := 1) (by norm_num) (by rw [hg]; simp),
      ratClamp_int (minSample_le_maxSample n signed), ratTrunc_int]
    congr 2
    ring
  · refine narrow_of_eq_sampleVal (sampleWidth_bounds hn).1 ?_
    rw [dyadRat_intSum_of_unit hn signed raw prv g (u := -1) (by norm_num) (by rw [hg]; simp)]
    congr 1
    ring

/-! ### Where the two roundings are not visible (41_int_kernels.md R154) -/

theorem ratClamp_of_le {x lo hi : ℚ} (h : lo ≤ hi) (hx : x ≤ lo) : ratClamp x lo hi = lo :=
  le_antisymm (ratClamp_le hx le_rfl) (ratClamp_bounds h x).1

theorem ratClamp_of_ge {x lo hi : ℚ} (h : lo ≤ hi) (hx : hi ≤ x) : ratClamp x lo hi = hi :=
  le_antisymm (ratClamp_bounds h x).2 (le_ratClamp hx le_rfl)

/-- A rounding before the clamp is not seen when it changes nothing, or when the clamp saturates. -/
theorem ratClamp_ratRne {x : ℚ} {lo hi : Int} (h : lo ≤ hi) (hlo : |lo| < 2 ^ 113) (hhi : |hi| < 2 ^ 113)
    (hx : ratRne 113 x = x ∨ x ≤ lo ∨ hi ≤ x) : ratClamp (ratRne 113 x) lo hi = ratClamp x lo hi := by
  have hq : (lo : ℚ) ≤ hi := by exact_mod_cast h
  obtain hx | hx | hx := hx
  · rw [hx]
  · rw [ratClamp_of_le hq hx, ratClamp_of_le hq (ratRne_le (by norm_num) (k := lo) (j := 0) (by simp) hlo hx)]
  · rw [ratClamp_of_ge hq hx, ratClamp_of_ge hq (le_ratRne (by norm_num) (k := hi) (j := 0) (by simp) hhi hx)]

/-- The bounds of a sample have at most 64 bits. -/
theorem abs_sampleBounds_lt {n : Nat} (h64 : n ≤ 64) (signed : Bool) :
    |minSample n signed| < 2 ^ 113 ∧ |maxSample n signed| < 2 ^ 113 := by
  have h1 : (2 : Int) ^ n ≤ 2 ^ 64 := pow_le_pow_right₀ (by norm_num) h64
  have h2 : (2 : Int) ^ (n - 1) ≤ 2 ^ 63 := pow_le_pow_right₀ (by norm_num) (by omega)
  have h3 : (0 : Int) < 2 ^ n := by positivity
  have h4 : (0 : Int) < 2 ^ (n - 1) := by positivity
  rw [abs_lt, abs_lt]
  cases signed <;> simp only [minSample, maxSample, Bool.false_eq_true, if_true, if_false] <;> omega

/-- When the product is exact, and the sum is exact or saturates, the kernel rounds nothing that can be seen. -/
theorem ikern_eq_ratKernelExact {n : Nat} (h64 : n ≤ 64) {signed : Bool} {g : Dyad} {raw prv : BitVec n} {x : ℚ}
    (hx : (sampleVal signed raw : ℚ) + dyadRat g * ((sampleVal signed raw - sampleVal signed prv : Int) : ℚ) = x)
    (hp : ratRne 113 (dyadRat g * ((sampleVal signed raw - sampleVal signed prv : Int) : ℚ)) =
      dyadRat g * ((sampleVal signed raw - sampleVal signed prv : Int) : ℚ))
    (hr : ratRne 113 x = x ∨ x ≤ minSample n signed ∨ maxSample n signed ≤ x) :
    ikern n signed g raw prv = ratKernelExact n signed (dyadRat g) raw prv := by
  obtain ⟨hlo, hhi⟩ := abs_sampleBounds_lt h64 signed
  rw [ikern_eq_ratKernel, ratKernel, ratKernelExact, hp, hx,
    ratClamp_ratRne (minSample_le_maxSample n signed) hlo hhi hr, ← Int.cast_sub, hx]

/-- The significand of a finite gain has at most 53 bits. -/
theorem gainExact_significand {gain : Word} {g : Dyad} (h : gainExact gain = some g) : |g.m| < 2 ^ 53 := by
  have hnormal := fdecode_normal (.inr rfl : IeeeFmt binary64) gain
  unfold gainExact at h
  split at h
  · exact absurd h (Option.some_ne_none g).symm
  · exact absurd h (Option.some_ne_none g).symm
  · next sg m e hdec =>
    obtain rfl := Option.some.inj h
    rw [hdec] at hnormal
    have hm : m < 2 ^ 53 := by
      obtain ⟨-, hm⟩ | ⟨-, hm, -⟩ := hnormal
      · exact hm.trans (by decide)
      · exact hm
    have habs : |(finDyad sg m e).m| = m := by cases sg <;> simp [finDyad]
    rw [habs]
    exact_mod_cast hm

/-- A sum of a sample and a product, as a multiple of the unit `2 ^ -j`. -/
theorem sampleSum_eq (cur a e : Int) {j : Nat} (h : 0 ≤ e + j) :
    (cur : ℚ) + (a : ℚ) * 2 ^ e = ((cur * 2 ^ j + a * 2 ^ (e + j).toNat : Int) : ℚ) * 2 ^ (-(j : Int)) := by
  push_cast
  rw [add_mul, mul_assoc, mul_assoc, ← zpow_natCast (2 : ℚ) j, ← zpow_natCast (2 : ℚ) (e + j).toNat,
    Int.toNat_of_nonneg h, ← zpow_add₀ two_ne_zero, ← zpow_add₀ two_ne_zero, add_neg_cancel, zpow_zero, mul_one,
    add_neg_cancel_right]

/-- A sum below `2 ^ b` in magnitude that is a multiple of `2 ^ -j` is exact when `b + j` is at most 113. -/
theorem ratRne_sampleSum {cur a e : Int} {b j : Nat} (h : 0 ≤ e + j) (hbj : b + j ≤ 113)
    (hlt : |(cur : ℚ) + (a : ℚ) * 2 ^ e| < 2 ^ b) : ratRne 113 ((cur : ℚ) + (a : ℚ) * 2 ^ e) = cur + (a : ℚ) * 2 ^ e := by
  refine ratRne_exact (sampleSum_eq cur a e h) ?_
  rw [sampleSum_eq cur a e h, abs_mul, abs_of_pos (by positivity : (0 : ℚ) < 2 ^ (-(j : Int))), zpow_neg,
    zpow_natCast, ← div_eq_mul_inv, div_lt_iff₀ (by positivity), ← pow_add, ← Int.cast_abs] at hlt
  have hpow : (2 : ℚ) ^ (b + j) ≤ 2 ^ 113 := pow_le_pow_right₀ (by norm_num) hbj
  exact_mod_cast hlt.trans_le hpow

/-- The product of a gain and a difference, as a significand and an exponent. -/
theorem gainProduct_eq (g : Dyad) (d : Int) : dyadRat g * (d : ℚ) = ((g.m * d : Int) : ℚ) * 2 ^ g.e := by
  rw [dyadRat]
  push_cast
  ring

/-- The product of two integers below powers of two. -/
theorem abs_mul_lt_two_pow {x y : Int} {a b : Nat} (hx : |x| < 2 ^ a) (hy : |y| ≤ 2 ^ b) : |x * y| < 2 ^ (a + b) := by
  rw [abs_mul, pow_add]
  exact (mul_le_mul_of_nonneg_left hy (abs_nonneg x)).trans_lt (mul_lt_mul_of_pos_right hx (by positivity))

/-- A number of at most 53 bits that is at least `2 ^ -27` in magnitude is a multiple of `2 ^ -79`. -/
theorem exponent_ge_of_le_abs {g : Dyad} (hm : |g.m| < 2 ^ 53) (hg : (1 : ℚ) / 2 ^ 27 ≤ |dyadRat g|) : -79 ≤ g.e := by
  have hlt : (2 : ℚ) ^ (-27 : Int) < 2 ^ (53 + g.e) :=
    calc (2 : ℚ) ^ (-27 : Int) = 1 / 2 ^ 27 := by norm_num
      _ ≤ |dyadRat g| := hg
      _ = |(g.m : ℚ)| * 2 ^ g.e := by rw [dyadRat, abs_mul, abs_of_pos (by positivity : (0 : ℚ) < 2 ^ g.e)]
      _ < 2 ^ (53 : Int) * 2 ^ g.e := mul_lt_mul_of_pos_right (by exact_mod_cast hm) (by positivity)
      _ = 2 ^ (53 + g.e) := (zpow_add₀ two_ne_zero _ _).symm
  have := (zpow_lt_zpow_iff_right₀ (by norm_num : (1 : ℚ) < 2)).1 hlt
  omega

/-- A number of at least `2 ^ n` in magnitude lies outside the bounds of a sample of `n` bits. -/
theorem outside_sampleBounds {n : Nat} (signed : Bool) {x : ℚ} (hx : 2 ^ n ≤ |x|) :
    x ≤ minSample n signed ∨ maxSample n signed ≤ x := by
  have h1 : (2 : Int) ^ (n - 1) ≤ 2 ^ n := pow_le_pow_right₀ (by norm_num) (by omega)
  have h2 : (0 : Int) < 2 ^ n := by positivity
  have hlo : -2 ^ n ≤ minSample n signed := by
    cases signed <;> simp only [minSample, Bool.false_eq_true, if_true, if_false] <;> omega
  have hhi : maxSample n signed ≤ 2 ^ n := by
    cases signed <;> simp only [maxSample, Bool.false_eq_true, if_true, if_false] <;> omega
  have hlo' : (-2 ^ n : ℚ) ≤ minSample n signed := by exact_mod_cast hlo
  have hhi' : (maxSample n signed : ℚ) ≤ 2 ^ n := by exact_mod_cast hhi
  obtain hx | hx := le_abs'.1 hx
  · exact .inl (hx.trans hlo')
  · exact .inr (hhi'.trans hx)

/-- Clause (a) of R154: at most 32 bits, and a gain that is 0 or at least `2 ^ -27` in magnitude. -/
theorem ikern_exact_of_narrow {n : Nat} (hn : n ∈ [8, 16, 32]) (signed : Bool) {gain : Word} {g : Dyad}
    (raw prv : BitVec n) (hgain : gainExact gain = some g) (hg : dyadRat g = 0 ∨ (1 : ℚ) / 2 ^ 27 ≤ |dyadRat g|) :
    ikern n signed g raw prv = ratKernelExact n signed (dyadRat g) raw prv := by
  have hwidth : 1 ≤ n ∧ n ≤ 32 := by simp only [List.mem_cons, List.not_mem_nil, or_false] at hn; omega
  have h64 : n ≤ 64 := by omega
  obtain hg | hg := hg
  · have h0 : dyadRat g * ((sampleVal signed raw - sampleVal signed prv : Int) : ℚ) = 0 := by rw [hg, zero_mul]
    exact ikern_eq_ratKernelExact h64 (by rw [h0, add_zero]) (by rw [h0, ratRne, if_pos rfl])
      (.inl (ratRne_sampleVal h64 signed raw))
  · have hm := gainExact_significand hgain
    have hd : |sampleVal signed raw - sampleVal signed prv| ≤ 2 ^ 32 := by
      have h2n : (2 : Int) ^ n ≤ 2 ^ 32 := pow_le_pow_right₀ (by norm_num) hwidth.2
      have := abs_sampleVal_sub_le hwidth.1 signed raw prv
      omega
    have hp := gainProduct_eq g (sampleVal signed raw - sampleVal signed prv)
    refine ikern_eq_ratKernelExact h64 (by rw [hp]) ?_ ?_
    · exact ratRne_exact hp ((abs_mul_lt_two_pow hm hd).trans_le (pow_le_pow_right₀ (by norm_num) (by norm_num)))
    · obtain hbig | hsmall := le_or_gt (2 ^ n) |(sampleVal signed raw : ℚ) + _ * 2 ^ g.e|
      · exact .inr (outside_sampleBounds signed hbig)
      · have he := exponent_ge_of_le_abs hm hg
        exact .inl (ratRne_sampleSum (j := 79) (by omega) (by omega) hsmall)

/-- Clause (b) of R154: 64 bits, and a gain of at most 48 bits that is a multiple of `2 ^ -48`. -/
theorem ikern_exact_of_short_gain (signed : Bool) {g : Dyad} {m t : Int} (raw prv : BitVec 64)
    (hg : dyadRat g = m * (2 : ℚ) ^ t) (hm : |m| < 2 ^ 48) (ht : -48 ≤ t) (ht0 : t ≤ 0) :
    ikern 64 signed g raw prv = ratKernelExact 64 signed (dyadRat g) raw prv := by
  have hd : |sampleVal signed raw - sampleVal signed prv| ≤ 2 ^ 64 := by
    have := abs_sampleVal_sub_le (by norm_num) signed raw prv
    omega
  have hp : dyadRat g * ((sampleVal signed raw - sampleVal signed prv : Int) : ℚ) =
      ((m * (sampleVal signed raw - sampleVal signed prv) : Int) : ℚ) * 2 ^ t := hg ▸ gainProduct_eq ⟨m, t⟩ _
  have hmd := abs_mul_lt_two_pow hm hd
  refine ikern_eq_ratKernelExact le_rfl (by rw [hp])
    (ratRne_exact hp (hmd.trans_le (pow_le_pow_right₀ (by norm_num) (by norm_num)))) (.inl ?_)
  obtain ⟨j, rfl⟩ : ∃ j : Nat, t = -(j : Int) := ⟨(-t).toNat, by omega⟩
  refine ratRne_sampleSum (b := 113 - j) (j := j) (by omega) (by omega) ?_
  have hraw := sampleVal_lt le_rfl signed raw
  have hcur : |(sampleVal signed raw : ℚ)| < 2 ^ 64 := by exact_mod_cast abs_lt.2 hraw
  have hunit : (0 : ℚ) < 2 ^ (-(j : Int)) := by positivity
  have hprod : |((m * (sampleVal signed raw - sampleVal signed prv) : Int) : ℚ) * 2 ^ (-(j : Int))| < 2 ^ (112 - j) := by
    have hsplit : (2 : ℚ) ^ (112 - j) = 2 ^ 112 * 2 ^ (-(j : Int)) := by
      rw [zpow_neg, zpow_natCast, ← div_eq_mul_inv, eq_div_iff (by positivity), ← pow_add, Nat.sub_add_cancel (by omega)]
    rw [abs_mul, abs_of_pos hunit, hsplit]
    exact mul_lt_mul_of_pos_right (by exact_mod_cast hmd) hunit
  calc |(sampleVal signed raw : ℚ) + ((m * (sampleVal signed raw - sampleVal signed prv) : Int) : ℚ) * 2 ^ (-(j : Int))|
      < 2 ^ 64 + 2 ^ (112 - j) := (abs_add_le _ _).trans_lt (add_lt_add hcur hprod)
    _ ≤ 2 ^ (112 - j) + 2 ^ (112 - j) := add_le_add_left (pow_le_pow_right₀ (by norm_num) (by omega)) _
    _ = 2 ^ (113 - j) := by rw [← two_mul, ← pow_succ']; congr 1; omega

/-- Settles O34: clause (a) is `ikern_exact_of_narrow`, clause (b) `ikern_exact_of_short_gain`. -/
theorem wideRoundingInvisible : Obligations.WideRoundingInvisible :=
  ⟨fun _ hn signed _ _ raw prv hgain hg => ikern_exact_of_narrow hn signed raw prv hgain hg,
    fun signed _ _ _ _ raw prv _ hg hm ht ht0 => ikern_exact_of_short_gain signed raw prv hg hm ht ht0⟩

/-! ### Which gains are refused (40_transform.md R113) -/

theorem fdecode_isFin_iff (t : Fmt) (b : Word) : (fdecode t b).isFin = false ↔ patExp t b = fmtExpMax t := by
  unfold fdecode
  dsimp only
  split_ifs with hmax hfr hsub <;> simp [FVal.isFin, hmax]

theorem gainExact_isSome (g : Word) : (gainExact g).isSome = (fdecode binary64 g).isFin := by
  unfold gainExact
  cases fdecode binary64 g <;> rfl

theorem gainF64_isSome (g : Word) : (gainF64 g).isSome = (fdecode binary64 g).isFin := by
  unfold gainF64
  cases fdecode binary64 g <;> rfl

theorem gainF32_isSome (g : Word) : (gainF32 g).isSome = (cvt32 (fdecode binary64 g)).isFin := by
  unfold gainF32
  cases cvt32 (fdecode binary64 g) <;> rfl

/-- Check 4 of R111 for every kernel but `K_F32`: the gain is finite in binary64. -/
theorem gainOk_of_ne_f32 {k : Kernel} (hk : k ≠ .f32) (g : Word) : gainOk k g = (fdecode binary64 g).isFin := by
  cases k with
  | f32 => exact absurd rfl hk
  | f64 => exact gainF64_isSome g
  | _ => exact gainExact_isSome g

/-- A nonzero number below `2 ^ 127` in magnitude does not overflow binary32. -/
theorem fround_binary32_isFin {x : Dyad} (hx : (x.m.natAbs.log2 : Int) + x.e ≤ 126) (zs : Bool) :
    (fround binary32 x zs).isFin = true := by
  have hmin : fmtEmin binary32 = -126 := by decide
  have hmax : fmtEmax binary32 = 127 := by decide
  unfold fround
  by_cases h0 : x.m = 0
  · rw [if_pos h0]
    rfl
  · rw [if_neg h0]
    dsimp only
    rw [if_neg]
    · rfl
    · rw [hmin, hmax]
      split <;> omega

/-- A number of at least `2 ^ 128` in magnitude overflows binary32. -/
theorem fround_binary32_overflow {x : Dyad} (h0 : x.m ≠ 0) (hx : 128 ≤ (x.m.natAbs.log2 : Int) + x.e) (zs : Bool) :
    (fround binary32 x zs).isFin = false := by
  have hmin : fmtEmin binary32 = -126 := by decide
  have hmax : fmtEmax binary32 = 127 := by decide
  unfold fround
  rw [if_neg h0]
  dsimp only
  rw [if_pos]
  · rfl
  · rw [hmin, hmax]
    split <;> omega

/-- In the last binade of binary32 a number overflows when its significand rounds up to `2 ^ 24`. -/
theorem fround_binary32_last {x : Dyad} (h0 : x.m ≠ 0) (hx : (x.m.natAbs.log2 : Int) + x.e = 127) (he : x.e < 104)
    (zs : Bool) :
    (fround binary32 x zs).isFin = false ↔ roundHalfEven x.m.natAbs (104 - x.e).toNat = 2 ^ 24 := by
  have hmin : fmtEmin binary32 = -126 := by decide
  have hmax : fmtEmax binary32 = 127 := by decide
  have hprec : fmtPrec binary32 = 24 := rfl
  unfold fround
  rw [if_neg h0]
  dsimp only
  rw [hx, hmin, hmax, hprec, show max (127 : Int) (-126) - (24 : Nat) + 1 = 104 from rfl, if_neg he.not_ge]
  by_cases hround : roundHalfEven x.m.natAbs (104 - x.e).toNat = 2 ^ 24
  · rw [if_pos hround, if_pos hround]
    exact iff_of_true rfl hround
  · rw [if_neg hround, if_neg hround]
    exact iff_of_false Bool.noConfusion hround

/-- The least significand of 53 bits that rounds up to 24 bits all the way. -/
theorem roundHalfEven_eq_two_pow_iff {f : Nat} (hf : f < 2 ^ 52) :
    roundHalfEven (2 ^ 52 + f) 29 = 2 ^ 24 ↔ 0xFFFFFF0000000 ≤ f := by
  unfold roundHalfEven
  dsimp only
  split_ifs <;> omega

theorem finDyad_natAbs (sg : Bool) (m : Nat) (e : Int) : (finDyad sg m e).m.natAbs = m := by
  cases sg <;> simp [finDyad]

@[simp] theorem finDyad_e (sg : Bool) (m : Nat) (e : Int) : (finDyad sg m e).e = e := rfl

/-- A finite gain that `K_F32` refuses: its magnitude rounds to infinity in binary32 (R178). -/
theorem cvt32_isFin_iff {g : Word} (hfin : patExp binary64 g ≠ 0x7FF) :
    (cvt32 (fdecode binary64 g)).isFin = false ↔ 0x47EFFFFFF0000000 ≤ g.toNat % 2 ^ 63 := by
  have hfr : patFrac binary64 g < 2 ^ 52 := Nat.mod_lt _ (by norm_num)
  have hmag : g.toNat % 2 ^ 63 = patExp binary64 g * 2 ^ 52 + patFrac binary64 g := by
    simp only [patExp, patFrac, binary64]
    omega
  have hmax : fmtExpMax binary64 = 0x7FF := rfl
  unfold fdecode
  dsimp only
  rw [hmax, if_neg hfin, hmag]
  generalize patFrac binary64 g = f at hfr
  generalize patExp binary64 g = ex
  generalize patSign binary64 g = sg
  by_cases hsub : ex = 0
  · have hlog : f.log2 ≤ 51 := by
      rcases Nat.eq_zero_or_pos f with rfl | hpos
      · decide
      · exact Nat.lt_succ_iff.1 ((Nat.log2_lt hpos.ne').2 hfr)
    have hemin : fmtEmin binary64 - (binary64.fw : Int) = -1074 := by decide
    have hsmall : (((finDyad sg f (-1074)).m.natAbs.log2 : Int)) + (finDyad sg f (-1074)).e ≤ 126 := by
      rw [finDyad_natAbs, finDyad_e]
      omega
    rw [if_pos hsub, hemin, cvt32, fround_binary32_isFin hsmall]
    refine iff_of_false Bool.noConfusion ?_
    omega
  · have hlog : (2 ^ 52 + f).log2 = 52 := (Nat.log2_eq_iff (by omega)).2 ⟨by omega, by omega⟩
    have hexp : (ex : Int) - fmtBias binary64 - (binary64.fw : Int) = ex - 1075 := by
      rw [show fmtBias binary64 = 1023 from rfl, show (binary64.fw : Int) = 52 from rfl]
      ring
    have hne : (finDyad sg (2 ^ 52 + f) (ex - 1075)).m ≠ 0 := by
      rw [← Int.natAbs_ne_zero, finDyad_natAbs]
      omega
    have hbin : ((finDyad sg (2 ^ 52 + f) (ex - 1075)).m.natAbs.log2 : Int) +
        (finDyad sg (2 ^ 52 + f) (ex - 1075)).e = ex - 1023 := by
      rw [finDyad_natAbs, hlog, finDyad_e]
      push_cast
      ring
    have hfw : binary64.fw = 52 := rfl
    rw [if_neg hsub, hexp, cvt32, hfw]
    obtain hlt | rfl | hgt := lt_trichotomy ex 1150
    · rw [fround_binary32_isFin (by omega)]
      exact iff_of_false Bool.noConfusion (by omega)
    · rw [fround_binary32_last hne (by omega) (by rw [finDyad_e]; norm_num), finDyad_natAbs, finDyad_e]
      exact (roundHalfEven_eq_two_pow_iff hfr).trans (by omega)
    · rw [fround_binary32_overflow hne (by omega)]
      exact iff_of_true rfl (by omega)

/-- Settles O17: the all-ones exponents by `fdecode_isFin_iff`, the further ones of `K_F32` by `cvt32_isFin_iff`. -/
theorem badGainPatterns : Obligations.BadGainPatterns := by
  intro k g
  have hexp : (fdecode binary64 g).isFin = false ↔ g.toNat / 2 ^ 52 % 2 ^ 11 = 0x7FF := fdecode_isFin_iff binary64 g
  by_cases hk : k = .f32
  · rw [hk, gainOk, gainF32_isSome]
    by_cases hmax : patExp binary64 g = 0x7FF
    · have hnot : (cvt32 (fdecode binary64 g)).isFin = false := by
        have hinf := (fdecode_isFin_iff binary64 g).2 hmax
        cases hdec : fdecode binary64 g with
        | nan => rfl
        | inf sg => rfl
        | fin sg m e => rw [hdec] at hinf; exact Bool.noConfusion hinf
      exact iff_of_true hnot (.inl hmax)
    · rw [cvt32_isFin_iff hmax]
      exact ⟨fun h => .inr ⟨rfl, h⟩, fun h => (h.resolve_left hmax).2⟩
  · rw [gainOk_of_ne_f32 hk, hexp]
    exact ⟨.inl, fun h => h.resolve_right fun h' => hk h'.1⟩

/-! ### NaN results (42_float_kernels.md R182) -/

theorem fround_ne_nan (t : Fmt) (x : Dyad) (zs : Bool) : fround t x zs ≠ .nan := by
  unfold fround
  dsimp only
  split_ifs <;> exact FVal.noConfusion

/-- A sum is a NaN for a NaN operand and for infinities of unequal signs. -/
theorem fadd_eq_nan_iff (t : Fmt) (a b : FVal) :
    fadd t a b = .nan ↔ a = .nan ∨ b = .nan ∨ ∃ sg, a = .inf sg ∧ b = .inf (!sg) := by
  cases a with
  | nan => simp
  | inf sa =>
    cases b with
    | nan => simp
    | inf sb => cases sa <;> cases sb <;> simp [fadd]
    | fin sb mb eb => simp [fadd]
  | fin sa ma ea =>
    cases b with
    | nan => simp
    | inf sb => simp [fadd]
    | fin sb mb eb => simp [fadd, fround_ne_nan]

/-- A difference is a NaN for a NaN operand and for infinities of equal signs. -/
theorem fsub_eq_nan_iff (t : Fmt) (a b : FVal) :
    fsub t a b = .nan ↔ a = .nan ∨ b = .nan ∨ ∃ sg, a = .inf sg ∧ b = .inf sg := by
  rw [fsub, fadd_eq_nan_iff]
  cases b <;> simp [fneg]

/-- The product of a finite gain is a NaN for a NaN, and for an infinity when the gain is a zero. -/
theorem fmul_fin_eq_nan_iff (t : Fmt) (sg : Bool) (m : Nat) (e : Int) (d : FVal) :
    fmul t (.fin sg m e) d = .nan ↔ d = .nan ∨ ((∃ sd, d = .inf sd) ∧ m = 0) := by
  cases d with
  | nan => simp
  | inf sd => simp [fmul]
  | fin sd md ed => simp [fmul, fround_ne_nan]

/-- When the sum of R177 is a NaN. -/
theorem floatSum_eq_nan_iff (t : Fmt) (sg : Bool) (m : Nat) (e : Int) (a b : FVal) :
    floatSum t (.fin sg m e) a b = .nan ↔
      a = .nan ∨ b = .nan ∨ (∃ sg, a = .inf sg ∧ b = .inf sg) ∨ ((∃ sd, fsub t a b = .inf sd) ∧ m = 0) ∨
        ∃ sd, a = .inf sd ∧ fmul t (.fin sg m e) (fsub t a b) = .inf (!sd) := by
  rw [floatSum, fadd_eq_nan_iff, fmul_fin_eq_nan_iff, fsub_eq_nan_iff]
  simp only [or_assoc, or_self_left]

/-- The free bits that draw a NaN pattern: its sign at bit 63 and its fraction (log entry 6). -/
def freeOf (t : Fmt) (b : Word) : Word := BitVec.ofNat 64 ((patSign t b).toNat * 2 ^ 63 + patFrac t b)

theorem nanPattern_freeOf {t : Fmt} (ht : IeeeFmt t) {b : Word} (hb : b.toNat < 2 ^ (1 + t.ew + t.fw))
    (hnan : fdecode t b = .nan) : nanPattern t (freeOf t b) = b := by
  have hfr : patFrac t b < 2 ^ t.fw := Nat.mod_lt _ (Nat.two_pow_pos _)
  have hsg := Bool.toNat_le (patSign t b)
  have hfw : t.fw < 63 := by obtain rfl | rfl := ht <;> decide
  have hlt : patFrac t b < 2 ^ 63 := hfr.trans (Nat.pow_lt_pow_right (by norm_num) hfw)
  have hfree : (freeOf t b).toNat = (patSign t b).toNat * 2 ^ 63 + patFrac t b := by
    rw [freeOf, BitVec.toNat_ofNat]
    omega
  have hfrac : (freeOf t b).toNat % 2 ^ t.fw = patFrac t b := by
    have hdvd : 2 ^ t.fw ∣ (patSign t b).toNat * 2 ^ 63 := Dvd.dvd.mul_left (Nat.pow_dvd_pow 2 hfw.le) _
    rw [hfree, Nat.add_mod, Nat.mod_eq_zero_of_dvd hdvd, Nat.zero_add, Nat.mod_mod, Nat.mod_eq_of_lt hfr]
  have hsign : (freeOf t b).getLsbD 63 = patSign t b := getLsbD_of_toNat (by omega)
  have hfields : patExp t b = fmtExpMax t ∧ patFrac t b ≠ 0 := by
    unfold fdecode at hnan
    dsimp only at hnan
    split_ifs at hnan with hmax h0
    exact ⟨hmax, h0⟩
  unfold nanPattern
  dsimp only
  rw [hfrac, hsign, if_neg hfields.2, ← hfields.1]
  exact patternOf_fields ht hb

/-- Settles O40: when, by `floatSum_eq_nan_iff`; the pattern, because the clamp keeps a NaN; its form, because it is the
encoding of a NaN; and every pattern, by `nanPattern_freeOf`. -/
theorem naNResults : Obligations.NaNResults := by
  intro t hmem
  have ht := ieeeFmt_of_mem hmem
  refine ⟨fun gk a b hgk => ?_, fun free gk raw prv hsum => ?_, fun free => ⟨?_, ?_⟩,
    fun b hb hnan => ⟨freeOf t b, nanPattern_freeOf ht hb hnan⟩⟩
  · obtain ⟨sg, m, e, rfl⟩ := isFin_eq_true_iff.1 hgk
    have hzero : (∃ sg' e', FVal.fin sg m e = .fin sg' 0 e') ↔ m = 0 := by simp
    rw [floatSum_eq_nan_iff, hzero]
  · rw [fkern, hsum, fclamp_nan]
    rfl
  · exact fdecode_fencode ht free (v := .nan) trivial
  · exact fencode_lt ht free (v := .nan) trivial

/-! ### One pair of patterns on which kernels differ (41_int_kernels.md R158, 42_float_kernels.md R184) -/

/-- Settles O35, by evaluation; the float sum is no NaN, so the free bits are not looked at. -/
theorem kernelsDifferOnOnePair : Obligations.KernelsDifferOnOnePair := by
  refine ⟨by decide, by decide, by decide, by decide, fun free => ?_⟩
  have hgain : gainF32 0x3FF0000000000000 = some (.fin false 8388608 (-23)) := by decide
  have hout : fclamp binary32 (floatSum binary32 (.fin false 8388608 (-23)) (fdecode binary32 0x3F000000)
      (fdecode binary32 0x3E800000)) = .fin false 12582912 (-24) := by decide
  rw [kernF32, hgain, Option.map_some, fkern, hout]
  rfl

end Sys2Proof.Machine
end

section
namespace Sys2Proof.Machine

/-! ### The access sequence, element by element (20_memory.md R64) -/

/-- The accesses of element `i`: a read in frame 0, else a read and a write. -/
def accessesAt (buf w n i : Nat) : List Access :=
  if i < n then [⟨.read, buf + i * w, w⟩] else [⟨.read, buf + i * w, w⟩, ⟨.write, buf + i * w, w⟩]

/-- The accesses of the elements before `i`. -/
def accessesBefore (buf w n i : Nat) : List Access := (List.range i).flatMap (accessesAt buf w n)

section
variable (buf w n : Nat)

theorem accessesAt_first {i : Nat} (h : i < n) : accessesAt buf w n i = [⟨.read, buf + i * w, w⟩] := if_pos h

theorem accessesAt_later {i : Nat} (h : n ≤ i) :
    accessesAt buf w n i = [⟨.read, buf + i * w, w⟩, ⟨.write, buf + i * w, w⟩] := if_neg h.not_gt

theorem accessesBefore_succ (i : Nat) :
    accessesBefore buf w n (i + 1) = accessesBefore buf w n i ++ accessesAt buf w n i := by
  rw [accessesBefore, List.range_succ, List.flatMap_append, List.flatMap_singleton, accessesBefore]

theorem accessesBefore_length (i : Nat) : (accessesBefore buf w n i).length = i + (i - n) := by
  induction i with
  | zero => rw [Nat.zero_sub]; rfl
  | succ i ih =>
    rw [accessesBefore_succ, List.length_append, ih]
    obtain h | h := lt_or_ge i n
    · rw [accessesAt_first buf w n h, List.length_singleton]
      omega
    · rw [accessesAt_later buf w n h, List.length_cons, List.length_singleton]
      omega

theorem accessesBefore_prefix {i j : Nat} (h : i ≤ j) : accessesBefore buf w n i <+: accessesBefore buf w n j := by
  induction j, h using Nat.le_induction with
  | base => exact List.prefix_rfl
  | succ j _ ih =>
    rw [accessesBefore_succ]
    exact ih.trans (List.prefix_append _ _)

/-- The sequence of R64 takes the elements of the full frames in order. -/
theorem accessSequence_eq (nf : Nat) : accessSequence buf w n nf = accessesBefore buf w n (nf * n) := by
  cases nf with
  | zero => rw [Nat.zero_mul]; rfl
  | succ q =>
    have hfirst : (List.range n).flatMap (accessesAt buf w n) =
        (List.range n).map fun i => (⟨.read, buf + i * w, w⟩ : Access) := by
      rw [List.map_eq_flatMap]
      exact List.flatMap_congr fun i hi => accessesAt_first buf w n (List.mem_range.1 hi)
    have hlater : accessesAt buf w n ∘ (n + ·) =
        fun j => [⟨.read, buf + (n + j) * w, w⟩, ⟨.write, buf + (n + j) * w, w⟩] :=
      funext fun j => accessesAt_later buf w n (Nat.le_add_right n j)
    rw [accessSequence, if_neg q.succ_ne_zero, accessesBefore, Nat.succ_mul, Nat.add_comm (q * n), List.range_add,
      List.flatMap_append, List.flatMap_map, hfirst, Nat.succ_sub_one]
    exact congrArg (_ ++ ·) (congrArg (List.flatMap · _) hlater.symm)

end

end Sys2Proof.Machine
end

section
namespace Sys2Proof.Machine

/-! ### A whole `TRANSFORM`, access by access (40_transform.md R117 to R122) -/

/-- A `TRANSFORM` with its operands and the state of the core that takes it. -/
structure Job where
  start : State
  kernel : Kernel
  ch : BitVec 32
  buf : Word
  len : Word
  gain : Word

namespace Job

/-- The element size. -/
abbrev w (J : Job) : Nat := elemBytes J.kernel

/-- The number of channels. -/
abbrev n (J : Job) : Nat := J.ch.toNat

/-- The number of full frames. -/
abbrev nf (J : Job) : Nat := J.len.toNat / J.w / J.n

/-- Element `i` of the buffer in the memory of a state. -/
def elem (J : Job) (u : State) (i : Nat) : Word :=
  assemble J.start.cfg.order (memBytes u.mem (J.buf.toNat + i * J.w) J.w)

/-- Element `i` of the result (40_transform.md R122). -/
def result (J : Job) (i : Nat) : Word :=
  sharpened J.kernel J.start.draws J.gain J.n J.nf (J.elem J.start) i

/-- The state in which the walk starts, with no event to come. -/
def started (J : Job) : State := (J.start.withHost []).takeCmd.latch J.ch J.buf J.len J.gain

/-- The core is idle and in the invariant, the checks pass, and the buffer is ordinary memory. -/
structure Ok (J : Job) : Prop where
  inv : J.start.Inv
  idle : J.start.busy = false
  ksel : J.start.ksel = some J.kernel
  checked : failedCheck (J.start.latch J.ch J.buf J.len J.gain) = none
  ordinary : bufferOrdinary J.start J.buf J.len

/-- What the steps of a walk leave as it is (40_transform.md R121): all but the position, the waiting result, `PRV`, memory
and the model's records. -/
def kept (u : State) : State := { u with f := 0, c := 0, out := none, prv := [], mem := [], accesses := [], draws := 0 }

/-- `u` is the state of the walk in which exactly the elements before `i` are done: each of them has its result, the position
is at element `i`, and `PRV` holds the last `n` raw samples. -/
structure Walked (J : Job) (i : Nat) (u : State) : Prop where
  inv : u.Inv
  kept : Job.kept u = Job.kept J.started
  out : u.out = none
  frame : u.f = i / J.n
  channel : u.c = i % J.n
  draws : u.draws = J.start.draws + (i - J.n)
  accesses : u.accesses = J.start.accesses ++ accessesBefore J.buf.toNat J.w J.n i
  prv : ∀ e, e < i → i ≤ e + J.n → sparseFind (e % J.n) u.prv = some (J.elem J.start e)
  elems : ∀ e, J.elem u e = if e < i then J.result e else J.elem J.start e
  others : ∀ a, a < J.buf.toNat + J.n * J.w ∨ J.buf.toNat + J.nf * J.n * J.w ≤ a → memByte u.mem a = memByte J.start.mem a

variable {J : Job} {i : Nat} {u : State}

/-! #### The geometry of the buffer -/

theorem elem_eq_elemAt {t : State} (hcfg : t.cfg = J.start.cfg) (hbuf : t.oBuf = J.buf) (e : Nat) :
    J.elem t e = elemAt t J.w e := by
  rw [elem, elemAt, elemAddr, hcfg, hbuf]

/-- The checks of R111, all passed. -/
theorem Ok.checks (hJ : J.Ok) :
    0 < J.n ∧ gainOk J.kernel J.gain = true ∧ J.buf.toNat + J.len.toNat ≤ 2 ^ J.start.cfg.aw := by
  obtain ⟨hne, -, hgain, -, hlen⟩ := checks_of_checked hJ.checked hJ.ksel
  exact ⟨Nat.pos_of_ne_zero fun h0 => hne (BitVec.eq_of_toNat_eq h0), hgain, hlen⟩

/-- An element of the full frames lies in the buffer. -/
theorem element_in_buffer (h : i < J.nf * J.n) : i * J.w + J.w ≤ J.len.toNat := by
  have hns : J.nf * J.n ≤ J.len.toNat / J.w := Nat.div_mul_le_self _ _
  calc i * J.w + J.w = (i + 1) * J.w := (Nat.succ_mul i J.w).symm
    _ ≤ J.len.toNat / J.w * J.w := Nat.mul_le_mul_right _ (by omega)
    _ ≤ J.len.toNat := Nat.div_mul_le_self _ _

/-- An element of the later frames ends before the end of the last one. -/
theorem element_in_frames (h : i < J.nf * J.n) : i * J.w + J.w ≤ J.nf * J.n * J.w := by
  rw [← Nat.succ_mul]
  exact Nat.mul_le_mul_right _ h

/-- The next position, channel fastest (10_state.md R23). -/
theorem next_position {n : Nat} (hn : 0 < n) (i : Nat) :
    (if i % n + 1 < n then i / n else i / n + 1) = (i + 1) / n ∧ (if i % n + 1 < n then i % n + 1 else 0) = (i + 1) % n := by
  have hi := Nat.mod_add_div i n
  have hlt := Nat.mod_lt i hn
  suffices h : (i + 1) / n = (if i % n + 1 < n then i / n else i / n + 1) ∧
      (i + 1) % n = (if i % n + 1 < n then i % n + 1 else 0) from ⟨h.1.symm, h.2.symm⟩
  rw [Nat.div_mod_unique hn]
  split
  · exact ⟨by omega, by omega⟩
  · rw [Nat.mul_succ]
    exact ⟨by omega, hn⟩

theorem result_of_first (h : i < J.n) : J.result i = J.elem J.start i := if_pos h

theorem result_of_rest (h : J.nf * J.n ≤ i) : J.result i = J.elem J.start i := by
  rw [result, sharpened, if_neg h.not_gt, ite_self]

/-- The kernel's function on the raw sample and the one before it gives the result, a pattern of its width. -/
theorem Ok.kernelFn_eq (hJ : J.Ok) (hn : J.n ≤ i) (h : i < J.nf * J.n) :
    kernelFn J.kernel (J.start.draws + (i - J.n)) J.gain (J.elem J.start i) (J.elem J.start (i - J.n)) =
        some (J.result i) ∧ (J.result i).toNat < 2 ^ (8 * J.w) := by
  obtain ⟨out, hout, hlt⟩ := kernelFn_some J.kernel (J.start.draws + (i - J.n)) J.gain (J.elem J.start i)
    (J.elem J.start (i - J.n)) hJ.checks.2.1
  have hres : J.result i = out := by rw [result, sharpened, if_neg hn.not_gt, if_pos h, hout, Option.getD_some]
  rw [hres]
  exact ⟨hout, hlt⟩

/-! #### The steps of the walk -/

/-- With no event to come a step of the walk is the kernel's. -/
theorem step_of_walkNext {k : Kernel} {t : State} (hh : u.host = []) (hw : u.inWalk) (hk : u.ksel = some k)
    (h : WalkNext (elemBytes k) (kernelFn k u.draws) u t) : step u = .next t := by
  rw [step_coreTurn (.inl ⟨hh, rfl⟩), coreStep_walk hw hk]
  exact exec_of_walkNext h

/-- The walk starts at element 0. -/
theorem Ok.walked_started (hJ : J.Ok) : J.Walked 0 J.started where
  inv := inv_latch (s := (J.start.withHost []).takeCmd) (hJ.inv.core.congr rfl rfl hJ.inv.selection) rfl
    (outside_of_idle hJ.inv hJ.idle).1 hJ.checked
  kept := rfl
  out := rfl
  frame := (Nat.zero_div _).symm
  channel := (Nat.zero_mod _).symm
  draws := by rw [Nat.zero_sub]; rfl
  accesses := (List.append_nil _).symm
  prv := fun e he => absurd he (Nat.not_lt_zero e)
  elems := fun e => (if_neg (Nat.not_lt_zero e)).symm
  others := fun _ _ => rfl

section
variable (h : J.Walked i u)
include h

theorem Walked.inWalk : u.inWalk := ⟨congrArg State.busy h.kept, congrArg State.cmd h.kept⟩
theorem Walked.host : u.host = [] := congrArg State.host h.kept
theorem Walked.cfg : u.cfg = J.start.cfg := (congrArg State.cfg h.kept :)
theorem Walked.ds : u.ds = J.start.ds := (congrArg State.ds h.kept :)
theorem Walked.ksel (hJ : J.Ok) : u.ksel = some J.kernel := (congrArg State.ksel h.kept).trans hJ.ksel
theorem Walked.regions : u.regions = J.start.regions := (congrArg State.regions h.kept :)
theorem Walked.responses : u.responses = J.start.responses := (congrArg State.responses h.kept :)
theorem Walked.oBuf : u.oBuf = J.buf := congrArg State.oBuf h.kept
theorem Walked.oLen : u.oLen = J.len := congrArg State.oLen h.kept
theorem Walked.oCh : u.oCh = J.ch := congrArg State.oCh h.kept
theorem Walked.oGain : u.oGain = J.gain := congrArg State.oGain h.kept

theorem Walked.posIndex_eq : posIndex u = i := by
  rw [posIndex, h.frame, h.channel, h.oCh]
  exact Nat.div_add_mod' i J.n

theorem Walked.elemAddr_eq : elemAddr u J.w (posIndex u) = J.buf.toNat + i * J.w := by
  rw [h.posIndex_eq, elemAddr, h.oBuf]

theorem Walked.frames_eq : frames u J.w = J.nf := by rw [frames, samples, h.oLen, h.oCh]

/-- The raw sample at the position is the one of the start. -/
theorem Walked.raw : elemAt u J.w (posIndex u) = J.elem J.start i := by
  have helem := h.elems i
  rw [if_neg (lt_irrefl i)] at helem
  rw [← helem, elem_eq_elemAt h.cfg h.oBuf, h.posIndex_eq]

/-- The next position is at the next element. -/
theorem Walked.next_position (hJ : J.Ok) :
    (if u.c + 1 < u.oCh.toNat then u.f else u.f + 1) = (i + 1) / J.n ∧
      (if u.c + 1 < u.oCh.toNat then u.c + 1 else 0) = (i + 1) % J.n := by
  rw [h.oCh, h.frame, h.channel]
  exact Job.next_position hJ.checks.1 i

/-- Before the last frame ends the frame of the position is one of the full ones. -/
theorem Walked.frame_lt (hJ : J.Ok) (hi : i < J.nf * J.n) : u.f < frames u J.w := by
  rw [h.frames_eq, h.frame]
  exact (Nat.div_lt_iff_lt_mul hJ.checks.1).2 hi

/-- Every access of the walk is answered. -/
theorem Walked.answered (hJ : J.Ok) (hi : i < J.nf * J.n) (kd : AccessKind) :
    portAnswer u kd (elemAddr u J.w (posIndex u)) J.w = .ok := by
  have hin := element_in_buffer hi
  have hord : bufferOrdinary u u.oBuf u.oLen := by
    rw [bufferOrdinary, h.regions, h.oBuf, h.oLen]
    exact hJ.ordinary
  refine portAnswer_ok kd hord ?_ ?_ ?_
  · rw [h.elemAddr_eq, h.oBuf]
    omega
  · rw [h.elemAddr_eq, h.oBuf, h.oLen]
    omega
  · rw [h.oBuf, h.oLen, h.cfg]
    exact hJ.checks.2.2

/-- The last `n` raw samples after one more is put in its channel's entry. -/
theorem Walked.prv_put {e : Nat} (he : e < i + 1) (hwin : i + 1 ≤ e + J.n) :
    sparseFind (e % J.n) (sparsePut u.c (elemAt u J.w (posIndex u)) u.prv) = some (J.elem J.start e) := by
  rw [h.channel, h.raw]
  obtain rfl | hlt := Nat.eq_or_lt_of_le (Nat.le_of_lt_succ he)
  · exact sparseFind_put_self _ _ _
  · have hne : e % J.n ≠ i % J.n := by
      intro heq
      have hdvd : J.n ∣ i - e := (Nat.modEq_iff_dvd' hlt.le).1 heq
      have := Nat.le_of_dvd (by omega) hdvd
      omega
    rw [sparseFind_put_other hne]
    exact h.prv e hlt (by omega)

/-- A frame-0 load (R117). -/
theorem Walked.load (hJ : J.Ok) (hi : i < J.nf * J.n) (hn : i < J.n) :
    step u = .next (afterLoad J.w u).advance ∧ J.Walked (i + 1) (afterLoad J.w u).advance := by
  have h0 : u.f = 0 := by rw [h.frame, Nat.div_eq_of_lt hn]
  have hf := h.frame_lt hJ hi
  have hread := h.answered hJ hi .read
  refine ⟨step_of_walkNext h.host h.inWalk (h.ksel hJ) (.load h.inWalk.1 h.out hf h0 hread rfl), ?_⟩
  exact {
    inv := inv_load h.inv h.inWalk (h.ksel hJ) hf h0 h.out
    kept := h.kept
    out := h.out
    frame := (h.next_position hJ).1
    channel := (h.next_position hJ).2
    draws := by
      rw [advance_draws, putPrv_draws, noteAccess_draws, h.draws]
      omega
    accesses := by
      rw [advance_accesses, putPrv_accesses, noteAccess_accesses, h.accesses, h.elemAddr_eq, List.append_assoc,
        accessesBefore_succ, accessesAt_first _ _ _ hn]
    prv := fun e => h.prv_put
    elems := fun e => by
      have he : J.elem (afterLoad J.w u).advance e = J.elem u e := rfl
      rw [he, h.elems]
      obtain hlt | hge := lt_or_ge e i
      · rw [if_pos hlt, if_pos (by omega)]
      · rw [if_neg hge.not_gt]
        split
        · exact (result_of_first (by omega)).symm
        · rfl
    others := h.others }

/-- The read of a position with `F ≥ 1` (R118): its result waits. -/
theorem Walked.read (hJ : J.Ok) (hi : i < J.nf * J.n) (hn : J.n ≤ i) :
    step u = .next (afterRead J.w (J.result i) u) ∧ (afterRead J.w (J.result i) u).Inv := by
  have h0 : u.f ≠ 0 := by
    rw [h.frame]
    exact (Nat.div_pos hn hJ.checks.1).ne'
  have hf := h.frame_lt hJ hi
  have hpos := hJ.checks.1
  obtain ⟨hkern, hlt⟩ := hJ.kernelFn_eq hn hi
  have hpv : prvEntry u u.c = J.elem J.start (i - J.n) := by
    have hfind := h.prv (i - J.n) (by omega) (by omega)
    rw [← Nat.mod_eq_sub_mod hn, ← h.channel] at hfind
    rw [prvEntry, hfind]
  rw [← h.oGain, ← h.raw, ← hpv, ← h.draws] at hkern
  exact ⟨step_of_walkNext h.host h.inWalk (h.ksel hJ)
    (.read h.inWalk.1 h.out hf h0 (h.answered hJ hi .read) (J.result i) hkern rfl),
    inv_read h.inv h.inWalk (h.ksel hJ) hf h0 hlt⟩

/-- The elements after a write: the one at the position has its result, the others are as before. -/
theorem Walked.elems_write (hJ : J.Ok) (hi : i < J.nf * J.n) (hn : J.n ≤ i) (e : Nat) :
    J.elem (afterWrite J.w (J.result i) (afterRead J.w (J.result i) u)) e =
      if e < i + 1 then J.result e else J.elem J.start e := by
  have hpos : posIndex (afterRead J.w (J.result i) u) = i := h.posIndex_eq
  rw [elem_eq_elemAt (t := afterWrite J.w (J.result i) (afterRead J.w (J.result i) u)) h.cfg h.oBuf]
  by_cases he : e = i
  · have hself := elemAt_afterWrite_self (elemBytes_le J.kernel) (J.result i) (h.read hJ hi hn).2.memory
    rw [hpos, Nat.mod_eq_of_lt (hJ.kernelFn_eq hn hi).2] at hself
    rw [if_pos (by omega), he]
    exact BitVec.eq_of_toNat_eq hself
  · have hbefore : elemAt (afterRead J.w (J.result i) u) J.w e = J.elem u e := (elem_eq_elemAt h.cfg h.oBuf e).symm
    have hiff : e < i + 1 ↔ e < i := by omega
    rw [elemAt_afterWrite_other _ (by rwa [hpos]), hbefore, h.elems]
    simp only [hiff]

/-- The write of a position (R118), after its read. -/
theorem Walked.write (hJ : J.Ok) (hi : i < J.nf * J.n) (hn : J.n ≤ i) :
    step (afterRead J.w (J.result i) u) = .next (afterWrite J.w (J.result i) (afterRead J.w (J.result i) u)) ∧
      J.Walked (i + 1) (afterWrite J.w (J.result i) (afterRead J.w (J.result i) u)) := by
  obtain ⟨-, hinv⟩ := h.read hJ hi hn
  have hport := h.answered hJ hi .write
  refine ⟨step_of_walkNext (u := afterRead J.w (J.result i) u) h.host h.inWalk (h.ksel hJ)
    (.write h.inWalk.1 (J.result i) rfl hport rfl), ?_⟩
  exact {
    inv := inv_write hinv h.inWalk (h.ksel hJ) rfl hport
    kept := h.kept
    out := rfl
    frame := (h.next_position hJ).1
    channel := (h.next_position hJ).2
    draws := by
      have hd : (afterWrite J.w (J.result i) (afterRead J.w (J.result i) u)).draws = u.draws + 1 := rfl
      rw [hd, h.draws]
      omega
    accesses := by
      have ha : (afterWrite J.w (J.result i) (afterRead J.w (J.result i) u)).accesses = u.accesses ++
          [⟨.read, elemAddr u J.w (posIndex u), J.w⟩] ++ [⟨.write, elemAddr u J.w (posIndex u), J.w⟩] := rfl
      rw [ha, h.accesses, h.elemAddr_eq, List.append_assoc, List.append_assoc, accessesBefore_succ,
        accessesAt_later _ _ _ hn]
      rfl
    prv := fun e => h.prv_put
    elems := h.elems_write hJ hi hn
    others := fun a ha => by
      have hfirst : J.n * J.w ≤ i * J.w := Nat.mul_le_mul_right _ hn
      have hlast := element_in_frames hi
      have haddr : elemAddr (afterRead J.w (J.result i) u) J.w (posIndex (afterRead J.w (J.result i) u)) =
          J.buf.toNat + i * J.w := h.elemAddr_eq
      rw [memByte_afterWrite _ (by rw [haddr]; omega)]
      exact h.others a ha }

/-- After the last full frame the command ends (R119). -/
theorem Walked.finish (hJ : J.Ok) (hi : i = J.nf * J.n) : step u = .next u.finishTransform := by
  refine step_of_walkNext h.host h.inWalk (h.ksel hJ) (.finish h.inWalk.1 h.out ?_ rfl)
  rw [h.frames_eq, h.frame, hi, Nat.mul_div_cancel _ hJ.checks.1]

end

end Job

end Sys2Proof.Machine
end

section
namespace Sys2Proof.Machine

/-! ### Runs of a whole `TRANSFORM` (40_transform.md R119, R121, R122) -/

/-- A run and one more step. -/
theorem run_snoc {m : Nat} {s u t : State} (h : Host.Core.run Sys2Proof.core m s = .next u) (ht : step u = .next t) :
    Host.Core.run Sys2Proof.core (m + 1) s = .next t :=
  (run_append Sys2Proof.core h).trans (run_of_step 0 ht)

namespace Job

variable {J : Job}

/-- An element of the buffer in a state with the parameters of the start. -/
theorem elem_eq_assemble {u : State} (hcfg : u.cfg = J.start.cfg) (i : Nat) :
    J.elem u i = assemble u.cfg.order (memBytes u.mem (J.buf.toNat + i * J.w) J.w) := by
  rw [elem, hcfg]

/-- At the end every element has its result. -/
theorem Walked.elem_end {u : State} (hu : J.Walked (J.nf * J.n) u) (i : Nat) : J.elem u i = J.result i := by
  rw [hu.elems]
  split
  · rfl
  · exact (result_of_rest (by omega)).symm

section
variable (hJ : J.Ok)
include hJ

/-- The accesses of the elements before `i` bring the walk to element `i`. -/
theorem Ok.run_to {i : Nat} (hi : i ≤ J.nf * J.n) :
    ∃ u, Host.Core.run Sys2Proof.core (i + (i - J.n)) J.started = .next u ∧ J.Walked i u := by
  induction i with
  | zero =>
    refine ⟨J.started, ?_, hJ.walked_started⟩
    rw [Nat.zero_sub]
    rfl
  | succ i ih =>
    obtain ⟨u, hrun, hu⟩ := ih (by omega)
    obtain hn | hn := lt_or_ge i J.n
    · obtain ⟨hstep, hnext⟩ := hu.load hJ hi hn
      have hlen : i + 1 + (i + 1 - J.n) = i + (i - J.n) + 1 := by omega
      exact ⟨_, by rw [hlen]; exact run_snoc hrun hstep, hnext⟩
    · obtain ⟨hread, -⟩ := hu.read hJ hi hn
      obtain ⟨hwrite, hnext⟩ := hu.write hJ hi hn
      have hlen : i + 1 + (i + 1 - J.n) = i + (i - J.n) + 1 + 1 := by omega
      exact ⟨_, by rw [hlen]; exact run_snoc (run_snoc hrun hread) hwrite, hnext⟩

/-- The step after the acceptance starts the walk. -/
theorem Ok.step_accepted {p : Packet} (hp : decodePacket p = some (.transform J.ch J.buf J.len J.gain)) :
    step ((J.start.withHost []).accept p) = .next J.started := by
  rw [step_coreTurn (.inl ⟨rfl, rfl⟩), coreStep_packet rfl rfl, runPacket_of_some hp]
  exact exec_transform_started (s := ((J.start.withHost []).accept p).takeCmd) hJ.checked

/-- The whole `TRANSFORM`: acceptance, start, the accesses, and the end. -/
theorem Ok.run_whole {p : Packet} (hp : decodePacket p = some (.transform J.ch J.buf J.len J.gain))
    (hh : J.start.host = [.command p]) :
    ∃ u, J.Walked (J.nf * J.n) u ∧
      Host.Core.run Sys2Proof.core ((accessSequence J.buf.toNat J.w J.n J.nf).length + 3) J.start =
        .next u.finishTransform := by
  obtain ⟨u, hrun, hu⟩ := hJ.run_to le_rfl
  refine ⟨u, hu, ?_⟩
  have hend := run_snoc hrun (hu.finish hJ rfl)
  rw [accessSequence_eq, accessesBefore_length]
  exact (run_of_step _ (step_accept hJ.idle hh)).trans ((run_of_step _ (hJ.step_accepted hp)).trans hend)

end

end Job

/-- Settles O52: `Job.Ok.run_whole`, with the elements of the end by `Job.Walked.elem_end`. -/
theorem transformIsTheSharpeningFunction : Obligations.TransformIsTheSharpeningFunction := by
  intro s p ch buf len gain k hinv hb hh hp hk hcheck hord
  have hJ : Job.Ok ⟨s, k, ch, buf, len, gain⟩ := ⟨hinv, hb, hk, hcheck, hord⟩
  obtain ⟨u, hu, hrun⟩ := hJ.run_whole hp hh
  refine ⟨u.finishTransform, hrun, rfl, ?_, hu.ds, (hu.ksel hJ).trans hk.symm, rfl, hu.cfg,
    fun i _ => hu.elem_end i, hu.others⟩
  have hksel : u.ksel = s.ksel := (hu.ksel hJ).trans hk.symm
  have hbuf : u.oBuf = buf := hu.oBuf
  have hds : u.ds = s.ds := hu.ds
  have hresp : u.responses = s.responses := hu.responses
  rw [State.finishTransform, complete_responses, hresp, hds, hksel, hbuf]

/-- Settles O53: the accesses of the elements before the end are the sequence, by `accessSequence_eq`. -/
theorem transformAccessSequence : Obligations.TransformAccessSequence := by
  refine ⟨fun s p ch buf len gain k hinv hb hh hp hk hcheck hord => ?_, fun buf w n nf => ?_⟩
  · have hJ : Job.Ok ⟨s, k, ch, buf, len, gain⟩ := ⟨hinv, hb, hk, hcheck, hord⟩
    obtain ⟨u, hu, hrun⟩ := hJ.run_whole hp hh
    refine ⟨u.finishTransform, hrun, ?_⟩
    rw [accessSequence_eq]
    exact hu.accesses
  · rw [accessSequence_eq, accessesBefore_length]
    cases nf with
    | zero => simp
    | succ q =>
      rw [if_pos (show 1 ≤ q + 1 from Nat.succ_pos q), Nat.succ_sub_one, Nat.succ_mul, Nat.add_sub_cancel]
      ring

/-- The result at an element depends on that channel of the input only (40_transform.md section 5). -/
theorem sharpened_congr {k : Kernel} {d : Nat} {gain : Word} {n nf c ns : Nat} {x x' : Nat → Word}
    (hx : ∀ i, i < ns → i % n = c → x i = x' i) {i : Nat} (hi : i < ns) (hc : i % n = c) :
    sharpened k d gain n nf x i = sharpened k d gain n nf x' i := by
  unfold sharpened
  split
  · exact hx i hi hc
  · next hn => rw [hx i hi hc, hx (i - n) (by omega) (by rwa [← Nat.mod_eq_sub_mod (not_lt.1 hn)])]

/-- The checks look at the selection, the parameters and the operands only. -/
theorem failedCheck_latch_congr {s s' : State} {k : Kernel} (hs : s.ds = s.ksel.isSome) (hs' : s'.ds = s'.ksel.isSome)
    (hk : s.ksel = some k) (hk' : s'.ksel = some k) (hcfg : s.cfg = s'.cfg) (ch : BitVec 32) (buf len gain : Word) :
    failedCheck (s'.latch ch buf len gain) = failedCheck (s.latch ch buf len gain) := by
  have hds : s.ds = true := by rw [hs, hk]; rfl
  have hds' : s'.ds = true := by rw [hs', hk']; rfl
  rw [failedCheck_of_resolved (t := s.latch ch buf len gain) hds hk,
    failedCheck_of_resolved (t := s'.latch ch buf len gain) hds' hk', latch_cfg, latch_cfg, hcfg]
  rfl

/-- Settles O54: both runs end with the sharpened buffer, and `sharpened_congr` compares the two. -/
theorem channelsAreIndependent : Obligations.ChannelsAreIndependent := by
  intro s s' p ch buf len gain k c hinv hinv' hb hb' hh hh' hp hk hk' hcfg hdraws hcheck hord hord'
  have hcheck' := (failedCheck_latch_congr hinv.selection hinv'.selection hk hk' hcfg ch buf len gain).trans hcheck
  have hJ : Job.Ok ⟨s, k, ch, buf, len, gain⟩ := ⟨hinv, hb, hk, hcheck, hord⟩
  have hJ' : Job.Ok ⟨s', k, ch, buf, len, gain⟩ := ⟨hinv', hb', hk', hcheck', hord'⟩
  obtain ⟨u, hu, hrun⟩ := hJ.run_whole hp hh
  obtain ⟨u', hu', hrun'⟩ := hJ'.run_whole hp hh'
  intro w n ns steps elem hagree
  refine ⟨u.finishTransform, u'.finishTransform, hrun, hrun', fun i hi hc => ?_⟩
  have hend : elem u.finishTransform i = Job.result ⟨s, k, ch, buf, len, gain⟩ i :=
    (Job.elem_eq_assemble hu.cfg i).symm.trans (hu.elem_end i)
  have hend' : elem u'.finishTransform i = Job.result ⟨s', k, ch, buf, len, gain⟩ i :=
    (Job.elem_eq_assemble hu'.cfg i).symm.trans (hu'.elem_end i)
  rw [hend, hend', Job.result, Job.result, ← hdraws]
  exact sharpened_congr hagree hi hc

/-! ### A reset after some of the accesses (70_reset_and_hazards.md R242) -/

/-- A number of accesses ends before an element, or between the read and the write of one. -/
theorem exists_element_of_accesses {m n N : Nat} (h : m ≤ N + (N - n)) :
    (∃ i, i ≤ N ∧ m = i + (i - n)) ∨ ∃ i, n ≤ i ∧ i < N ∧ m = i + (i - n) + 1 := by
  by_cases hn : m ≤ n
  · exact .inl ⟨m, by omega, by omega⟩
  · obtain h2 | h2 := Nat.mod_two_eq_zero_or_one (m - n)
    · exact .inl ⟨n + (m - n) / 2, by omega, by omega⟩
    · exact .inr ⟨n + (m - n) / 2, by omega, by omega, by omega⟩

namespace Job

variable {J : Job}

/-- The accesses of the elements before `i`, and the read of element `i`, are prefixes of the sequence. -/
theorem take_accessSequence {i : Nat} (hi : i ≤ J.nf * J.n) :
    accessesBefore J.buf.toNat J.w J.n i = (accessSequence J.buf.toNat J.w J.n J.nf).take (i + (i - J.n)) := by
  rw [accessSequence_eq, ← accessesBefore_length J.buf.toNat J.w J.n i]
  exact List.prefix_iff_eq_take.1 (accessesBefore_prefix _ _ _ hi)

theorem take_accessSequence_read {i : Nat} (hi : i < J.nf * J.n) (hn : J.n ≤ i) :
    accessesBefore J.buf.toNat J.w J.n i ++ [⟨.read, J.buf.toNat + i * J.w, J.w⟩] =
      (accessSequence J.buf.toNat J.w J.n J.nf).take (i + (i - J.n) + 1) := by
  have hpre : accessesBefore J.buf.toNat J.w J.n i ++ [⟨.read, J.buf.toNat + i * J.w, J.w⟩] <+:
      accessesBefore J.buf.toNat J.w J.n (i + 1) := by
    rw [accessesBefore_succ, accessesAt_later _ _ _ hn]
    exact (List.prefix_append_right_inj _).2 (List.prefix_append [_] [_])
  have heq := List.prefix_iff_eq_take.1 (hpre.trans (accessesBefore_prefix _ _ _ hi))
  rwa [List.length_append, accessesBefore_length, List.length_singleton, ← accessSequence_eq] at heq

/-- What is left of the walk when reset lands after `m` accesses: their record, and memory with the elements transformed
whose write is among them. -/
structure Cut (J : Job) (m : Nat) (u : State) : Prop where
  responses : u.responses = J.start.responses
  accesses : u.accesses = J.start.accesses ++ (accessSequence J.buf.toNat J.w J.n J.nf).take m
  elems : ∀ e, J.elem u e = if J.n + 2 * (e - J.n) + 2 ≤ m then J.result e else J.elem J.start e
  others : ∀ a, a < J.buf.toNat + J.n * J.w ∨ J.buf.toNat + J.nf * J.n * J.w ≤ a → memByte u.mem a = memByte J.start.mem a

/-- The elements before `i` are the ones whose write is among the first `m` accesses; those of frame 0 have no write and keep
their value. -/
theorem elem_of_accesses {i m : Nat} (h : ∀ e, J.n ≤ e → (e < i ↔ J.n + 2 * (e - J.n) + 2 ≤ m)) (e : Nat) :
    (if e < i then J.result e else J.elem J.start e) =
      if J.n + 2 * (e - J.n) + 2 ≤ m then J.result e else J.elem J.start e := by
  obtain hn | hn := lt_or_ge e J.n
  · rw [result_of_first hn, ite_self, ite_self]
  · simp only [h e hn]

/-- After `m` accesses of the walk. -/
theorem Ok.run_cut (hJ : J.Ok) {m : Nat} (hm : m ≤ (accessSequence J.buf.toNat J.w J.n J.nf).length) :
    ∃ u, Host.Core.run Sys2Proof.core m J.started = .next u ∧ J.Cut m u := by
  rw [accessSequence_eq, accessesBefore_length] at hm
  obtain ⟨i, hi, rfl⟩ | ⟨i, hn, hi, rfl⟩ := exists_element_of_accesses hm
  · obtain ⟨u, hrun, hu⟩ := hJ.run_to hi
    refine ⟨u, hrun, hu.responses, hu.accesses.trans (by rw [take_accessSequence hi]), fun e => ?_, hu.others⟩
    rw [hu.elems]
    exact elem_of_accesses (fun e he => by omega) e
  · obtain ⟨u, hrun, hu⟩ := hJ.run_to hi.le
    obtain ⟨hread, -⟩ := hu.read hJ hi hn
    refine ⟨_, run_snoc hrun hread, hu.responses, ?_, fun e => (hu.elems e).trans ?_, hu.others⟩
    · rw [← take_accessSequence_read hi hn, ← List.append_assoc, ← hu.accesses, ← hu.elemAddr_eq]
      rfl
    · exact elem_of_accesses (fun e he => by omega) e

end Job

/-- Settles O57: the run to the cut, by `Job.Ok.run_cut`, and the reset, by `run_wait_reset`. -/
theorem resetLeavesAccessPrefix : Obligations.ResetLeavesAccessPrefix := by
  intro s p ch buf len gain k m hinv hb hh hp hk hcheck hord w n ns nf x hm
  have hJ : Job.Ok ⟨s, k, ch, buf, len, gain⟩ := ⟨hinv, hb, hk, hcheck, hord⟩
  obtain ⟨u, hrun, hu⟩ := hJ.run_cut hm
  have hwalk : Host.Core.run Sys2Proof.core (m + 1) ((s.accept p).withHost []) = .next u :=
    (run_of_step m (hJ.step_accepted hp)).trans hrun
  have hreset := (run_of_step (m + 3) (step_accept hb hh)).trans (run_wait_reset hwalk)
  exact ⟨afterReset u, hreset, hu.accesses, hu.responses, rfl, rfl, rfl, rfl, rfl, rfl, fun i _ => hu.elems i, hu.others⟩

end Sys2Proof.Machine
end
